-- ==== Sys2Proof/Word.lean ====
section
/-! DEFINITION. The two word types of the block: 32-bit registers (decision D2) and memory bytes (R60). -/

namespace Sys2Proof

/-- A 32-bit register value (R24) or memory address `Addr32` (R60). -/
abbrev Word := BitVec 32

/-- One byte of memory, the unit of every engine access (R68). -/
abbrev Byte := BitVec 8

end Sys2Proof
end

