-- ==== Sys2Proof/Config.lean ====
section
/-! DEFINITION. What the spec leaves to the platform (R6's OPEN parameters), as plain data, the fixed parameters
of R6, and the free values, which nothing constrains. -/

namespace Sys2Proof

/-- A range of byte addresses `[base, base + size)` that is NOT plain memory. -/
structure Hole where
  base : Nat
  size : Nat
deriving DecidableEq, Repr

/-- The OPEN parameters of R6. The machine carries one value of it in its state and no step changes it, so a statement
about every state is a statement about every platform (log entry 1).

`mem_ok` (R60, U8) is given by its holes: any set of 32-bit addresses is the complement of a finite list of ranges, so no
platform is shut out. `REG_BASE` (R6, U7) is `0x80 * regWindow`, which is how R6's alignment is said. -/
structure Config where
  regWindow : Nat
  holes     : List Hole
deriving DecidableEq, Repr

namespace Config

/-- 2^32, the number of byte addresses (R60, decision D3). -/
abbrev addrSpace : Nat := 4294967296

/-- `DIM_MAX` (R6). `DIM_MIN` is 1. -/
abbrev dimMax : Nat := 65535

/-- `PKT_MAX` (R6): pixels in one packet. -/
abbrev pktMax : Nat := 128

/-- The size in bytes of the register window (R24). -/
abbrev windowSize : Nat := 0x80

/-- FREE VALUE (U1, R35): what the `n`-th free draw gives for a read of IN_USED, OUT_USED or PIX_DONE while BUSY = 1.
Nothing constrains it (log entry 6). -/
opaque freeWord : Nat → Word

/-- FREE VALUE (U2, R262): what the `n`-th free draw gives for a byte of the write region after RST during a command.
Nothing constrains it (log entry 7). -/
opaque freeByte : Nat → Byte

end Config
end Sys2Proof
end

