-- ==== Sys2Proof/Syntax.lean ====
section
/-! DEFINITION. The instructions: one constructor for each row of spec/opcode_table.json. -/

namespace Sys2Proof

/-- What the engine decodes (30_encoding.md): the two packets of a DECODE stream and the three command words.

A packet carries its pixel `count` (R92), 1 to 128 when well formed; its payload is an operand in memory, behind the
header (R93), and so is no part of the term. -/
inductive Instr where
  | raw (count : Nat)   -- PKT8, T = 0 (R143)
  | run (count : Nat)   -- PKT8, T = 1 (R144)
  | decode              -- CMD32 0x00000001 (R140)
  | encode              -- CMD32 0x00000002 (R170)
  | scale               -- CMD32 0x00000003 (R200)
deriving DecidableEq, Repr

end Sys2Proof
end

