-- ==== Sys2Proof/WellFormed.lean ====
section
/-! DEFINITION. Which instruction terms have an encoding. -/

namespace Sys2Proof

/-- A packet's count is 1 to 128 (R92); a command word has no operand (R97). -/
def Instr.wf : Instr → Bool
  | .raw n  => decide (1 ≤ n) && decide (n ≤ Config.pktMax)
  | .run n  => decide (1 ≤ n) && decide (n ≤ Config.pktMax)
  | .decode => true
  | .encode => true
  | .scale  => true

end Sys2Proof
end

