-- ==== Sys2Proof/Decode.lean ====
section
/-! DEFINITION. The decoder of the two formats PKT8 and CMD32 (30_encoding.md), and after it the encoder. -/

namespace Sys2Proof

/-- One encoded unit: a packet header byte (format PKT8, R91) or a command word (format CMD32, R97). -/
inductive CodeWord where
  | header  (h : Byte)
  | command (w : Word)
deriving DecidableEq, Repr

/-- Why the decoder refuses a unit. Only command words can be refused: every header is legal (R94). -/
inductive DecodeReject where
  | illegalCommand (w : Word)   -- a command word other than 1, 2, 3 (R98)
deriving DecidableEq, Repr

/-- Field T, bit 7 of the header: true for a run packet (R91). -/
def headerIsRun (h : Byte) : Bool := h.getLsbD 7

/-- `count = zext_8(h[6:0]) + 1` (R92). -/
def headerCount (h : Byte) : Nat := (h.extractLsb' 0 7).toNat + 1

/-- PKT8: all 256 header values are legal (R94). -/
def decodeHeader (h : Byte) : Instr :=
  if headerIsRun h then .run (headerCount h) else .raw (headerCount h)

/-- CMD32: the whole word is the operation code (R97); every word but 1, 2, 3 is illegal (R98). -/
def decodeCommand (w : Word) : Except DecodeReject Instr :=
  if w = 0x00000001#32 then .ok .decode
  else if w = 0x00000002#32 then .ok .encode
  else if w = 0x00000003#32 then .ok .scale
  else .error (.illegalCommand w)

/-- The decoder, total on every unit. -/
def decode : CodeWord → Except DecodeReject Instr
  | .header h  => .ok (decodeHeader h)
  | .command w => decodeCommand w

/-- `header = T×128 + C` with T = 0 and C = count − 1 (R91, R173). -/
def rawHeader (count : Nat) : Byte := BitVec.ofNat 8 (count - 1)

/-- `header = T×128 + C` with T = 1 and C = count − 1 (R91, R172). -/
def runHeader (count : Nat) : Byte := 0x80#8 + BitVec.ofNat 8 (count - 1)

/-- The encoder: the unit of a well-formed instruction (R91, R97). -/
def encode : Instr → CodeWord
  | .raw n  => .header (rawHeader n)
  | .run n  => .header (runHeader n)
  | .decode => .command 0x00000001#32
  | .encode => .command 0x00000002#32
  | .scale  => .command 0x00000003#32

/-- The unit a row of spec/opcode_table.json stands for: 8 bits are a header, 32 bits a command word. -/
def tableUnit (nbits w : Nat) : Option CodeWord :=
  if 2 ^ nbits ≤ w then none
  else if nbits = 8 then some (.header (BitVec.ofNat 8 w))
  else if nbits = 32 then some (.command (BitVec.ofNat 32 w))
  else none

/-- The instruction the decoder reads from the `nbits` bits of `w`, numbered as the opcode table numbers them. -/
def decodeTableWord (nbits w : Nat) : Option Instr :=
  match tableUnit nbits w with
  | none   => none
  | some u =>
    match decode u with
    | .ok i    => some i
    | .error _ => none

end Sys2Proof
end

