-- ==== Sys2Proof/Machine/State.lean ====
section
/-! DEFINITION. The machine's state: the register block, the engine's control and working state, memory, and the
model's own fields for the platform, the outside world and the free values. -/

namespace Sys2Proof.Machine

/-- Byte memory (R43, R60): address and byte, addresses strictly rising, no entry 00. An unlisted address reads 00
(log entry 2). -/
abbrev Memory := List Host.Cell

/-- The values of ERROR.CODE that the block can record (R230). Codes 9-15 are never raised (U12), so they have no
constructor; the numbers are `errorNumber`'s. -/
inductive ErrorCode where
  | success                -- 0, "None"
  | invalidDimensions      -- 1
  | invalidFormat          -- 2
  | unexpectedEndOfStream  -- 3
  | pixelCountOverflow     -- 4
  | ioFailure              -- 5
  | outputOverflow         -- 6
  | regionOverlap          -- 7
  | illegalCommand         -- 8
deriving DecidableEq, Repr

/-- The `op` of `phase = Busy(op)` (R40). -/
inductive Op where
  | decode
  | encode
  | scale
  | illegal
deriving DecidableEq, Repr

/-- The engine's control state (R40). STATUS.BUSY = 1 exactly when it is `busy`. -/
inductive Phase where
  | idle
  | busy (op : Op)
deriving DecidableEq, Repr

/-- Where in R111's list a running command stands: before its checks (points 1-3), or in its body (point 4). -/
inductive Stage where
  | checks
  | body
deriving DecidableEq, Repr

/-- The engine's working state (R41), all of it exact integers but for the header byte and the packet buffer. -/
structure Work where
  stage  : Stage
  -- DECODE
  inpos  : Nat          -- stream position (R23)
  pix    : Nat          -- pixels written
  header : Byte         -- h
  packet : List Byte    -- pb, at most 512 bytes
  -- ENCODE
  s      : Nat          -- first pixel of the next packet
  k      : Nat          -- pixels of the last packet
  outpos : Nat          -- bytes written at DST_BASE
  -- SCALE
  i      : Nat          -- source row
  c      : Nat          -- source column
  errX   : Nat
  errY   : Nat
  dcol   : Nat
  drow   : Nat
deriving DecidableEq, Repr

/-- The working state every command starts from: before its checks, every position and accumulator 0 (R140, R170, R200).
It is also what the model leaves when a command ends or RST discards it (log entry 3). -/
def Work.initial : Work where
  stage  := .checks
  inpos  := 0
  pix    := 0
  header := 0
  packet := []
  s      := 0
  k      := 0
  outpos := 0
  i      := 0
  c      := 0
  errX   := 0
  errY   := 0
  dcol   := 0
  drow   := 0

/-- The host-visible registers of R24. -/
inductive Reg where
  | cmd | status | error | irqEn | width | height | bytesPP | newWidth | newHeight
  | pixBase | srcBase | srcLen | dstBase | dstLen | inUsed | outUsed | pixDone
deriving DecidableEq, Repr

/-- What can happen next outside the engine's control, and who moves (log entry 5). Register accesses name a bus address
and a width in bits; memory accesses are the host's own byte accesses to the shared memory (R43, R68). -/
inductive Input where
  | regRead    (addr width : Nat)
  | regWrite   (addr width : Nat) (v : Word)
  | memRead    (a : Word)
  | memWrite   (a : Word) (b : Byte)
  | rst          -- the reset input RST is asserted (R260)
  | engine       -- the engine moves as it does when no input is pending: a started command runs whole (R111)
  | enginePart   -- the engine makes only one loop iteration of its command (R41, R111)
deriving DecidableEq, Repr

/-- What the last host access was answered with: the data lines of the register port and of the memory (log entry 11). -/
inductive Reply where
  | none
  | word (w : Word)
  | byte (b : Byte)
deriving DecidableEq, Repr

/-- The whole machine. -/
structure State where
  -- the register block (R24-R35); BUSY is `phase`'s, ERR is `error`'s
  cmd       : Word
  done      : Bool        -- STATUS.DONE
  wign      : Bool        -- STATUS.WIGN
  error     : ErrorCode   -- ERROR.CODE
  ie        : Bool        -- IRQ_EN.IE
  width     : Word
  height    : Word
  bytesPP   : Word
  newWidth  : Word
  newHeight : Word
  pixBase   : Word
  srcBase   : Word
  srcLen    : Word
  dstBase   : Word
  dstLen    : Word
  inUsed    : Word
  outUsed   : Word
  pixDone   : Word
  -- the engine (R40, R41)
  phase     : Phase
  work      : Work
  -- memory, outside the block (R43)
  mem       : Memory
  -- the model's own: the platform, the outside world, and the counter of free draws
  config    : Config
  inputs    : List Input
  reply     : Reply
  draws     : Nat
deriving DecidableEq, Repr

/-- Why the machine stops. No instruction of the table stops on every path; each of these is safe (nothing is claimed
of a run that reaches it). -/
inductive Fault where
  /-- A host access to the running command's regions that R265 forbids (U3). Raised by `hostMemRead` and `hostMemWrite`.
  Safe: R265 says a model must treat it as a fault. -/
  | regionRace (a : Word)
  /-- A host access to a byte that the platform does not back with memory (`mem_ok(a)` false, R60). Raised by
  `hostMemRead` and `hostMemWrite`. Safe. -/
  | noMemory (a : Word)
  /-- A RAW or RUN packet outside the body of a running DECODE whose checks have passed: R140 is the only rule that
  executes packets. Raised by `execRaw` and `execRun`; no run from reset reaches it. Safe. -/
  | noDecodeRunning
  /-- A command's body whose checks (R113-R117) do not hold of the registers: R118 gives no body then. Raised by
  `bodyStep`; no run from reset reaches it. Safe. -/
  | bodyNotValidated
deriving DecidableEq, Repr

/-- Why an instruction has no meaning. Nothing raises it: every instruction of the table has its meaning. -/
inductive Refusal where
  /-- Raised by an arm of `exec` whose instruction has no meaning yet (there is none). Safe. -/
  | notModelled (mnemonic : String)
deriving DecidableEq, Repr

/-- The machine right after reset (R44): every register 0, Idle, IRQ low. The fields the spec gives no reset value are
`work` (log entry 3), `mem` (log entry 2), and the model's own `config` (1), `inputs` (5), `reply` (11), `draws` (6). -/
def State.reset : State where
  cmd       := 0
  done      := false
  wign      := false
  error     := .success
  ie        := false
  width     := 0
  height    := 0
  bytesPP   := 0
  newWidth  := 0
  newHeight := 0
  pixBase   := 0
  srcBase   := 0
  srcLen    := 0
  dstBase   := 0
  dstLen    := 0
  inUsed    := 0
  outUsed   := 0
  pixDone   := 0
  phase     := .idle
  work      := Work.initial
  mem       := []
  config    := { regWindow := 0, holes := [] }
  inputs    := []
  reply     := .none
  draws     := 0

end Sys2Proof.Machine
end

