-- ==== Sys2Proof/Machine/Ops.lean ====
section
/-! DEFINITION. The named operations the commands share: byte memory (R9, R60, R68), and completion, the block's one
exceptional event (R233). -/

namespace Sys2Proof.Machine

/-- The form every memory of the machine has: addresses strictly rising and no entry that says what an unlisted address
reads as. Equal memories are then equal lists. -/
abbrev Memory.wf (m : Memory) : Prop :=
  m.Pairwise (fun p q => p.1 < q.1) ∧ ∀ p ∈ m, p.2 ≠ 0

/-- The byte at `a`. An unlisted address reads 00 (95_test_vectors.md: "memory not named holds 00"; log entry 2). -/
def Memory.read : Memory → Nat → Byte
  | [], _ => 0
  | (k, b) :: m, a => if a = k then b else if a < k then 0 else Memory.read m a

/-- The memory after one byte write: only the byte at `a` changes (R60). Writing 00 unlists the address. -/
def Memory.write : Memory → Nat → Byte → Memory
  | [], a, b => if b = 0 then [] else [(a, b)]
  | (k, c) :: m, a, b =>
    if a < k then (if b = 0 then (k, c) :: m else (a, b) :: (k, c) :: m)
    else if a = k then (if b = 0 then m else (a, b) :: m)
    else (k, c) :: Memory.write m a b

/-- `MemRead(a, n)`: the bytes at `a, a+1, ..., a+n-1` in ascending address order (R9, R68). -/
def Memory.readBytes (m : Memory) (a : Nat) : Nat → List Byte
  | 0     => []
  | n + 1 => m.read a :: Memory.readBytes m (a + 1) n

/-- `MemWrite(a, n, bs)`, lowest address first (R9, R68). -/
def Memory.writeBytes (m : Memory) (a : Nat) : List Byte → Memory
  | []      => m
  | b :: bs => Memory.writeBytes (m.write a b) (a + 1) bs

/-- The values completion puts in the progress registers (R35). -/
structure Progress where
  inUsed  : Nat
  outUsed : Nat
  pixDone : Nat
deriving DecidableEq, Repr

/-- What a command records that fails a check (R118, R230). -/
def Progress.zero : Progress where
  inUsed  := 0
  outUsed := 0
  pixDone := 0

/-- **Completion** (R233), the end of every command, with `e = success` or with the error raised. `raise E` of the
pseudocode is `complete E`. SCALE's register update (R205) is `swapImage`, which runs before it in the same step. -/
def complete (e : ErrorCode) (p : Progress) (s : State) : State :=
  { s with
    inUsed  := BitVec.ofNat 32 p.inUsed
    outUsed := BitVec.ofNat 32 p.outUsed
    pixDone := BitVec.ofNat 32 p.pixDone
    error   := e
    done    := true
    phase   := .idle
    work    := Work.initial }

end Sys2Proof.Machine
end

