-- ==== Sys2Proof/Machine/Operands.lean ====
section
/-! DEFINITION. The operands of the commands: the image's size and pixels (R62, R63), payload lengths (R93), the
regions (R66), which memory exists (R60), and the register map (R24). -/

namespace Sys2Proof.Machine

/-! ### The platform -/

/-- `REG_BASE`, a multiple of 0x80 (R6). -/
def regBase (cfg : Config) : Nat := 0x80 * cfg.regWindow

/-- Whether address `a` lies in the hole. -/
def inHole (h : Hole) (a : Nat) : Bool := decide (h.base ≤ a) && decide (a < h.base + h.size)

/-- `mem_ok(a)` (R60); no address of 2^32 or more exists. -/
def memOk (cfg : Config) (a : Nat) : Bool :=
  decide (a < Config.addrSpace) && cfg.holes.all (fun h => !(inHole h a))

/-! ### The current image -/

/-- B = BYTESPP as a number. -/
abbrev State.bpp (s : State) : Nat := s.bytesPP.toNat

/-- W × H, the number of pixels of the current image, exact (R7). -/
def State.total (s : State) : Nat := s.width.toNat * s.height.toNat

/-- W × H × B, the size in bytes of the current image (R62), exact (R7). -/
def State.imageBytes (s : State) : Nat := s.total * s.bpp

/-- NW × NH, exact (R7). -/
def State.newTotal (s : State) : Nat := s.newWidth.toNat * s.newHeight.toNat

/-- The address of pixel `k` of the current image (R63). -/
def State.pixelAddr (s : State) (k : Nat) : Nat := s.pixBase.toNat + k * s.bpp

/-- P(k), the k-th pixel of the current image (R63). -/
def State.pixel (s : State) (k : Nat) : List Byte := s.mem.readBytes (s.pixelAddr k) s.bpp

/-! ### The packets of a DECODE -/

/-- The payload length of a packet (R93). A command word has no payload. -/
def payloadLength (b : Nat) : Instr → Nat
  | .raw n  => n * b
  | .run _  => b
  | .decode => 0
  | .encode => 0
  | .scale  => 0

/-- The address of the header DECODE reads next (R77). -/
def State.headerAddr (s : State) : Nat := s.srcBase.toNat + s.work.inpos

/-- The address of that packet's payload (R77). -/
def State.payloadAddr (s : State) : Nat := s.srcBase.toNat + s.work.inpos + 1

/-! ### Regions -/

/-- A contiguous range of byte addresses (R10). -/
structure Region where
  base : Nat
  len  : Nat
deriving DecidableEq, Repr

/-- Whether address `a` lies in the region. An empty region contains no byte (R66). -/
def Region.contains (r : Region) (a : Nat) : Bool := decide (r.base ≤ a) && decide (a < r.base + r.len)

/-- The read region of a command (R66). An illegal command has none, which is one that contains no byte. -/
def readRegion (op : Op) (s : State) : Region :=
  match op with
  | .decode  => ⟨s.srcBase.toNat, s.srcLen.toNat⟩
  | .encode  => ⟨s.pixBase.toNat, s.imageBytes⟩
  | .scale   => ⟨s.pixBase.toNat, s.imageBytes⟩
  | .illegal => ⟨0, 0⟩

/-- The write region of a command (R66). -/
def writeRegion (op : Op) (s : State) : Region :=
  match op with
  | .decode  => ⟨s.pixBase.toNat, s.imageBytes⟩
  | .encode  => ⟨s.dstBase.toNat, s.dstLen.toNat⟩
  | .scale   => ⟨s.dstBase.toNat, s.newTotal * s.bpp⟩
  | .illegal => ⟨0, 0⟩

/-- Whether a hole takes a byte of the region. -/
def holeMeets (h : Hole) (r : Region) : Bool :=
  decide (0 < h.size) && decide (0 < r.len) && decide (h.base < r.base + r.len) && decide (r.base < h.base + h.size)

/-- `region_ok` (R116): an empty region is always valid; another one ends at or below 2^32 and holds no byte with
`mem_ok` false. The holes are compared as ranges, which says the same of every byte. -/
def regionOk (cfg : Config) (r : Region) : Bool :=
  decide (r.len = 0) || (decide (r.base + r.len ≤ Config.addrSpace) && cfg.holes.all (fun h => !(holeMeets h r)))

/-- `overlap` (R117). -/
def regionsOverlap (r w : Region) : Bool :=
  decide (0 < r.len) && decide (0 < w.len) && decide (r.base < w.base + w.len) && decide (w.base < r.base + r.len)

/-! ### The register map -/

/-- The offset of a register (R24). -/
def regOffset : Reg → Nat
  | .cmd       => 0x00
  | .status    => 0x04
  | .error     => 0x08
  | .irqEn     => 0x0C
  | .width     => 0x10
  | .height    => 0x14
  | .bytesPP   => 0x18
  | .newWidth  => 0x1C
  | .newHeight => 0x20
  | .pixBase   => 0x24
  | .srcBase   => 0x28
  | .srcLen    => 0x2C
  | .dstBase   => 0x30
  | .dstLen    => 0x34
  | .inUsed    => 0x38
  | .outUsed   => 0x3C
  | .pixDone   => 0x40

/-- The registers of the map, in the order of R24. -/
def allRegs : List Reg :=
  [.cmd, .status, .error, .irqEn, .width, .height, .bytesPP, .newWidth, .newHeight,
   .pixBase, .srcBase, .srcLen, .dstBase, .dstLen, .inUsed, .outUsed, .pixDone]

/-- The register at an offset of the window (R24); the other offsets name none. -/
def regAt (off : Nat) : Option Reg := allRegs.find? (fun r => regOffset r == off)

end Sys2Proof.Machine
end

