-- ==== Sys2Proof/Machine/Flags.lean ====
section
/-! DEFINITION. The flags (R26, R38), the error number (R27, R230), the interrupt output (R235), and the words that
STATUS, ERROR and IRQ_EN read as. -/

namespace Sys2Proof.Machine

/-- STATUS.BUSY = 1 exactly when phase = Busy (R40). -/
def State.isBusy (s : State) : Bool :=
  match s.phase with
  | .idle   => false
  | .busy _ => true

/-- The number of an error (R230). -/
def errorNumber : ErrorCode → BitVec 4
  | .success               => 0
  | .invalidDimensions     => 1
  | .invalidFormat         => 2
  | .unexpectedEndOfStream => 3
  | .pixelCountOverflow    => 4
  | .ioFailure             => 5
  | .outputOverflow        => 6
  | .regionOverlap         => 7
  | .illegalCommand        => 8

/-- STATUS.ERR: always equal to (ERROR.CODE ≠ 0) (R26). -/
def State.errFlag (s : State) : Bool := errorNumber s.error != 0

/-- The output `IRQ = STATUS.DONE ∧ IRQ_EN.IE`, a level (R235). -/
def State.irq (s : State) : Bool := s.done && s.ie

/-- What STATUS reads as (R26): bit 0 BUSY, bit 1 DONE, bit 2 ERR, bit 3 WIGN, bits 31:4 zero. -/
def statusWord (s : State) : Word :=
  0#28 ++ BitVec.ofBool s.wign ++ BitVec.ofBool s.errFlag ++ BitVec.ofBool s.done ++ BitVec.ofBool s.isBusy

/-- What ERROR reads as (R27): bits 3:0 CODE, bits 31:4 zero. -/
def errorWord (s : State) : Word := 0#28 ++ errorNumber s.error

/-- What IRQ_EN reads as (R28): bit 0 IE, bits 31:1 zero. -/
def irqEnWord (s : State) : Word := 0#31 ++ BitVec.ofBool s.ie

/-- A host write of STATUS (R26, R120): `DONE ← DONE ∧ ¬v[1]`, `WIGN ← WIGN ∧ ¬v[3]`, other bits ignored. -/
def writeStatus (v : Word) (s : State) : State :=
  { s with done := s.done && !(v.getLsbD 1), wign := s.wign && !(v.getLsbD 3) }

/-- A host write of IRQ_EN (R28, R120): `IE ← v[0]`. -/
def writeIrqEn (v : Word) (s : State) : State := { s with ie := v.getLsbD 0 }

/-- The mark of a host write that BUSY = 1 made ignored (R37). -/
def setWign (s : State) : State := { s with wign := true }

end Sys2Proof.Machine
end

