-- ==== Sys2Proof/Machine/Commands.lean ====
section
/-! DEFINITION. What every command shares: its start (R110), its checks in their order (R113-R118, R236), and the way
into its body. -/

namespace Sys2Proof.Machine

/-- `op(v)` (R110): the operation a command word stands for. -/
def opOf (v : Word) : Op :=
  match decodeCommand v with
  | .ok .decode    => .decode
  | .ok .encode    => .encode
  | .ok .scale     => .scale
  | .ok (.raw _)   => .illegal
  | .ok (.run _)   => .illegal
  | .error _       => .illegal

/-- **Command start** (R110): a host write of `v` to CMD while Idle, one indivisible step. -/
def commandStart (v : Word) (s : State) : State :=
  { s with
    cmd     := v
    done    := false
    error   := .success
    inUsed  := 0
    outUsed := 0
    pixDone := 0
    phase   := .busy (opOf v)
    work    := Work.initial }

/-- `B ∈ {1, 3, 4}` (R114, R30). -/
def formatOk (b : Word) : Bool := b == 1#32 || b == 3#32 || b == 4#32

/-- `1 ≤ v ≤ 65535`, read unsigned (R114, R29, R31). -/
def dimOk (v : Word) : Bool := decide (1 ≤ v.toNat) && decide (v.toNat ≤ Config.dimMax)

/-- The parameter checks of R114: the first failure, in order. -/
def paramError (op : Op) (s : State) : Option ErrorCode :=
  if !(formatOk s.bytesPP) then some .invalidFormat
  else if !(dimOk s.width && dimOk s.height) then some .invalidDimensions
  else if op = .scale && !(dimOk s.newWidth && dimOk s.newHeight) then some .invalidDimensions
  else if op = .scale && decide (s.dstLen.toNat < s.newTotal * s.bpp) then some .outputOverflow
  else none

/-- The region checks of R116 (the read region first) and R117. -/
def regionError (op : Op) (s : State) : Option ErrorCode :=
  if !(regionOk s.config (readRegion op s)) then some .ioFailure
  else if !(regionOk s.config (writeRegion op s)) then some .ioFailure
  else if regionsOverlap (readRegion op s) (writeRegion op s) then some .regionOverlap
  else none

/-- Points 1 to 3 of R111: the first error of R113, R114, R116, R117, in the order of R236. -/
def checkError (op : Op) (s : State) : Option ErrorCode :=
  if op = .illegal then some .illegalCommand
  else
    match paramError op s with
    | some e => some e
    | none   => regionError op s

/-- The body's start: the working state at the initial values its rule gives (R41, R140, R170, R200). -/
def beginBody (op : Op) (s : State) : State :=
  { s with phase := .busy op, work := { Work.initial with stage := .body } }

/-- From a command's start to its body, or to completion with the first failing check and nothing done (R118). -/
def enterBody (op : Op) (s : State) : State :=
  match checkError op s with
  | some e => complete e Progress.zero s
  | none   => beginBody op s

end Sys2Proof.Machine
end

