-- ==== Sys2Proof/Machine/Resampler.lean ====
section
/-! DEFINITION. The SCALE command (R200-R208). -/

namespace Sys2Proof.Machine

/-- The address of destination pixel (dcol, drow) (R77). -/
def State.dstAddr (s : State) : Nat :=
  s.dstBase.toNat + (s.work.drow * s.newWidth.toNat + s.work.dcol) * s.bpp

/-- The address of destination row `y` (R77). -/
def State.dstRowAddr (s : State) (y : Nat) : Nat := s.dstBase.toNat + y * s.newWidth.toNat * s.bpp

/-- One round of the inner loop of R201: subtract W from errX, copy source pixel (c, i) to the destination cursor, and
advance the cursor. -/
def copyColumn (s : State) : State :=
  { s with
    mem  := s.mem.writeBytes s.dstAddr (s.pixel (s.work.i * s.width.toNat + s.work.c))
    work := { s.work with errX := s.work.errX - s.width.toNat, dcol := s.work.dcol + 1 } }

/-- The inner loop of R201, `while errX ≥ W`; the number bounds its rounds. -/
def copyColumns : Nat → State → State
  | 0, s     => s
  | n + 1, s => if s.width.toNat ≤ s.work.errX then copyColumns n (copyColumn s) else s

/-- One source column of the horizontal pass (R201): `errX <- errX + NW`, the copies, the next column. As W ≥ 1, errX
rounds are enough. -/
def scaleColumn (s : State) : State :=
  let a := { s with work := { s.work with errX := s.work.errX + s.newWidth.toNat } }
  let b := copyColumns a.work.errX a
  { b with work := { b.work with c := b.work.c + 1 } }

/-- R203: copy destination row drow, already written, to row drow + 1. -/
def duplicateRow (s : State) : State :=
  { s with
    mem := s.mem.writeBytes (s.dstRowAddr (s.work.drow + 1))
             (s.mem.readBytes (s.dstRowAddr s.work.drow) (s.newWidth.toNat * s.bpp)) }

/-- One round of the vertical loop of R202: the duplicate if errY ≥ 2×H, then subtract H and advance drow, in both
cases (90_conflicts.md C4). -/
def finishRow (s : State) : State :=
  let a := if 2 * s.height.toNat ≤ s.work.errY then duplicateRow s else s
  { a with work := { a.work with errY := a.work.errY - s.height.toNat, drow := a.work.drow + 1 } }

/-- The vertical loop of R202, `while errY ≥ H`; the number bounds its rounds. -/
def finishRows : Nat → State → State
  | 0, s     => s
  | n + 1, s => if s.height.toNat ≤ s.work.errY then finishRows n (finishRow s) else s

/-- The vertical step after a row's horizontal pass (R202): `errY <- errY + NH`, the loop, the next row, whose errX and
dcol start at 0 (R201). As H ≥ 1, errY rounds are enough. -/
def scaleRowEnd (s : State) : State :=
  let a := { s with work := { s.work with errY := s.work.errY + s.newHeight.toNat } }
  let b := finishRows a.work.errY a
  { b with work := { b.work with i := b.work.i + 1, c := 0, errX := 0, dcol := 0 } }

/-- The columns of one row: `for c in 0 .. W-1`. -/
def scaleColumns : Nat → State → State
  | 0, s     => s
  | n + 1, s => scaleColumns n (scaleColumn s)

/-- The rows: `for i in 0 .. H-1`, each its horizontal pass and its vertical step. -/
def scaleRows : Nat → State → State
  | 0, s     => s
  | n + 1, s => scaleRows n (scaleRowEnd (scaleColumns s.width.toNat s))

/-- R205: the new buffer becomes the current image, the old one is handed back as the next destination. -/
def swapImage (s : State) : State :=
  { s with
    width   := s.newWidth
    height  := s.newHeight
    pixBase := s.dstBase
    dstBase := s.pixBase
    dstLen  := BitVec.ofNat 32 s.imageBytes }

/-- The progress a successful SCALE reports (R205), of the state before the swap. -/
def scaleProgress (s : State) : Progress where
  inUsed  := 0
  outUsed := s.newTotal * s.bpp
  pixDone := s.newTotal

/-- Completion of a SCALE whose body has finished (R205, R233). -/
def scaleComplete (s : State) : State := complete .success (scaleProgress s) (swapImage s)

/-- One part of a running SCALE: the next column, or the row's end, or completion. -/
def scaleIter (s : State) : State :=
  if s.height.toNat ≤ s.work.i then scaleComplete s
  else if s.work.c < s.width.toNat then scaleColumn s
  else scaleRowEnd s

/-- **SCALE** (R200): from the command's start to its completion in one step (R111). -/
def execScale (s : State) : Host.Outcome State Fault Refusal :=
  match checkError .scale s with
  | some e => .next (complete e Progress.zero s)
  | none   => .next (scaleComplete (scaleRows s.height.toNat (beginBody .scale s)))

end Sys2Proof.Machine
end

