-- ==== Sys2Proof/Machine/Packet.lean ====
section
/-! DEFINITION. The packets of a DECODE: RAW (R143) and RUN (R144), with the tests of R141 and R142 and the
packet-granular commit of R145. -/

namespace Sys2Proof.Machine

/-- The progress DECODE reports (R140): IN_USED = inpos, PIX_DONE = pix, OUT_USED = 0. -/
def decodeProgress (s : State) : Progress where
  inUsed  := s.work.inpos
  outUsed := 0
  pixDone := s.work.pix

/-- `h <- MemRead(SRC_BASE + inpos, 1)` (R140). -/
def fetchHeader (s : State) : State :=
  { s with work := { s.work with header := s.mem.read s.headerAddr } }

/-- `for j in 0 .. n-1: MemWrite(addr + j×B, B, pixel j)`, in ascending order of j (R143, R144). -/
def writePixels (m : Memory) (addr b : Nat) (pixel : Nat → List Byte) : Nat → Memory
  | 0     => m
  | j + 1 => Memory.writeBytes (writePixels m addr b pixel j) (addr + j * b) (pixel j)

/-- The rest of the loop body of R140 once the header is read. In order: the overflow test (R142), the short-payload
test (R141 (b)), the whole payload into the packet buffer (R145), its pixels written, `inpos` and `pix` moved on.
`pixel pb j` is the packet's j-th pixel. -/
def decodePacket (count plen : Nat) (pixel : List Byte → Nat → List Byte) (s : State) : State :=
  if s.total < s.work.pix + count then complete .pixelCountOverflow (decodeProgress s) s
  else if s.srcLen.toNat < s.work.inpos + 1 + plen then complete .unexpectedEndOfStream (decodeProgress s) s
  else
    let pb := s.mem.readBytes s.payloadAddr plen
    { s with
      mem  := writePixels s.mem (s.pixelAddr s.work.pix) s.bpp (pixel pb) count
      work := { s.work with packet := pb, inpos := s.work.inpos + 1 + plen, pix := s.work.pix + count } }

/-- Pixel `j` of a raw payload: `pb[j×B .. j×B + B − 1]` (R143). -/
def rawPixel (b : Nat) (pb : List Byte) (j : Nat) : List Byte := (pb.drop (j * b)).take b

/-- Every pixel of a run: `pb[0 .. B − 1]` (R144). -/
def runPixel (b : Nat) (pb : List Byte) (_ : Nat) : List Byte := pb.take b

/-- A raw packet inside DECODE's loop (R143). -/
def rawPacket (count : Nat) (s : State) : State :=
  decodePacket count (payloadLength s.bpp (.raw count)) (rawPixel s.bpp) s

/-- A run packet inside DECODE's loop (R144). -/
def runPacket (count : Nat) (s : State) : State :=
  decodePacket count (payloadLength s.bpp (.run count)) (runPixel s.bpp) s

/-- A DECODE's body is running on checked parameters and regions: what R140 asks before it executes a packet. -/
def decodeRunning (s : State) : Bool :=
  decide (s.phase = .busy .decode) && decide (s.work.stage = .body) && decide (checkError .decode s = none)

/-- **RAW** (R143). Outside a running DECODE no rule executes a packet (log entry 12). -/
def execRaw (count : Nat) (s : State) : Host.Outcome State Fault Refusal :=
  if decodeRunning s then .next (rawPacket count s) else .fault .noDecodeRunning

/-- **RUN** (R144). Outside a running DECODE no rule executes a packet (log entry 12). -/
def execRun (count : Nat) (s : State) : Host.Outcome State Fault Refusal :=
  if decodeRunning s then .next (runPacket count s) else .fault .noDecodeRunning

end Sys2Proof.Machine
end

