-- ==== Sys2Proof/Machine/RleDecode.lean ====
section
/-! DEFINITION. The DECODE command (R140-R148). -/

namespace Sys2Proof.Machine

/-- Once round the loop of R140. At its top: completion when `pix = total` (R146), or UnexpectedEndOfStream when no
header byte is left (R141 (a)); else one header is read and its packet executed. -/
def decodeIter (s : State) : State :=
  if s.total ≤ s.work.pix then complete .success (decodeProgress s) s
  else if s.srcLen.toNat ≤ s.work.inpos then complete .unexpectedEndOfStream (decodeProgress s) s
  else
    let s' := fetchHeader s
    if headerIsRun s'.work.header then runPacket (headerCount s'.work.header) s'
    else rawPacket (headerCount s'.work.header) s'

/-- The loop of R140, until the command has completed; the number bounds its rounds. -/
def decodeLoop : Nat → State → State
  | 0, s     => s
  | n + 1, s =>
    match s.phase with
    | .idle   => s
    | .busy _ => decodeLoop n (decodeIter s)

/-- **DECODE** (R140): from the command's start to its completion in one step (R111). Every round but the last moves
`pix` on by at least one pixel, so W×H + 1 rounds always complete. -/
def execDecode (s : State) : Host.Outcome State Fault Refusal :=
  .next (decodeLoop (s.total + 1) (enterBody .decode s))

end Sys2Proof.Machine
end

