-- ==== Sys2Proof/Machine/RleEncode.lean ====
section
/-! DEFINITION. The ENCODE command (R170-R178). -/

namespace Sys2Proof.Machine

/-- The progress ENCODE reports (R170): OUT_USED = outpos, PIX_DONE = s, IN_USED = 0. -/
def encodeProgress (s : State) : Progress where
  inUsed  := 0
  outUsed := s.work.outpos
  pixDone := s.work.s

/-- Whether pixel `j` starts a run: `j + 1 < n and P(j+1) = P(j)` (R171, R173). Pixels are equal when all their bytes
are (R64). -/
def startsRun (s : State) (j : Nat) : Bool :=
  decide (j + 1 < s.total) && decide (s.pixel (j + 1) = s.pixel j)

/-- The inner loop of R172: from `k` pixels on, one more while there is one, the cap is not reached and it equals P(p).
The number bounds its rounds. -/
def runExtent (s : State) (p : Nat) : Nat → Nat → Nat
  | 0, k     => k
  | n + 1, k =>
    if decide (p + k < s.total) && decide (k < Config.pktMax) && decide (s.pixel (p + k) = s.pixel p) then
      runExtent s p n (k + 1)
    else k

/-- The inner loop of R173: from `k` pixels on, one more while there is one, the cap is not reached and it does not
start a run. -/
def rawExtent (s : State) (p : Nat) : Nat → Nat → Nat
  | 0, k     => k
  | n + 1, k =>
    if decide (p + k < s.total) && decide (k < Config.pktMax) && !(startsRun s (p + k)) then
      rawExtent s p n (k + 1)
    else k

/-- `P(p) ++ P(p+1) ++ ... ++ P(p+k−1)` (R170). -/
def pixelsFrom (s : State) (p : Nat) : Nat → List Byte
  | 0     => []
  | k + 1 => s.pixel p ++ pixelsFrom s (p + 1) k

/-- How many pixels the packet at pixel `p` covers (R171-R173). -/
def packetExtent (s : State) (p : Nat) : Nat :=
  if startsRun s p then runExtent s p Config.pktMax 2 else rawExtent s p Config.pktMax 1

/-- The bytes of the packet at pixel `p` (R170): header first, then the payload. -/
def packetBytes (s : State) (p : Nat) : List Byte :=
  if startsRun s p then runHeader (packetExtent s p) :: s.pixel p
  else rawHeader (packetExtent s p) :: pixelsFrom s p (packetExtent s p)

/-- Once round the loop of R170. At its top: completion when every pixel is packed. Else the next packet is made; if it
does not fit, OutputOverflow and none of it written (R174); else it is written and `outpos` and `s` move on. -/
def encodeIter (s : State) : State :=
  if s.total ≤ s.work.s then complete .success (encodeProgress s) s
  else
    let k := packetExtent s s.work.s
    let pkt := packetBytes s s.work.s
    if s.dstLen.toNat < s.work.outpos + pkt.length then complete .outputOverflow (encodeProgress s) s
    else
      { s with
        mem  := s.mem.writeBytes (s.dstBase.toNat + s.work.outpos) pkt
        work := { s.work with s := s.work.s + k, k := k, outpos := s.work.outpos + pkt.length } }

/-- The loop of R170, until the command has completed; the number bounds its rounds. -/
def encodeLoop : Nat → State → State
  | 0, s     => s
  | n + 1, s =>
    match s.phase with
    | .idle   => s
    | .busy _ => encodeLoop n (encodeIter s)

/-- **ENCODE** (R170): from the command's start to its completion in one step (R111). Every round but the last packs at
least one pixel, so W×H + 1 rounds always complete. -/
def execEncode (s : State) : Host.Outcome State Fault Refusal :=
  .next (encodeLoop (s.total + 1) (enterBody .encode s))

end Sys2Proof.Machine
end

