-- ==== Sys2Proof/Machine/Dispatch.lean ====
section
/-! DEFINITION. The meaning of every instruction, one arm per constructor. -/

namespace Sys2Proof.Machine

def exec (i : Instr) (s : State) : Host.Outcome State Fault Refusal :=
  match i with
  | .raw n => Sys2Proof.Machine.execRaw n s
  | .run n => Sys2Proof.Machine.execRun n s
  | .decode => Sys2Proof.Machine.execDecode s
  | .encode => Sys2Proof.Machine.execEncode s
  | .scale => Sys2Proof.Machine.execScale s

end Sys2Proof.Machine
end

