-- ==== Sys2Proof/Machine/Engine.lean ====
section
/-! DEFINITION. The engine's move (R111): from Idle nothing; from a start the whole command; inside a body one part. -/

namespace Sys2Proof.Machine

/-- A header byte is due and there is one: DECODE's loop goes round (R140). -/
def headerDue (s : State) : Bool :=
  decide (s.work.pix < s.total) && decide (s.work.inpos < s.srcLen.toNat)

/-- One part of a command's body. DECODE fetches the next header, decodes it and executes the packet, as a processor
executes an instruction (30_encoding.md, R75); with no packet to execute it completes. ENCODE packs one packet. SCALE does
one source column or one row's end. A body whose checks do not hold is no state of the block (log entry 13). -/
def bodyStep (op : Op) (s : State) : Host.Outcome State Fault Refusal :=
  if checkError op s = none then
    match op with
    | .decode =>
      if headerDue s then
        let s' := fetchHeader s
        exec (decodeHeader s'.work.header) s'
      else .next (decodeIter s)
    | .encode  => .next (encodeIter s)
    | .scale   => .next (scaleIter s)
    | .illegal => .next (complete .illegalCommand Progress.zero s)
  else .fault .bodyNotValidated

/-- The illegal-command test of R113, and the command CMD holds otherwise. -/
def runCommand (s : State) : Host.Outcome State Fault Refusal :=
  match decodeCommand s.cmd with
  | .ok i    => exec i s
  | .error _ => .next (complete .illegalCommand Progress.zero s)

/-- The engine's move when it has the turn: a started command runs from its start to its completion in this one step,
as R111 allows; a body already begun goes on by one part; Idle waits (R245). -/
def engineStep (s : State) : Host.Outcome State Fault Refusal :=
  match s.phase with
  | .idle    => .next s
  | .busy op =>
    match s.work.stage with
    | .checks => runCommand s
    | .body   => bodyStep op s

/-- The engine's move when it is given only a part: a started command makes its checks and enters its body. -/
def engineStepPart (s : State) : Host.Outcome State Fault Refusal :=
  match s.phase with
  | .idle    => .next s
  | .busy op =>
    match s.work.stage with
    | .checks => .next (enterBody (opOf s.cmd) s)
    | .body   => bodyStep op s

end Sys2Proof.Machine
end

