-- ==== Sys2Proof/Machine/HostPort.lean ====
section
/-! DEFINITION. What the outside does: the register port (R24, R119, R120), the host's memory accesses (R43, R265),
and RST (R260-R263). -/

namespace Sys2Proof.Machine

/-! ### The register port -/

/-- The offset a bus address has in the window, if it lies in it (R24). -/
def windowOffset (cfg : Config) (addr : Nat) : Option Nat :=
  if regBase cfg ≤ addr ∧ addr < regBase cfg + Config.windowSize then some (addr - regBase cfg) else none

/-- Only naturally aligned 32-bit accesses act (R24). -/
def accessOk (off width : Nat) : Bool := decide (width = 32) && decide (off % 4 = 0)

/-- The stored value of a register (R25-R35). -/
def regValue (r : Reg) (s : State) : Word :=
  match r with
  | .cmd       => s.cmd
  | .status    => statusWord s
  | .error     => errorWord s
  | .irqEn     => irqEnWord s
  | .width     => s.width
  | .height    => s.height
  | .bytesPP   => s.bytesPP
  | .newWidth  => s.newWidth
  | .newHeight => s.newHeight
  | .pixBase   => s.pixBase
  | .srcBase   => s.srcBase
  | .srcLen    => s.srcLen
  | .dstBase   => s.dstBase
  | .dstLen    => s.dstLen
  | .inUsed    => s.inUsed
  | .outUsed   => s.outUsed
  | .pixDone   => s.pixDone

/-- The progress registers, whose value is unspecified while BUSY = 1 (R35). -/
def isProgress : Reg → Bool
  | .inUsed    => true
  | .outUsed   => true
  | .pixDone   => true
  | .cmd       => false
  | .status    => false
  | .error     => false
  | .irqEn     => false
  | .width     => false
  | .height    => false
  | .bytesPP   => false
  | .newWidth  => false
  | .newHeight => false
  | .pixBase   => false
  | .srcBase   => false
  | .srcLen    => false
  | .dstBase   => false
  | .dstLen    => false

/-- A read of a named register (R119): its value, or a free one for a progress register while BUSY = 1 (U1). -/
def readReg (r : Reg) (s : State) : State :=
  if isProgress r && s.isBusy then
    { s with reply := .word (Config.freeWord s.draws), draws := s.draws + 1 }
  else { s with reply := .word (regValue r s) }

/-- A host register read (R119, R24). Outside the window it is not addressed to the block (log entry 10). -/
def hostRegRead (addr width : Nat) (s : State) : State :=
  match windowOffset s.config addr with
  | none     => { s with reply := .none }
  | some off =>
    if accessOk off width then
      match regAt off with
      | some r => readReg r s
      | none   => { s with reply := .word 0 }
    else { s with reply := .word 0 }

/-- A write of a parameter register while Idle (R120). -/
def writeParam (r : Reg) (v : Word) (s : State) : State :=
  match r with
  | .width     => { s with width := v }
  | .height    => { s with height := v }
  | .bytesPP   => { s with bytesPP := v }
  | .newWidth  => { s with newWidth := v }
  | .newHeight => { s with newHeight := v }
  | .pixBase   => { s with pixBase := v }
  | .srcBase   => { s with srcBase := v }
  | .srcLen    => { s with srcLen := v }
  | .dstBase   => { s with dstBase := v }
  | .dstLen    => { s with dstLen := v }
  | .cmd       => s
  | .status    => s
  | .error     => s
  | .irqEn     => s
  | .inUsed    => s
  | .outUsed   => s
  | .pixDone   => s

/-- A write of a named register: the table of R120. -/
def writeReg (r : Reg) (v : Word) (s : State) : State :=
  match r with
  | .cmd       => if s.isBusy then setWign s else commandStart v s
  | .status    => writeStatus v s
  | .irqEn     => writeIrqEn v s
  | .error     => s
  | .inUsed    => s
  | .outUsed   => s
  | .pixDone   => s
  | .width     => if s.isBusy then setWign s else writeParam .width v s
  | .height    => if s.isBusy then setWign s else writeParam .height v s
  | .bytesPP   => if s.isBusy then setWign s else writeParam .bytesPP v s
  | .newWidth  => if s.isBusy then setWign s else writeParam .newWidth v s
  | .newHeight => if s.isBusy then setWign s else writeParam .newHeight v s
  | .pixBase   => if s.isBusy then setWign s else writeParam .pixBase v s
  | .srcBase   => if s.isBusy then setWign s else writeParam .srcBase v s
  | .srcLen    => if s.isBusy then setWign s else writeParam .srcLen v s
  | .dstBase   => if s.isBusy then setWign s else writeParam .dstBase v s
  | .dstLen    => if s.isBusy then setWign s else writeParam .dstLen v s

/-- A host register write (R120, R24). A write is answered with nothing. -/
def hostRegWrite (addr width : Nat) (v : Word) (s : State) : State :=
  let s := { s with reply := .none }
  match windowOffset s.config addr with
  | none     => s
  | some off =>
    if accessOk off width then
      match regAt off with
      | some r => writeReg r v s
      | none   => s
    else s

/-! ### The host's own memory accesses -/

/-- R265: while BUSY = 1 the host must not read a byte of the running command's write region. -/
def readRaces (s : State) (a : Nat) : Bool :=
  match s.phase with
  | .idle    => false
  | .busy op => (writeRegion op s).contains a

/-- R265: while BUSY = 1 the host must not write a byte of the running command's read or write region. -/
def writeRaces (s : State) (a : Nat) : Bool :=
  match s.phase with
  | .idle    => false
  | .busy op => (readRegion op s).contains a || (writeRegion op s).contains a

/-- A host read of one byte of memory: the last value written (R60), or the fault U3 asks for. -/
def hostMemRead (a : Word) (s : State) : Host.Outcome State Fault Refusal :=
  if !(memOk s.config a.toNat) then .fault (.noMemory a)
  else if readRaces s a.toNat then .fault (.regionRace a)
  else .next { s with reply := .byte (s.mem.read a.toNat) }

/-- A host write of one byte of memory, or the fault U3 asks for. -/
def hostMemWrite (a : Word) (b : Byte) (s : State) : Host.Outcome State Fault Refusal :=
  if !(memOk s.config a.toNat) then .fault (.noMemory a)
  else if writeRaces s a.toNat then .fault (.regionRace a)
  else .next { s with mem := s.mem.write a.toNat b, reply := .none }

/-! ### RST -/

/-- Every byte of memory among the `n` from `base` on gets a free value of its own (U2). Bytes that do not exist are
passed over. -/
def scramble (cfg : Config) (draws base : Nat) (m : Memory) : Nat → Memory
  | 0     => m
  | j + 1 =>
    let m' := scramble cfg draws base m j
    if memOk cfg (base + j) then m'.write (base + j) (Config.freeByte (draws + j)) else m'

/-- The part of a region below 2^32: how many of its bytes can exist. -/
def Region.inSpace (r : Region) : Nat := min r.len (Config.addrSpace - r.base)

/-- Memory after RST: as it was when Idle (R261); the running command's write region free when Busy (R262). -/
def resetMemory (s : State) : Memory :=
  match s.phase with
  | .idle    => s.mem
  | .busy op =>
    scramble s.config s.draws (writeRegion op s).base s.mem (writeRegion op s).inSpace

/-- How many free values RST draws. -/
def resetDraws (s : State) : Nat :=
  match s.phase with
  | .idle    => 0
  | .busy op => (writeRegion op s).inSpace

/-- RST asserted (R260): every register and the engine as at reset. The platform and the rest of the outside world are
not the block's and stay (log entry 16). -/
def resetBlock (s : State) : State :=
  { State.reset with
    mem    := resetMemory s
    config := s.config
    inputs := s.inputs
    draws  := s.draws + resetDraws s }

end Sys2Proof.Machine
end

