-- ==== Sys2Proof/Machine/Fetch.lean ====
section
/-! DEFINITION. The next event, and putting a program where the machine fetches it (log entry 14). -/

namespace Sys2Proof.Machine

/-- What an event does to a state that no longer holds it. -/
def takeInput (x : Input) (s : State) : Host.Outcome State Fault Refusal :=
  match x with
  | .regRead addr width    => .next (hostRegRead addr width s)
  | .regWrite addr width v => .next (hostRegWrite addr width v s)
  | .memRead a             => hostMemRead a s
  | .memWrite a b          => hostMemWrite a b s
  | .rst                   => .next (resetBlock s)
  | .engine                => engineStep s
  | .enginePart            => engineStepPart s

/-- A DECODE body is running, its checks hold and a header is due: the machine fetches a header next. -/
def atHeader (s : State) : Bool := decodeRunning s && headerDue s

/-- A DECODE body at its first header over a 128-pixel image of one byte each at 0x1000, with a stream of one longest
packet (1 + 128 bytes) at address 0, on a platform without holes. -/
def startDecodeBody (s : State) : State :=
  beginBody .decode
    { commandStart 0x00000001#32 s with
      width   := 128
      height  := 1
      bytesPP := 1
      pixBase := 0x1000
      srcBase := 0
      srcLen  := 129
      config  := { s.config with holes := [] } }

/-- A header byte where DECODE reads its next one, with a payload of zeros as long as the longest packet has, or the
stream. -/
def storeHeader (h : Byte) (s : State) : State :=
  { s with
    mem := s.mem.writeBytes s.headerAddr
      (h :: List.replicate (min (Config.pktMax * s.bpp) (s.srcLen.toNat - s.work.inpos - 1)) 0) }

/-- `withFetchWord` for a packet: at a header already, only the header and its payload are stored. -/
def placePacket (h : Byte) (s : State) : State :=
  let s := { s with inputs := [] }
  storeHeader h (if atHeader s then s else startDecodeBody s)

/-- `withFetchWord` for a command word: the start of that command (R110), with no event pending. -/
def placeCommand (w : Word) (s : State) : State := commandStart w { s with inputs := [] }

end Sys2Proof.Machine
end

