-- ==== Sys2Proof/Machine/Step.lean ====
section
/-! DEFINITION. One step of the whole machine. -/

namespace Sys2Proof.Machine

/-- One step: the next pending event of the outside world, or, with none pending, the engine's move. -/
def step (s : State) : Host.Outcome State Fault Refusal :=
  match s.inputs with
  | []        => engineStep s
  | x :: rest => takeInput x { s with inputs := rest }

/-- `s` with the instruction of the `nbits` bits of `w` where the machine fetches its next instruction: a command word in
CMD, started, or a packet header in the stream of a DECODE whose body is running. The next step runs exactly it. -/
def State.withFetchWord (s : State) (nbits w : Nat) : State :=
  if nbits = 8 then placePacket (BitVec.ofNat 8 w) s else placeCommand (BitVec.ofNat 32 w) s

end Sys2Proof.Machine
end

