-- ==== Sys2Proof/Safety.lean ====
section
/-! DEFINITION. What counts as a safe run, in the terms the statements use: an outside world that obeys R265, and the
invariant of the states the block reaches. -/

namespace Sys2Proof.Machine

/-- The outside world's next event is one the spec allows: a host access to existing memory (R60) that obeys R265. -/
def obeys (x : Input) (s : State) : Bool :=
  match x with
  | .memRead a    => memOk s.config a.toNat && !(readRaces s a.toNat)
  | .memWrite a _ => memOk s.config a.toNat && !(writeRaces s a.toNat)
  | .regRead _ _    => true
  | .regWrite _ _ _ => true
  | .rst            => true
  | .engine         => true
  | .enginePart     => true

/-- The pending event, if there is one, is allowed. -/
def nextObeys (s : State) : Bool :=
  match s.inputs with
  | []     => true
  | x :: _ => obeys x s

/-- The bounds of DECODE's working state at the top of its loop (R147, R41). -/
def decodeBounds (s : State) : Prop :=
  s.work.pix ≤ s.total ∧ s.work.inpos ≤ s.srcLen.toNat ∧ s.work.packet.length ≤ 512

/-- The bounds of ENCODE's working state at the top of its loop (R178). -/
def encodeBounds (s : State) : Prop :=
  s.work.s ≤ s.total ∧ s.work.outpos ≤ s.dstLen.toNat ∧ s.work.k ≤ Config.pktMax

/-- SCALE's working state between two of its parts: the accumulators and cursors are the remainders and quotients of the
error accumulation (R204's derivation), which bounds them as R206 and R207 say. -/
def scaleBounds (s : State) : Prop :=
  s.work.i ≤ s.height.toNat ∧ s.work.c ≤ s.width.toNat ∧ (s.work.i = s.height.toNat → s.work.c = 0) ∧
  s.work.errX = s.work.c * s.newWidth.toNat % s.width.toNat ∧
  s.work.dcol = s.work.c * s.newWidth.toNat / s.width.toNat ∧
  s.work.errY = s.work.i * s.newHeight.toNat % s.height.toNat ∧
  s.work.drow = s.work.i * s.newHeight.toNat / s.height.toNat

/-- The working state fits the running command's rule (R41). -/
def bodyBounds (op : Op) (s : State) : Prop :=
  match op with
  | .decode  => decodeBounds s
  | .encode  => encodeBounds s
  | .scale   => scaleBounds s
  | .illegal => False

/-- What holds of the engine while a command runs: it is CMD's command (R110), DONE = 0 (R26), ERROR and the progress
registers are still what the start left (R110), and a body has passed its checks (R118) and keeps its bounds. -/
def busyInv (op : Op) (s : State) : Prop :=
  op = opOf s.cmd ∧ s.done = false ∧ s.error = .success ∧ s.inUsed = 0 ∧ s.outUsed = 0 ∧ s.pixDone = 0 ∧
  match s.work.stage with
  | .checks => s.work = Work.initial
  | .body   => checkError op s = none ∧ bodyBounds op s

/-- What holds of the engine: Idle keeps no working state (R41). -/
def engineInv (s : State) : Prop :=
  match s.phase with
  | .idle    => s.work = Work.initial
  | .busy op => busyInv op s

/-- Memory keeps its canonical form and holds no byte that does not exist (R60, R66). -/
def memInv (s : State) : Prop :=
  s.mem.wf ∧ ∀ p ∈ s.mem, memOk s.config p.1 = true

/-- The invariant of the machine. -/
def Inv (s : State) : Prop := memInv s ∧ engineInv s

/-- A step that neither faults nor refuses. -/
def StepSafe (s : State) : Prop := ∃ t, step s = .next t

/-- `k` steps, stopping at the first fault or refusal. -/
def steps : Nat → State → Host.Outcome State Fault Refusal
  | 0, s     => .next s
  | k + 1, s =>
    match step s with
    | .next t    => steps k t
    | .fault r   => .fault r
    | .refused r => .refused r

end Sys2Proof.Machine
end

