-- ==== Sys2Proof/Certificates/Slice0/Obligations.lean ====
section
/-! DEFINITION. The statements for the provers. Each docstring names the rules of spec/ it says. The helper definitions
that open the file spell the spec's own words for what a statement needs: what completion leaves, what a packet is on the
wire and as pixels, and what the checks ask. -/

namespace Sys2Proof.Machine

/-! ### Words of the statements -/

/-- The outcome is completion (R233) of the command that ran in `s`, with memory `m`: a next state with ERROR.CODE, the
progress registers and DONE written, the engine Idle, and every other field as it was. R41 lets none of the working state
survive a command, so what the model holds there afterwards is not said (log entry 3). -/
def completes (o : Host.Outcome State Fault Refusal) (e : ErrorCode) (inU outU pixD : Nat) (m : Memory) (s : State) :
    Prop :=
  ∃ w : Work, o = .next { s with
    inUsed  := BitVec.ofNat 32 inU
    outUsed := BitVec.ofNat 32 outU
    pixDone := BitVec.ofNat 32 pixD
    error   := e
    done    := true
    phase   := .idle
    work    := w
    mem     := m }

/-- Every byte outside `[lo, lo + len)` reads in `m'` as in `m`. -/
def sameOutside (m m' : Memory) (lo len : Nat) : Prop :=
  ∀ a, (a < lo ∨ lo + len ≤ a) → m'.read a = m.read a

/-- The engine is in the body of `op`, whose checks have passed. -/
def inBody (op : Op) (s : State) : Prop :=
  s.phase = .busy op ∧ s.work.stage = .body ∧ checkError op s = none

/-- The commands and their operations. -/
def commands : List (Instr × Op) := [(.decode, .decode), (.encode, .encode), (.scale, .scale)]

/-- `v ∈ [1, 65535]`, read unsigned (R29, R31). -/
def inDim (v : Word) : Prop := 1 ≤ v.toNat ∧ v.toNat ≤ 65535

/-- `B ∈ {1, 3, 4}` (R30). -/
def legalFormat (s : State) : Prop := s.bpp = 1 ∨ s.bpp = 3 ∨ s.bpp = 4

/-- A region that ends at or below 2^32 (or is empty) and holds only memory, byte by byte (R116). -/
def backed (cfg : Config) (r : Region) : Prop :=
  (r.len = 0 ∨ r.base + r.len ≤ 4294967296) ∧ ∀ a, r.base ≤ a → a < r.base + r.len → memOk cfg a = true

/-- `a` is a byte of the region `[base, base + len)` (R66). -/
def inRegion (r : Region) (a : Nat) : Prop := r.base ≤ a ∧ a < r.base + r.len

/-- Every parameter check of R114 passes. -/
def paramsPass (op : Op) (s : State) : Prop :=
  legalFormat s ∧ inDim s.width ∧ inDim s.height ∧
  (op = .scale → inDim s.newWidth ∧ inDim s.newHeight ∧
    s.newWidth.toNat * s.newHeight.toNat * s.bpp ≤ s.dstLen.toNat)

/-- `overlap` in R117's formula. -/
def overlapping (r w : Region) : Prop :=
  0 < r.len ∧ 0 < w.len ∧ r.base < w.base + w.len ∧ w.base < r.base + r.len

/-- Two regions with a byte in common (R117). -/
def shareByte (r w : Region) : Prop :=
  ∃ a, (r.base ≤ a ∧ a < r.base + r.len) ∧ (w.base ≤ a ∧ a < w.base + w.len)

/-- The registers a host programs (R37's list without CMD). -/
def isParam : Reg → Bool
  | .width | .height | .bytesPP | .newWidth | .newHeight | .pixBase | .srcBase | .srcLen | .dstBase | .dstLen => true
  | .cmd | .status | .error | .irqEn | .inUsed | .outUsed | .pixDone => false

/-- The read-only registers (R120). -/
def isReadOnly : Reg → Bool
  | .error | .inUsed | .outUsed | .pixDone => true
  | .cmd | .status | .irqEn | .width | .height | .bytesPP | .newWidth | .newHeight | .pixBase | .srcBase | .srcLen
  | .dstBase | .dstLen => false

/-- The event of an aligned 32-bit host write of register `r`. -/
def writeOf (s : State) (r : Reg) (v : Word) : Input := .regWrite (regBase s.config + regOffset r) 32 v

/-- The event of an aligned 32-bit host read of register `r`. -/
def readOf (s : State) (r : Reg) : Input := .regRead (regBase s.config + regOffset r) 32

/-- A packet with its payload: well formed, with the payload R93 gives it. -/
def packetOk (b : Nat) (p : Instr × List Byte) : Prop :=
  match p.1 with
  | .raw n => 1 ≤ n ∧ n ≤ 128 ∧ p.2.length = n * b
  | .run n => 1 ≤ n ∧ n ≤ 128 ∧ p.2.length = b
  | .decode | .encode | .scale => False

/-- How many pixels a packet stands for (R92). -/
def packetCount (p : Instr × List Byte) : Nat :=
  match p.1 with
  | .raw n => n
  | .run n => n
  | .decode | .encode | .scale => 0

/-- The packet in the stream: header `T×128 + C` (R91), then the payload (R90). -/
def packetWire (p : Instr × List Byte) : List Byte :=
  match p.1 with
  | .raw n => BitVec.ofNat 8 (n - 1) :: p.2
  | .run n => BitVec.ofNat 8 (128 + (n - 1)) :: p.2
  | .decode | .encode | .scale => p.2

/-- The pixel bytes the packet stands for (R90): the payload, or its one pixel count times. -/
def packetPixels (p : Instr × List Byte) : List Byte :=
  match p.1 with
  | .raw _ => p.2
  | .run n => (List.replicate n p.2).flatten
  | .decode | .encode | .scale => []

/-- The pixels a list of packets stands for. -/
def countOf (ps : List (Instr × List Byte)) : Nat := (ps.map packetCount).sum

/-- The stream a list of packets is. -/
def wireOf (ps : List (Instr × List Byte)) : List Byte := ps.flatMap packetWire

/-- The pixel bytes a list of packets stands for. -/
def pixelsOf (ps : List (Instr × List Byte)) : List Byte := ps.flatMap packetPixels

/-- How DECODE ends, if it ends, when it has read `len` bytes and written `cnt` pixels (R140, R141, R142, R146): with
success when the image is full; at the end of the stream; on a header whose count overflows the image; on a payload that
does not fit. Otherwise the next packet is whole and there is no end here. -/
def decodeEnd (s : State) (len cnt : Nat) : Option ErrorCode :=
  let h := s.mem.read (s.srcBase.toNat + len)
  let count := h.toNat % 128 + 1
  let plen := if h.toNat < 128 then count * s.bpp else s.bpp
  if cnt = s.total then some .success
  else if s.srcLen.toNat ≤ len then some .unexpectedEndOfStream
  else if s.total < cnt + count then some .pixelCountOverflow
  else if s.srcLen.toNat < len + 1 + plen then some .unexpectedEndOfStream
  else none

/-- The byte address of source pixel (x, y) (R62). -/
def srcPixelAddr (s : State) (x y : Nat) : Nat := s.pixBase.toNat + (y * s.width.toNat + x) * s.bpp

/-- The byte address of destination pixel (x, y) (43_scale.md). -/
def dstPixelAddr (s : State) (x y : Nat) : Nat := s.dstBase.toNat + (y * s.newWidth.toNat + x) * s.bpp

/-- `ceil(a / b)` for `b > 0` (R8). -/
def ceilDiv (a b : Nat) : Nat := (a + b - 1) / b

end Sys2Proof.Machine

open Sys2Proof Sys2Proof.Machine

/-! ### Encoding -/

/-- Sanity: words written out from 30_encoding.md (R91, R92, R97; 95_test_vectors.md L1-5) decode to their instructions,
and the illegal words of R98 to none. -/
def Obligations.WrittenWordsDecode : Prop :=
  decodeTableWord 8 0b00000000 = some (.raw 1) ∧ decodeTableWord 8 0b01111111 = some (.raw 128) ∧
  decodeTableWord 8 0b10000000 = some (.run 1) ∧ decodeTableWord 8 0b11111110 = some (.run 127) ∧
  decodeTableWord 32 0x00000001 = some .decode ∧ decodeTableWord 32 0x00000002 = some .encode ∧
  decodeTableWord 32 0x00000003 = some .scale ∧ decodeTableWord 32 0x00000000 = none ∧
  decodeTableWord 32 0x00000004 = none ∧ decodeTableWord 32 0x00000101 = none

/-- R92 in SR's two formulas, and R94: every header is a legal packet, RAW of h + 1 below 128, RUN of h − 127 above. -/
def Obligations.EveryHeaderIsAPacket : Prop :=
  ∀ h : Byte,
    (h.toNat < 128 → decode (.header h) = .ok (.raw (h.toNat + 1))) ∧
    (128 ≤ h.toNat → decode (.header h) = .ok (.run (h.toNat - 127))) ∧
    headerCount h = h.toNat % 128 + 1

/-- Headline (encoding): every well-formed instruction decodes back from its own unit, whatever its operand
(R91, R92, R97). -/
def Obligations.DecodeInvertsEncode : Prop :=
  ∀ i : Instr, i.wf = true → decode (encode i) = .ok i

/-- The other direction: a unit the decoder accepts is the unit of the instruction it gives, which is well formed; so no
bit of a unit is dropped, and a refused command word is any but 1, 2, 3 (R98). -/
def Obligations.EncodeInvertsDecode : Prop :=
  (∀ (u : CodeWord) (i : Instr), decode u = .ok i → i.wf = true ∧ encode i = u) ∧
  (∀ w : Word, (∃ r, decode (.command w) = .error r) ↔ (w ≠ 1 ∧ w ≠ 2 ∧ w ≠ 3))

/-! ### One step -/

/-- A started command is run: with no event pending, the engine at a command's start steps as the instruction CMD
decodes to. -/
def Obligations.StepRunsTheCommand : Prop :=
  ∀ (s : State) (op : Op) (i : Instr),
    s.inputs = [] → s.phase = .busy op → s.work.stage = .checks → decode (.command s.cmd) = .ok i →
    step s = exec i s

/-- A packet is run: with no event pending, a DECODE body with a header due steps as the packet its next header byte
decodes to, with that byte put in the working state (R140, R75). -/
def Obligations.StepRunsThePacket : Prop :=
  ∀ s : State,
    s.inputs = [] → inBody .decode s → s.work.pix < s.total → s.work.inpos < s.srcLen.toNat →
    step s = exec (decodeHeader (s.mem.read (s.srcBase.toNat + s.work.inpos)))
      { s with work := { s.work with header := s.mem.read (s.srcBase.toNat + s.work.inpos) } }

/-- R113: a command word other than 1, 2, 3 ends its command at once with IllegalCommand; nothing is read or written and
the progress registers are 0. -/
def Obligations.IllegalCommandEndsAtOnce : Prop :=
  ∀ (s : State) (op : Op),
    s.inputs = [] → s.phase = .busy op → s.work.stage = .checks → s.cmd ≠ 1 ∧ s.cmd ≠ 2 ∧ s.cmd ≠ 3 →
    completes (step s) .illegalCommand 0 0 0 s.mem s

/-! ### Reset -/

/-- R44: after reset every register reads 0, the engine is Idle, IRQ is low, and every command but an illegal one ends
with InvalidFormat. -/
def Obligations.ResetLeavesZero : Prop :=
  (∀ r : Reg, regValue r State.reset = 0) ∧ State.reset.phase = .idle ∧ State.reset.irq = false ∧
  ∀ c ∈ commands, completes (exec c.1 State.reset) .invalidFormat 0 0 0 State.reset.mem State.reset

/-- R260, R261: RST from any state zeroes every register, makes the engine Idle, lowers IRQ, and keeps nothing of the
working state (whatever it was, the same state results); if the engine was Idle, memory is as before. -/
def Obligations.RstResetsTheBlock : Prop :=
  ∀ (s : State) (rest : List Input),
    ∃ t, step { s with inputs := .rst :: rest } = .next t ∧
      (∀ r : Reg, regValue r t = 0) ∧ t.phase = .idle ∧ t.irq = false ∧
      (∀ w : Work, step { s with inputs := .rst :: rest, work := w } = .next t) ∧
      (s.phase = .idle → t.mem = s.mem)

/-- R262: RST while BUSY = 1 records no completion; each byte of the write region that is memory gets a free value of its
own, and every other byte is unchanged. Which draw a byte gets is the model's (log entry 7). -/
def Obligations.RstDuringACommandFreesItsWriteRegion : Prop :=
  ∀ (s : State) (op : Op) (rest : List Input), s.phase = .busy op → Memory.wf s.mem →
    ∃ t, step { s with inputs := .rst :: rest } = .next t ∧ t.done = false ∧ t.error = .success ∧
      ∀ a, t.mem.read a =
        if (writeRegion op s).base ≤ a ∧ a < (writeRegion op s).base + (writeRegion op s).len ∧ memOk s.config a = true
        then Config.freeByte (s.draws + (a - (writeRegion op s).base)) else s.mem.read a

/-! ### The register port -/

/-- R24's map: the offset of every register, and no register at the other offsets of the window. -/
def Obligations.RegisterMap : Prop :=
  [regOffset .cmd, regOffset .status, regOffset .error, regOffset .irqEn, regOffset .width, regOffset .height,
   regOffset .bytesPP, regOffset .newWidth, regOffset .newHeight, regOffset .pixBase, regOffset .srcBase,
   regOffset .srcLen, regOffset .dstBase, regOffset .dstLen, regOffset .inUsed, regOffset .outUsed, regOffset .pixDone]
    = [0x00, 0x04, 0x08, 0x0C, 0x10, 0x14, 0x18, 0x1C, 0x20, 0x24, 0x28, 0x2C, 0x30, 0x34, 0x38, 0x3C, 0x40] ∧
  ∀ (off : Nat) (r : Reg), regAt off = some r ↔ off = regOffset r

/-- R119: a host read answers the register's value, a free value for a progress register while BUSY = 1 (log entry 6), 0
at an unused offset; it has no side effect and raises no error. The value of each of the fourteen plain registers, whose
32 bits are one value (R25, R29 to R35), is the field the commands read and write; `StatusWordsBitByBit` says the other
three. -/
def Obligations.HostReadAnswersTheRegister : Prop :=
  ∀ (s : State) (rest : List Input),
    [Reg.cmd, .width, .height, .bytesPP, .newWidth, .newHeight, .pixBase, .srcBase, .srcLen, .dstBase, .dstLen, .inUsed,
     .outUsed, .pixDone].map (fun r => regValue r s)
      = [s.cmd, s.width, s.height, s.bytesPP, s.newWidth, s.newHeight, s.pixBase, s.srcBase, s.srcLen, s.dstBase, s.dstLen,
         s.inUsed, s.outUsed, s.pixDone] ∧
    (∀ r : Reg, isProgress r = false ∨ s.phase = .idle →
      step { s with inputs := readOf s r :: rest } = .next { s with inputs := rest, reply := .word (regValue r s) }) ∧
    (∀ (r : Reg) (op : Op), isProgress r = true → s.phase = .busy op →
      step { s with inputs := readOf s r :: rest } =
        .next { s with inputs := rest, reply := .word (Config.freeWord s.draws), draws := s.draws + 1 }) ∧
    (∀ off : Nat, off < 0x80 → off % 4 = 0 → (∀ r, off ≠ regOffset r) →
      step { s with inputs := .regRead (regBase s.config + off) 32 :: rest } =
        .next { s with inputs := rest, reply := .word 0 })

/-- R24: an access of the window that is not 32 bits wide, or not at a multiple of 4, changes no register, and as a read
it answers 0. -/
def Obligations.OddAccessesDoNothing : Prop :=
  ∀ (s : State) (rest : List Input) (off width : Nat) (v : Word),
    off < 0x80 → width ≠ 32 ∨ off % 4 ≠ 0 →
    step { s with inputs := .regWrite (regBase s.config + off) width v :: rest } =
      .next { s with inputs := rest, reply := .none } ∧
    step { s with inputs := .regRead (regBase s.config + off) width :: rest } =
      .next { s with inputs := rest, reply := .word 0 }

/-- What STATUS, ERROR and IRQ_EN read as, bit by bit (the read side of R26, R27, R28); ERR is ERROR.CODE ≠ 0, BUSY is
phase = Busy (R40). The numbers of the codes are R230's, and no reserved code is ever held. -/
def Obligations.StatusWordsBitByBit : Prop :=
  ∀ s : State,
    (regValue .status s).getLsbD 0 = decide (s.phase ≠ .idle) ∧
    (regValue .status s).getLsbD 1 = s.done ∧
    (regValue .status s).getLsbD 2 = decide (s.error ≠ .success) ∧
    (regValue .status s).getLsbD 3 = s.wign ∧
    (∀ j, 4 ≤ j → (regValue .status s).getLsbD j = false) ∧
    (regValue .error s).toNat = (errorNumber s.error).toNat ∧ (errorNumber s.error).toNat ≤ 8 ∧
    [ErrorCode.success, .invalidDimensions, .invalidFormat, .unexpectedEndOfStream, .pixelCountOverflow, .ioFailure,
     .outputOverflow, .regionOverlap, .illegalCommand].map (fun e => (errorNumber e).toNat) = [0, 1, 2, 3, 4, 5, 6, 7, 8] ∧
    (regValue .irqEn s).toNat = s.ie.toNat

/-- R120's row for the parameter registers, Idle: the register takes the value and reads it back (R29 to R34); every other
register, the engine, memory and the platform are unchanged. -/
def Obligations.ParameterWriteWhileIdle : Prop :=
  ∀ (s : State) (rest : List Input) (r : Reg) (v : Word), isParam r = true → s.phase = .idle →
    ∃ t, step { s with inputs := writeOf s r v :: rest } = .next t ∧
      regValue r t = v ∧ (∀ r' : Reg, r' ≠ r → regValue r' t = regValue r' s) ∧
      t.phase = .idle ∧ t.work = s.work ∧ t.mem = s.mem ∧ t.config = s.config ∧ t.draws = s.draws ∧
      t.inputs = rest ∧ t.reply = .none

/-- R37: while BUSY = 1 a write of CMD or of a parameter register only sets WIGN; writes of STATUS and IRQ_EN are
performed; a write of a read-only register or of an unused offset does nothing. -/
def Obligations.WritesWhileBusy : Prop :=
  ∀ (s : State) (op : Op) (rest : List Input) (v : Word), s.phase = .busy op →
    (∀ r : Reg, r = .cmd ∨ isParam r = true →
      step { s with inputs := writeOf s r v :: rest } = .next { s with inputs := rest, reply := .none, wign := true }) ∧
    step { s with inputs := writeOf s .status v :: rest } =
      .next { s with inputs := rest, reply := .none, done := s.done && !(v.getLsbD 1), wign := s.wign && !(v.getLsbD 3) } ∧
    step { s with inputs := writeOf s .irqEn v :: rest } =
      .next { s with inputs := rest, reply := .none, ie := v.getLsbD 0 } ∧
    (∀ r : Reg, isReadOnly r = true →
      step { s with inputs := writeOf s r v :: rest } = .next { s with inputs := rest, reply := .none }) ∧
    (∀ off : Nat, off < 0x80 → off % 4 = 0 → (∀ r, off ≠ regOffset r) →
      step { s with inputs := .regWrite (regBase s.config + off) 32 v :: rest } =
        .next { s with inputs := rest, reply := .none })

/-- R120's rows for STATUS, IRQ_EN, the read-only registers and the unused offsets, Idle: DONE and WIGN are cleared by
ones, IE takes bit 0, the rest is ignored. -/
def Obligations.FlagWritesWhileIdle : Prop :=
  ∀ (s : State) (rest : List Input) (v : Word), s.phase = .idle →
    step { s with inputs := writeOf s .status v :: rest } =
      .next { s with inputs := rest, reply := .none, done := s.done && !(v.getLsbD 1), wign := s.wign && !(v.getLsbD 3) } ∧
    step { s with inputs := writeOf s .irqEn v :: rest } =
      .next { s with inputs := rest, reply := .none, ie := v.getLsbD 0 } ∧
    (∀ r : Reg, isReadOnly r = true →
      step { s with inputs := writeOf s r v :: rest } = .next { s with inputs := rest, reply := .none }) ∧
    (∀ off : Nat, off < 0x80 → off % 4 = 0 → (∀ r, off ≠ regOffset r) →
      step { s with inputs := .regWrite (regBase s.config + off) 32 v :: rest } =
        .next { s with inputs := rest, reply := .none })

/-- R110: a write of CMD while Idle starts the command in one step: the word is stored, DONE, ERROR and the progress
registers are cleared, BUSY is set for the operation of the word, WIGN and IRQ_EN keep their values, IRQ is low; while
BUSY = 1 it is ignored and sets WIGN. Nothing but the working state is left open. -/
def Obligations.CommandWriteStartsTheCommand : Prop :=
  ∀ (s : State) (rest : List Input) (v : Word),
    (s.phase = .idle → ∃ op : Op,
      (op = .decode ↔ v = 1) ∧ (op = .encode ↔ v = 2) ∧ (op = .scale ↔ v = 3) ∧
      (op = .illegal ↔ v ≠ 1 ∧ v ≠ 2 ∧ v ≠ 3) ∧
      ∃ t, t.irq = false ∧ step { s with inputs := writeOf s .cmd v :: rest } = .next t ∧
        t = { s with cmd := v, done := false, error := .success, inUsed := 0, outUsed := 0, pixDone := 0,
                     phase := .busy op, work := t.work, inputs := rest, reply := .none }) ∧
    (∀ op : Op, s.phase = .busy op →
      step { s with inputs := writeOf s .cmd v :: rest } = .next { s with inputs := rest, reply := .none, wign := true })

/-- R235: IRQ is the level DONE ∧ IE; clearing DONE by a write of STATUS bit 1, or starting a command, lowers it; clearing
IE lowers it while DONE stays. -/
def Obligations.InterruptIsALevel : Prop :=
  ∀ (s : State) (rest : List Input) (v : Word),
    (s.irq = true ↔ s.done = true ∧ s.ie = true) ∧
    (v.getLsbD 1 = true → ∃ t, step { s with inputs := writeOf s .status v :: rest } = .next t ∧ t.irq = false) ∧
    (v.getLsbD 0 = false →
      ∃ t, step { s with inputs := writeOf s .irqEn v :: rest } = .next t ∧ t.irq = false ∧ t.done = s.done) ∧
    (s.phase = .idle → ∃ t, step { s with inputs := writeOf s .cmd v :: rest } = .next t ∧ t.irq = false)

/-- Model's choice (log entry 10): an access outside the window is not addressed to the block and leaves everything but
the events as it was. -/
def Obligations.AccessesOutsideTheWindow : Prop :=
  ∀ (s : State) (rest : List Input) (addr width : Nat) (v : Word),
    addr < regBase s.config ∨ regBase s.config + 0x80 ≤ addr →
    step { s with inputs := .regWrite addr width v :: rest } = .next { s with inputs := rest, reply := .none } ∧
    step { s with inputs := .regRead addr width :: rest } = .next { s with inputs := rest, reply := .none }

/-! ### The host's memory accesses -/

/-- R60: where `mem_ok` holds a read answers the last value written and has no side effect, and a write changes only its
byte: whenever the engine is Idle, and while BUSY = 1 at every byte R265 leaves to the host (R72 point 4): for a read,
outside the command's write region; for a write, outside both its regions (R66). The first clause says which bytes a
region holds. -/
def Obligations.HostMemoryIsPlain : Prop :=
  (∀ (r : Region) (a : Nat), r.contains a = true ↔ inRegion r a) ∧
  ∀ (s : State) (rest : List Input) (a : Word) (b : Byte), Memory.wf s.mem → memOk s.config a.toNat = true →
    (s.phase = .idle ∨ (∃ op, s.phase = .busy op ∧ ¬ inRegion (writeRegion op s) a.toNat) →
      step { s with inputs := .memRead a :: rest } =
        .next { s with inputs := rest, reply := .byte (s.mem.read a.toNat) }) ∧
    (s.phase = .idle ∨ (∃ op, s.phase = .busy op ∧ ¬ inRegion (readRegion op s) a.toNat ∧
        ¬ inRegion (writeRegion op s) a.toNat) →
      ∃ m : Memory, Memory.wf m ∧ m.read a.toNat = b ∧ (∀ x, x ≠ a.toNat → m.read x = s.mem.read x) ∧
        step { s with inputs := .memWrite a b :: rest } = .next { s with mem := m, inputs := rest, reply := .none })

/-- R265: while BUSY = 1 a host write to a byte of the running command's read or write region is a fault, and so is a host
read of a byte of its write region; reading the read region (where there is memory) is allowed. -/
def Obligations.RunningRegionsAreTheEngines : Prop :=
  ∀ (s : State) (op : Op) (rest : List Input) (a : Word) (b : Byte),
    s.phase = .busy op →
    ((readRegion op s).contains a.toNat = true ∨ (writeRegion op s).contains a.toNat = true →
      ∃ f, step { s with inputs := .memWrite a b :: rest } = .fault f) ∧
    ((writeRegion op s).contains a.toNat = true →
      ∃ f, step { s with inputs := .memRead a :: rest } = .fault f) ∧
    ((readRegion op s).contains a.toNat = true → (writeRegion op s).contains a.toNat = false →
      memOk s.config a.toNat = true →
      step { s with inputs := .memRead a :: rest } =
        .next { s with inputs := rest, reply := .byte (s.mem.read a.toNat) })

/-- Model's choice (log entry 9): a host access to a byte that `mem_ok` does not back is a fault. -/
def Obligations.HolesAreNoMemory : Prop :=
  ∀ (s : State) (rest : List Input) (a : Word) (b : Byte), memOk s.config a.toNat = false →
    step { s with inputs := .memWrite a b :: rest } = .fault (.noMemory a) ∧
    step { s with inputs := .memRead a :: rest } = .fault (.noMemory a)

/-! ### The checks -/

/-- R66's table, in numbers. -/
def Obligations.RegionsOfTheCommands : Prop :=
  ∀ s : State,
    readRegion .decode s = ⟨s.srcBase.toNat, s.srcLen.toNat⟩ ∧
    writeRegion .decode s = ⟨s.pixBase.toNat, s.width.toNat * s.height.toNat * s.bytesPP.toNat⟩ ∧
    readRegion .encode s = ⟨s.pixBase.toNat, s.width.toNat * s.height.toNat * s.bytesPP.toNat⟩ ∧
    writeRegion .encode s = ⟨s.dstBase.toNat, s.dstLen.toNat⟩ ∧
    readRegion .scale s = ⟨s.pixBase.toNat, s.width.toNat * s.height.toNat * s.bytesPP.toNat⟩ ∧
    writeRegion .scale s = ⟨s.dstBase.toNat, s.newWidth.toNat * s.newHeight.toNat * s.bytesPP.toNat⟩ ∧
    ∀ a, (readRegion .illegal s).contains a = false ∧ (writeRegion .illegal s).contains a = false

/-- R114: the parameter checks in their order; the first that fails ends the command with its error, with nothing read,
nothing written and the progress registers 0. -/
def Obligations.ParameterChecksInOrder : Prop :=
  ∀ (s : State), ∀ c ∈ commands,
    (¬ legalFormat s → completes (exec c.1 s) .invalidFormat 0 0 0 s.mem s) ∧
    (legalFormat s → ¬ (inDim s.width ∧ inDim s.height) →
      completes (exec c.1 s) .invalidDimensions 0 0 0 s.mem s) ∧
    (legalFormat s → inDim s.width → inDim s.height → c.2 = .scale → ¬ (inDim s.newWidth ∧ inDim s.newHeight) →
      completes (exec c.1 s) .invalidDimensions 0 0 0 s.mem s) ∧
    (legalFormat s → inDim s.width → inDim s.height → c.2 = .scale → inDim s.newWidth → inDim s.newHeight →
      s.dstLen.toNat < s.newWidth.toNat * s.newHeight.toNat * s.bpp →
      completes (exec c.1 s) .outputOverflow 0 0 0 s.mem s)

/-- `region_ok` of R116 holds exactly when the region is backed byte by byte, and `overlap` of R117 exactly when two
regions share a byte. -/
def Obligations.RegionTestsAreBytewise : Prop :=
  (∀ (cfg : Config) (r : Region), regionOk cfg r = true ↔ backed cfg r) ∧
  (∀ r w : Region, regionsOverlap r w = true ↔ shareByte r w)

/-- R116, R117, in the order of R236: once the parameters pass, a read region that is not backed raises IoFailure, then a
write region that is not, then regions that overlap raise RegionOverlap; nothing is read or written. If none of these
holds, no check fails. -/
def Obligations.RegionChecksInOrder : Prop :=
  ∀ (s : State), ∀ c ∈ commands, paramsPass c.2 s →
    (¬ backed s.config (readRegion c.2 s) → completes (exec c.1 s) .ioFailure 0 0 0 s.mem s) ∧
    (backed s.config (readRegion c.2 s) → ¬ backed s.config (writeRegion c.2 s) →
      completes (exec c.1 s) .ioFailure 0 0 0 s.mem s) ∧
    (backed s.config (readRegion c.2 s) → backed s.config (writeRegion c.2 s) →
      overlapping (readRegion c.2 s) (writeRegion c.2 s) → completes (exec c.1 s) .regionOverlap 0 0 0 s.mem s) ∧
    (backed s.config (readRegion c.2 s) → backed s.config (writeRegion c.2 s) →
      ¬ overlapping (readRegion c.2 s) (writeRegion c.2 s) → checkError c.2 s = none)

/-- What passing every check means, in the spec's terms (R113 to R117): the hypothesis `checkError op s = none` of the
statements below, spelled. -/
def Obligations.ChecksPassExactlyWhen : Prop :=
  ∀ (s : State), ∀ c ∈ commands,
    (checkError c.2 s = none ↔
      paramsPass c.2 s ∧
      backed s.config (readRegion c.2 s) ∧ backed s.config (writeRegion c.2 s) ∧
      ¬ shareByte (readRegion c.2 s) (writeRegion c.2 s))

/-! ### The packets -/

/-- R143: a RAW packet that fits copies its payload's pixels, byte for byte, to pixels pix .. pix + count − 1, and moves
inpos past the packet and pix past its pixels. Every other byte of memory and every register are unchanged. -/
def Obligations.RawPacketCopiesItsPixels : Prop :=
  ∀ (n : Nat) (s : State), (Instr.raw n).wf = true → inBody .decode s → Memory.wf s.mem →
    s.work.pix + n ≤ s.total → s.work.inpos + 1 + n * s.bpp ≤ s.srcLen.toNat →
    ∃ m : Memory,
      exec (.raw n) s = .next { s with
        mem  := m
        work := { s.work with
          packet := s.mem.readBytes (s.srcBase.toNat + s.work.inpos + 1) (n * s.bpp)
          inpos  := s.work.inpos + 1 + n * s.bpp
          pix    := s.work.pix + n } } ∧
      (∀ j < n, ∀ k < s.bpp,
        m.read (s.pixBase.toNat + (s.work.pix + j) * s.bpp + k) =
          s.mem.read (s.srcBase.toNat + s.work.inpos + 1 + j * s.bpp + k)) ∧
      sameOutside s.mem m (s.pixBase.toNat + s.work.pix * s.bpp) (n * s.bpp)

/-- R144: a RUN packet that fits writes its one pixel to pixels pix .. pix + count − 1, and moves inpos past the packet and
pix past its pixels. Every other byte of memory and every register are unchanged. -/
def Obligations.RunPacketRepeatsItsPixel : Prop :=
  ∀ (n : Nat) (s : State), (Instr.run n).wf = true → inBody .decode s → Memory.wf s.mem →
    s.work.pix + n ≤ s.total → s.work.inpos + 1 + s.bpp ≤ s.srcLen.toNat →
    ∃ m : Memory,
      exec (.run n) s = .next { s with
        mem  := m
        work := { s.work with
          packet := s.mem.readBytes (s.srcBase.toNat + s.work.inpos + 1) s.bpp
          inpos  := s.work.inpos + 1 + s.bpp
          pix    := s.work.pix + n } } ∧
      (∀ j < n, ∀ k < s.bpp,
        m.read (s.pixBase.toNat + (s.work.pix + j) * s.bpp + k) =
          s.mem.read (s.srcBase.toNat + s.work.inpos + 1 + k)) ∧
      sameOutside s.mem m (s.pixBase.toNat + s.work.pix * s.bpp) (n * s.bpp)

/-- R142: a packet whose count would pass W×H ends DECODE with PixelCountOverflow, whether its payload is there or not:
no pixel of it is written, IN_USED is its header's offset and PIX_DONE the pixels before it. -/
def Obligations.OverflowingPacketEndsDecode : Prop :=
  ∀ (n : Nat) (s : State), inBody .decode s → s.total < s.work.pix + n →
    completes (exec (.raw n) s) .pixelCountOverflow s.work.inpos 0 s.work.pix s.mem s ∧
    completes (exec (.run n) s) .pixelCountOverflow s.work.inpos 0 s.work.pix s.mem s

/-- R141: (a) with pixels missing and no header byte left, and (b) on a payload that does not fit (after the overflow
test), DECODE ends with UnexpectedEndOfStream; no byte of the packet is written, IN_USED is its header's offset and
PIX_DONE the pixels before it. -/
def Obligations.ExhaustedStreamEndsDecode : Prop :=
  (∀ s : State, s.inputs = [] → inBody .decode s → s.work.pix < s.total → s.srcLen.toNat ≤ s.work.inpos →
    completes (step s) .unexpectedEndOfStream s.work.inpos 0 s.work.pix s.mem s) ∧
  (∀ (n : Nat) (s : State), inBody .decode s → s.work.pix + n ≤ s.total →
    (s.srcLen.toNat < s.work.inpos + 1 + n * s.bpp →
      completes (exec (.raw n) s) .unexpectedEndOfStream s.work.inpos 0 s.work.pix s.mem s) ∧
    (s.srcLen.toNat < s.work.inpos + 1 + s.bpp →
      completes (exec (.run n) s) .unexpectedEndOfStream s.work.inpos 0 s.work.pix s.mem s))

/-- R146: at the top of the loop with `pix = total` DECODE ends with success and reads no further byte. -/
def Obligations.FullImageEndsDecode : Prop :=
  ∀ s : State, s.inputs = [] → inBody .decode s → s.work.pix = s.total →
    completes (step s) .success s.work.inpos 0 s.total s.mem s

/-- Model's choice (log entry 12): a packet outside the body of a running DECODE is a fault. -/
def Obligations.PacketsNeedARunningDecode : Prop :=
  ∀ (n : Nat) (s : State), ¬ inBody .decode s →
    exec (.raw n) s = .fault .noDecodeRunning ∧ exec (.run n) s = .fault .noDecodeRunning

/-! ### DECODE -/

/-- Headline: the result of DECODE (R140 to R148). Where the stream begins with the well-formed packets `ps`, whole within
SRC_LEN and within the image, and DECODE ends there (`decodeEnd`), it completes with that ending: IN_USED is the length of
the packets, PIX_DONE their pixels, memory holds exactly their pixels, and every other byte (the rest of the image among
them) and every other register are unchanged. -/
def Obligations.DecodeExpandsItsPackets : Prop :=
  ∀ (s : State) (ps : List (Instr × List Byte)) (e : ErrorCode),
    checkError .decode s = none → Memory.wf s.mem → (∀ p ∈ ps, packetOk s.bpp p) →
    s.mem.readBytes s.srcBase.toNat (wireOf ps).length = wireOf ps →
    (wireOf ps).length ≤ s.srcLen.toNat → countOf ps ≤ s.total →
    decodeEnd s (wireOf ps).length (countOf ps) = some e →
    ∃ m : Memory,
      completes (exec .decode s) e (wireOf ps).length 0 (countOf ps) m s ∧
      m.readBytes s.pixBase.toNat (countOf ps * s.bpp) = pixelsOf ps ∧
      sameOutside s.mem m s.pixBase.toNat (countOf ps * s.bpp)

/-- Every stream begins with such packets: from any state whose checks pass, the stream is a list of well-formed packets
up to one of DECODE's endings (so `DecodeExpandsItsPackets` says what DECODE does on every input). -/
def Obligations.EveryStreamHasAnEnding : Prop :=
  ∀ s : State, checkError .decode s = none →
    ∃ (ps : List (Instr × List Byte)) (e : ErrorCode),
      (∀ p ∈ ps, packetOk s.bpp p) ∧
      s.mem.readBytes s.srcBase.toNat (wireOf ps).length = wireOf ps ∧
      (wireOf ps).length ≤ s.srcLen.toNat ∧ countOf ps ≤ s.total ∧
      decodeEnd s (wireOf ps).length (countOf ps) = some e

/-! ### ENCODE -/

/-- R172: with an equal second pixel, ENCODE's next packet is a RUN of the largest k ≤ 128 with P(s) = ... = P(s+k−1) and
s + k ≤ n; header 0x80 + (k − 1) and the single pixel P(s). If it fits it is written, else OutputOverflow (R174). -/
def Obligations.RunExtentIsTheLargest : Prop :=
  ∀ s : State, s.inputs = [] → inBody .encode s → Memory.wf s.mem →
    s.work.s + 1 < s.total → s.pixel (s.work.s + 1) = s.pixel s.work.s →
    ∃ k : Nat, 2 ≤ k ∧ k ≤ 128 ∧ s.work.s + k ≤ s.total ∧
      (∀ j < k, s.pixel (s.work.s + j) = s.pixel s.work.s) ∧
      (k = 128 ∨ s.work.s + k = s.total ∨ s.pixel (s.work.s + k) ≠ s.pixel s.work.s) ∧
      (s.work.outpos + (1 + s.bpp) ≤ s.dstLen.toNat →
        ∃ m : Memory,
          step s = .next { s with mem := m, work := { s.work with
            s := s.work.s + k, k := k, outpos := s.work.outpos + (1 + s.bpp) } } ∧
          m.readBytes (s.dstBase.toNat + s.work.outpos) (1 + s.bpp) =
            BitVec.ofNat 8 (128 + (k - 1)) :: s.pixel s.work.s ∧
          sameOutside s.mem m (s.dstBase.toNat + s.work.outpos) (1 + s.bpp)) ∧
      (s.dstLen.toNat < s.work.outpos + (1 + s.bpp) →
        completes (step s) .outputOverflow 0 s.work.outpos s.work.s s.mem s)

/-- R171, R173: otherwise the next packet is a RAW of pixels s .. s+k−1, where each further pixel j = s+k is taken while
there is one, k < 128, and j does not start a run; header k − 1 and the k pixels. If it fits it is written, else
OutputOverflow (R174). -/
def Obligations.RawExtentStopsBeforeARun : Prop :=
  ∀ s : State, s.inputs = [] → inBody .encode s → Memory.wf s.mem → s.work.s < s.total →
    ¬ (s.work.s + 1 < s.total ∧ s.pixel (s.work.s + 1) = s.pixel s.work.s) →
    ∃ k : Nat, 1 ≤ k ∧ k ≤ 128 ∧ s.work.s + k ≤ s.total ∧
      (∀ j, s.work.s < j → j < s.work.s + k → ¬ (j + 1 < s.total ∧ s.pixel (j + 1) = s.pixel j)) ∧
      (k = 128 ∨ s.work.s + k = s.total ∨
        (s.work.s + k + 1 < s.total ∧ s.pixel (s.work.s + k + 1) = s.pixel (s.work.s + k))) ∧
      (s.work.outpos + (1 + k * s.bpp) ≤ s.dstLen.toNat →
        ∃ m : Memory,
          step s = .next { s with mem := m, work := { s.work with
            s := s.work.s + k, k := k, outpos := s.work.outpos + (1 + k * s.bpp) } } ∧
          m.readBytes (s.dstBase.toNat + s.work.outpos) (1 + k * s.bpp) =
            BitVec.ofNat 8 (k - 1) :: s.mem.readBytes (s.pixBase.toNat + s.work.s * s.bpp) (k * s.bpp) ∧
          sameOutside s.mem m (s.dstBase.toNat + s.work.outpos) (1 + k * s.bpp)) ∧
      (s.dstLen.toNat < s.work.outpos + (1 + k * s.bpp) →
        completes (step s) .outputOverflow 0 s.work.outpos s.work.s s.mem s)

/-- R174: a next packet that does not fit ends ENCODE with OutputOverflow, none of it written; OUT_USED and PIX_DONE are
the bytes and pixels of the packets before it. The packet's length is the model's own `packetBytes`, which the two
statements above spell. At the image's end ENCODE ends with success. -/
def Obligations.FullOutputEndsEncode : Prop :=
  ∀ s : State, s.inputs = [] → inBody .encode s →
    (s.work.s < s.total → s.dstLen.toNat < s.work.outpos + (packetBytes s s.work.s).length →
      completes (step s) .outputOverflow 0 s.work.outpos s.work.s s.mem s) ∧
    (s.work.s = s.total → completes (step s) .success 0 s.work.outpos s.total s.mem s)

/-- Headline: the result of ENCODE (R170, R174, R176): it completes, with success or OutputOverflow, having written a valid
packet stream of the image's first pixels: every RUN counts at least 2 pixels, the packets' pixels are the image's, k pixels
cost at most k×(1+B) bytes; every other byte and every other register are unchanged. -/
def Obligations.EncodeWritesAPacketStream : Prop :=
  ∀ s : State, checkError .encode s = none → Memory.wf s.mem →
    ∃ (ps : List (Instr × List Byte)) (e : ErrorCode) (m : Memory),
      completes (exec .encode s) e 0 (wireOf ps).length (countOf ps) m s ∧
      (e = .success ∧ countOf ps = s.total ∨ e = .outputOverflow ∧ countOf ps < s.total) ∧
      (∀ p ∈ ps, packetOk s.bpp p) ∧ (∀ n pb, (Instr.run n, pb) ∈ ps → 2 ≤ n) ∧
      (wireOf ps).length ≤ s.dstLen.toNat ∧ (wireOf ps).length ≤ countOf ps * (1 + s.bpp) ∧
      m.readBytes s.dstBase.toNat (wireOf ps).length = wireOf ps ∧
      s.mem.readBytes s.pixBase.toNat (countOf ps * s.bpp) = pixelsOf ps ∧
      sameOutside s.mem m s.dstBase.toNat (wireOf ps).length

/-- R176 (e): a capacity of n×(1+B) bytes rules out OutputOverflow, and no more are used. -/
def Obligations.EnoughCapacityEncodesTheImage : Prop :=
  ∀ s : State, checkError .encode s = none → s.total * (1 + s.bpp) ≤ s.dstLen.toNat →
    ∃ (len : Nat) (m : Memory),
      completes (exec .encode s) .success 0 len s.total m s ∧ len ≤ s.total * (1 + s.bpp)

/-- R175: the output is a function of (n, B, P(0..n−1)) alone: two states that agree on those, and on the capacity, give
the same ending, the same counts and the same output bytes, whatever W and H are apart, wherever the buffers are, and
whatever the destination held. -/
def Obligations.EncodeDependsOnThePixelsOnly : Prop :=
  ∀ s₁ s₂ : State, checkError .encode s₁ = none → checkError .encode s₂ = none →
    Memory.wf s₁.mem → Memory.wf s₂.mem →
    s₁.total = s₂.total → s₁.bytesPP = s₂.bytesPP → s₁.dstLen = s₂.dstLen →
    (∀ k < s₁.total, s₁.pixel k = s₂.pixel k) →
    ∃ (e : ErrorCode) (len cnt : Nat) (m₁ m₂ : Memory),
      completes (exec .encode s₁) e 0 len cnt m₁ s₁ ∧ completes (exec .encode s₂) e 0 len cnt m₂ s₂ ∧
      m₁.readBytes s₁.dstBase.toNat len = m₂.readBytes s₂.dstBase.toNat len

/-- Headline, R177: the round trip. If ENCODE completes with success and OUT_USED = len, then a DECODE of those len bytes,
with the same W, H and B, wherever the stream and the new buffer are, completes with IN_USED = len and its pixels are the
original's, byte for byte. -/
def Obligations.DecodeOfEncodeIsTheImage : Prop :=
  ∀ (s s' : State) (len : Nat) (m : Memory),
    checkError .encode s = none → Memory.wf s.mem →
    completes (exec .encode s) .success 0 len s.total m s →
    s'.width = s.width → s'.height = s.height → s'.bytesPP = s.bytesPP →
    checkError .decode s' = none → Memory.wf s'.mem → s'.srcLen.toNat = len →
    s'.mem.readBytes s'.srcBase.toNat len = m.readBytes s.dstBase.toNat len →
    ∃ m' : Memory,
      completes (exec .decode s') .success len 0 s'.total m' s' ∧
      m'.readBytes s'.pixBase.toNat s'.imageBytes = s.mem.readBytes s.pixBase.toNat s.imageBytes ∧
      sameOutside s'.mem m' s'.pixBase.toNat s'.imageBytes

/-! ### SCALE -/

/-- R205 (with R233): a SCALE whose checks pass completes with success in one step with the register update: the new buffer
becomes the current image, the old one the next destination with its exact size, the progress registers hold the counts.
The source buffer and every byte outside the destination are unchanged. A SCALE that fails changes none of WIDTH, HEIGHT,
PIX_BASE, DST_BASE and DST_LEN. -/
def Obligations.ScaleSwapsTheImage : Prop :=
  (∀ s : State, checkError .scale s ≠ none →
    ∃ t, exec .scale s = .next t ∧ t.error ≠ .success ∧ t.width = s.width ∧ t.height = s.height ∧
      t.pixBase = s.pixBase ∧ t.dstBase = s.dstBase ∧ t.dstLen = s.dstLen ∧ t.mem = s.mem) ∧
  ∀ s : State, checkError .scale s = none → Memory.wf s.mem →
    ∃ m : Memory,
      completes (exec .scale s) .success 0 (s.newWidth.toNat * s.newHeight.toNat * s.bpp)
        (s.newWidth.toNat * s.newHeight.toNat) m
        { s with width := s.newWidth, height := s.newHeight, pixBase := s.dstBase, dstBase := s.pixBase,
                 dstLen := BitVec.ofNat 32 (s.width.toNat * s.height.toNat * s.bpp) } ∧
      s.width.toNat * s.height.toNat * s.bpp < 4294967296 ∧
      sameOutside s.mem m s.dstBase.toNat (s.newWidth.toNat * s.newHeight.toNat * s.bpp) ∧
      m.readBytes s.pixBase.toNat s.imageBytes = s.mem.readBytes s.pixBase.toNat s.imageBytes

/-- Headline, R204: the closed form. After a SCALE whose checks pass, destination pixel (x, y) is, byte for byte, source
pixel (ceil((x+1)×W/NW) − 1, ceil((y+1)×H/NH) − 1). -/
def Obligations.ScaleClosedForm : Prop :=
  ∀ s : State, checkError .scale s = none → Memory.wf s.mem →
    ∃ t : State, exec .scale s = .next t ∧
      ∀ x < s.newWidth.toNat, ∀ y < s.newHeight.toNat, ∀ k < s.bpp,
        t.mem.read (dstPixelAddr s x y + k) =
          s.mem.read (srcPixelAddr s (ceilDiv ((x + 1) * s.width.toNat) s.newWidth.toNat - 1)
            (ceilDiv ((y + 1) * s.height.toNat) s.newHeight.toNat - 1) + k)

/-- R208 (a) and (b): scaling to the same size copies the image, and a uniform image stays uniform. -/
def Obligations.ScaleIdentityAndUniform : Prop :=
  ∀ s : State, checkError .scale s = none → Memory.wf s.mem →
    ∃ t : State, exec .scale s = .next t ∧
      (s.newWidth = s.width → s.newHeight = s.height →
        t.mem.readBytes s.dstBase.toNat s.imageBytes = s.mem.readBytes s.pixBase.toNat s.imageBytes) ∧
      (∀ p : List Byte, (∀ k < s.total, s.pixel k = p) →
        ∀ k < s.newTotal, t.mem.readBytes (s.dstBase.toNat + k * s.bpp) s.bpp = p)

/-- R201: one source column of a horizontal pass adds NW to errX, copies its pixel to the next (errX + NW) / W destination
columns of row drow, and leaves the remainder in errX; every other byte is unchanged. -/
def Obligations.ScaleColumnCopiesItsPixel : Prop :=
  ∀ s : State, s.inputs = [] → inBody .scale s → scaleBounds s → Memory.wf s.mem → s.work.c < s.width.toNat →
    s.work.i < s.height.toNat →
    ∃ m : Memory,
      step s = .next { s with mem := m, work := { s.work with
        c    := s.work.c + 1
        errX := (s.work.errX + s.newWidth.toNat) % s.width.toNat
        dcol := s.work.dcol + (s.work.errX + s.newWidth.toNat) / s.width.toNat } } ∧
      (∀ j < (s.work.errX + s.newWidth.toNat) / s.width.toNat,
        m.readBytes (dstPixelAddr s (s.work.dcol + j) s.work.drow) s.bpp =
          s.mem.readBytes (srcPixelAddr s s.work.c s.work.i) s.bpp) ∧
      sameOutside s.mem m (dstPixelAddr s s.work.dcol s.work.drow)
        ((s.work.errX + s.newWidth.toNat) / s.width.toNat * s.bpp)

/-- R202, R203: after a row's last column the vertical step adds NH to errY and advances drow by (errY + NH) / H rows, all
of which then hold the row just written; errX, dcol and the column start anew; every other byte is unchanged. -/
def Obligations.ScaleRowEndRepeatsTheRow : Prop :=
  ∀ s : State, s.inputs = [] → inBody .scale s → scaleBounds s → Memory.wf s.mem → s.work.c = s.width.toNat →
    s.work.i < s.height.toNat →
    ∃ m : Memory,
      step s = .next { s with mem := m, work := { s.work with
        i    := s.work.i + 1
        c    := 0
        errX := 0
        dcol := 0
        errY := (s.work.errY + s.newHeight.toNat) % s.height.toNat
        drow := s.work.drow + (s.work.errY + s.newHeight.toNat) / s.height.toNat } } ∧
      (∀ j < (s.work.errY + s.newHeight.toNat) / s.height.toNat,
        m.readBytes (dstPixelAddr s 0 (s.work.drow + j)) (s.newWidth.toNat * s.bpp) =
          s.mem.readBytes (dstPixelAddr s 0 s.work.drow) (s.newWidth.toNat * s.bpp)) ∧
      sameOutside s.mem m (dstPixelAddr s 0 s.work.drow)
        ((s.work.errY + s.newHeight.toNat) / s.height.toNat * (s.newWidth.toNat * s.bpp))

/-! ### The whole machine -/

/-- The invariant holds at reset. -/
def Obligations.ResetMeetsTheInvariant : Prop := Inv State.reset

/-- Headline: every step keeps the invariant: memory's canonical form, no byte outside existing memory, BUSY and DONE never
both 1 (R26), a running command is CMD's (R110) with checks passed (R118) and working state in bounds (R147, R178, R206,
R207), and Idle keeps no working state (R41; which value it has then is log entry 3). -/
def Obligations.StepKeepsTheInvariant : Prop :=
  ∀ s t : State, Inv s → step s = .next t → Inv t

/-- A host that obeys R265 and stays in existing memory never stops the machine: from the invariant, a step answers a next
state exactly when the pending event is allowed. That a host access where `mem_ok` is false is not allowed, and stops the
machine, is the model's choice (log entry 9, DEDUCED): the spec gives such an access no result. -/
def Obligations.ObedientHostsNeverStopTheMachine : Prop :=
  ∀ s : State, Inv s → (StepSafe s ↔ nextObeys s = true)

/-- R66: whatever moves, while a command runs only a host write changes memory outside the command's write region: the
engine and RST write only bytes of the write region. -/
def Obligations.OnlyTheWriteRegionIsWritten : Prop :=
  ∀ (s t : State) (op : Op), Inv s → s.phase = .busy op → (∀ a b rest, s.inputs ≠ .memWrite a b :: rest) →
    step s = .next t → ∀ a, (writeRegion op s).contains a = false → t.mem.read a = s.mem.read a

/-- R112: while a command runs no step changes CMD or a parameter register, unless it ends the command; so the regions
are fixed at the start. -/
def Obligations.ParametersAreFixedWhileBusy : Prop :=
  ∀ (s t : State) (op : Op), s.phase = .busy op → step s = .next t → t.phase ≠ .idle →
    t.cmd = s.cmd ∧ t.width = s.width ∧ t.height = s.height ∧ t.bytesPP = s.bytesPP ∧ t.newWidth = s.newWidth ∧
    t.newHeight = s.newHeight ∧ t.pixBase = s.pixBase ∧ t.srcBase = s.srcBase ∧ t.srcLen = s.srcLen ∧
    t.dstBase = s.dstBase ∧ t.dstLen = s.dstLen ∧
    ∀ op', readRegion op' t = readRegion op' s ∧ writeRegion op' t = writeRegion op' s

/-- R245: a command start is the only thing that leaves Idle: the step that does so took an aligned 32-bit host write of
CMD. -/
def Obligations.OnlyACommandStartLeavesIdle : Prop :=
  ∀ s t : State, s.phase = .idle → step s = .next t → t.phase ≠ .idle →
    ∃ (v : Word) (rest : List Input), s.inputs = writeOf s .cmd v :: rest ∧ t.cmd = v

/-- R237: after a completion ERROR, IN_USED, OUT_USED and PIX_DONE keep their values until the next command start or
reset. R245: while Idle the block keeps every register value: only RST and a host register write change one, and
only a host memory write changes memory. The engine's own move changes nothing (given as an event, it is taken off the
list); that the machine makes such steps while Idle is the model's (log entries 5 and 15). -/
def Obligations.ResultsStayUntilTheNextStart : Prop :=
  (∀ s t : State, s.phase = .idle → step s = .next t → (∀ rest, s.inputs ≠ .rst :: rest) →
    (∀ v rest, s.inputs ≠ writeOf s .cmd v :: rest) →
    t.error = s.error ∧ t.inUsed = s.inUsed ∧ t.outUsed = s.outUsed ∧ t.pixDone = s.pixDone ∧ t.phase = .idle) ∧
  (∀ s t : State, s.phase = .idle → step s = .next t →
    ((∀ rest, s.inputs ≠ .rst :: rest) → (∀ addr width v rest, s.inputs ≠ .regWrite addr width v :: rest) →
      ∀ r : Reg, regValue r t = regValue r s) ∧
    ((∀ a b rest, s.inputs ≠ .memWrite a b :: rest) → t.mem = s.mem)) ∧
  ∀ s : State, s.phase = .idle →
    (s.inputs = [] → step s = .next s) ∧
    ∀ rest, s.inputs = .engine :: rest ∨ s.inputs = .enginePart :: rest → step s = .next { s with inputs := rest }

/-- Model's choice (log entry 1): no step changes the platform. -/
def Obligations.NoStepChangesThePlatform : Prop :=
  ∀ s t : State, step s = .next t → t.config = s.config

/-- Headline: taking a whole command as one engine step (R111) is taking it part by part: from a command's start, finitely
many parts of the engine reach the very state the one step gives. -/
def Obligations.WholeCommandIsItsParts : Prop :=
  ∀ (s : State) (op : Op) (rest : List Input), Inv s → s.phase = .busy op → s.work.stage = .checks →
    ∃ (k : Nat) (t : State), engineStep s = .next t ∧
      steps k { s with inputs := List.replicate k .enginePart ++ rest } = .next { t with inputs := rest }

/-- R270: every started command completes unless RST intervenes: from any point of a running command, given its turns, the
engine reaches Idle with DONE = 1. -/
def Obligations.EveryStartedCommandCompletes : Prop :=
  ∀ (s : State) (op : Op), Inv s → s.phase = .busy op → s.inputs = [] →
    ∃ (k : Nat) (t : State), steps k s = .next t ∧ t.phase = .idle ∧ t.done = true
end

