-- ==== Sys2Proof/Laws/Memory.lean ====
section
/-! SUPPORT. The laws of byte memory: read after write, the canonical form, and wide accesses. -/

namespace Sys2Proof.Machine

@[simp] theorem Memory.read_nil (a : Nat) : Memory.read [] a = 0 := rfl

theorem Memory.wf_nil : Memory.wf [] := by simp [Memory.wf]

theorem Memory.wf_cons {k : Nat} {b : Byte} {m : Memory} :
    Memory.wf ((k, b) :: m) ↔ (∀ p ∈ m, k < p.1) ∧ b ≠ 0 ∧ Memory.wf m := by
  simp only [Memory.wf, List.pairwise_cons, List.forall_mem_cons]
  tauto

/-- Below every listed address memory reads 00. -/
theorem Memory.read_below {m : Memory} {a : Nat} (h : ∀ p ∈ m, a < p.1) : m.read a = 0 := by
  cases m with
  | nil => rfl
  | cons p m =>
    have := h p (by simp)
    obtain ⟨k, b⟩ := p
    simp only [Memory.read]
    rw [if_neg (by simp at this; omega), if_pos (by simpa using this)]

/-- Every entry after a write is an old one or the written one. -/
theorem Memory.mem_write {m : Memory} {a : Nat} {b : Byte} {p : Host.Cell}
    (h : p ∈ m.write a b) : p ∈ m ∨ (p = (a, b) ∧ b ≠ 0) := by
  induction m with
  | nil =>
    simp only [Memory.write] at h
    split at h
    · simp at h
    · right; exact ⟨by simpa using h, by assumption⟩
  | cons q m ih =>
    obtain ⟨k, c⟩ := q
    simp only [Memory.write] at h
    split at h
    · split at h
      · exact .inl h
      · rcases List.mem_cons.1 h with h | h
        · exact .inr ⟨h, by assumption⟩
        · exact .inl h
    · split at h
      · split at h
        · exact .inl (List.mem_cons_of_mem _ h)
        · rcases List.mem_cons.1 h with h | h
          · exact .inr ⟨h, by assumption⟩
          · exact .inl (List.mem_cons_of_mem _ h)
      · rcases List.mem_cons.1 h with h | h
        · exact .inl (by simp [h])
        · rcases ih h with h | h
          · exact .inl (List.mem_cons_of_mem _ h)
          · exact .inr h

/-- A write keeps the canonical form. -/
theorem Memory.wf_write {m : Memory} (h : m.wf) (a : Nat) (b : Byte) : (m.write a b).wf := by
  induction m with
  | nil =>
    simp only [Memory.write]
    split
    · exact Memory.wf_nil
    · exact Memory.wf_cons.2 ⟨by simp, by assumption, Memory.wf_nil⟩
  | cons q m ih =>
    obtain ⟨k, c⟩ := q
    obtain ⟨hlt, hc, hm⟩ := Memory.wf_cons.1 h
    simp only [Memory.write]
    split
    · split
      · exact h
      · refine Memory.wf_cons.2 ⟨?_, by assumption, h⟩
        intro p hp
        rcases List.mem_cons.1 hp with rfl | hp
        · assumption
        · have := hlt p hp; omega
    · split
      · split
        · exact hm
        · refine Memory.wf_cons.2 ⟨?_, by assumption, hm⟩
          intro p hp
          have := hlt p hp; omega
      · refine Memory.wf_cons.2 ⟨?_, hc, ih hm⟩
        intro p hp
        rcases Memory.mem_write hp with hp | ⟨rfl, -⟩
        · exact hlt p hp
        · show k < a
          omega

/-- R60: a read returns the last value written, and a write changes only its byte. -/
theorem Memory.read_write {m : Memory} (h : m.wf) (a a' : Nat) (b : Byte) :
    (m.write a b).read a' = if a' = a then b else m.read a' := by
  induction m with
  | nil =>
    simp only [Memory.write]
    split
    · subst_vars; simp
    · simp only [Memory.read]
      split
      · rfl
      · simp
  | cons q m ih =>
    obtain ⟨k, c⟩ := q
    obtain ⟨hlt, hc, hm⟩ := Memory.wf_cons.1 h
    have hbelow : Memory.read m k = 0 := Memory.read_below hlt
    simp only [Memory.write]
    split
    · rename_i hak
      split
      · subst_vars
        split
        · subst_vars
          simp only [Memory.read]
          rw [if_neg (by omega), if_pos hak]
        · rfl
      · simp only [Memory.read]
        by_cases h1 : a' = a
        · simp [h1]
        · rw [if_neg h1, if_neg h1]
          by_cases h2 : a' < a
          · rw [if_pos h2, if_neg (by omega), if_pos (by omega)]
          · rw [if_neg h2]
    · split
      · rename_i hak
        subst hak
        split
        · rename_i hb
          by_cases h1 : a' = a
          · simp [h1, hbelow, hb]
          · rw [if_neg h1]
            simp only [Memory.read]
            rw [if_neg h1]
            split
            · exact Memory.read_below fun p hp => by have := hlt p hp; omega
            · rfl
        · simp only [Memory.read]
          by_cases h1 : a' = a
          · simp [h1]
          · rw [if_neg h1, if_neg h1, if_neg h1]
      · simp only [Memory.read]
        by_cases h1 : a' = k
        · subst h1
          rw [if_pos rfl, if_pos rfl, if_neg (by omega)]
        · rw [if_neg h1, if_neg h1]
          by_cases h2 : a' < k
          · rw [if_pos h2, if_pos h2, if_neg (by omega)]
          · rw [if_neg h2, if_neg h2]
            exact ih hm

theorem Memory.read_write_same {m : Memory} (h : m.wf) (a : Nat) (b : Byte) : (m.write a b).read a = b := by
  rw [Memory.read_write h, if_pos rfl]

theorem Memory.read_write_ne {m : Memory} (h : m.wf) {a a' : Nat} (b : Byte) (hne : a' ≠ a) :
    (m.write a b).read a' = m.read a' := by
  rw [Memory.read_write h, if_neg hne]

/-- Equal memories are equal lists: two memories in canonical form that read the same everywhere are the same. -/
theorem Memory.eq_of_read_eq {m n : Memory} (hm : m.wf) (hn : n.wf) (h : ∀ a, m.read a = n.read a) : m = n := by
  induction m generalizing n with
  | nil =>
    cases n with
    | nil => rfl
    | cons q n =>
      obtain ⟨k, b⟩ := q
      have := h k
      simp only [Memory.read, if_true] at this
      exact absurd this.symm (Memory.wf_cons.1 hn).2.1
  | cons p m ih =>
    obtain ⟨j, c⟩ := p
    obtain ⟨hj, hc, hm'⟩ := Memory.wf_cons.1 hm
    cases n with
    | nil =>
      have := h j
      simp only [Memory.read, if_true] at this
      exact absurd this hc
    | cons q n =>
      obtain ⟨k, b⟩ := q
      obtain ⟨hk, hb, hn'⟩ := Memory.wf_cons.1 hn
      have hjk : j = k := by
        have h1 := h j
        have h2 := h k
        simp only [Memory.read, if_true] at h1 h2
        by_contra hne
        rcases Nat.lt_or_gt_of_ne hne with hlt | hlt
        · rw [if_neg hne, if_pos hlt] at h1
          exact hc h1
        · rw [if_neg (Ne.symm hne), if_pos hlt] at h2
          exact hb h2.symm
      subst hjk
      have hcb : c = b := by
        have := h j
        simpa only [Memory.read, if_true] using this
      subst hcb
      congr 1
      refine ih hm' hn' fun a => ?_
      by_cases ha : a ≤ j
      · rw [Memory.read_below fun p hp => by have := hj p hp; omega,
          Memory.read_below fun p hp => by have := hk p hp; omega]
      · have := h a
        simp only [Memory.read] at this
        rwa [if_neg (by omega), if_neg (by omega), if_neg (by omega), if_neg (by omega)] at this

/-! ### Wide reads -/

@[simp] theorem Memory.length_readBytes (m : Memory) (a n : Nat) : (m.readBytes a n).length = n := by
  induction n generalizing a with
  | zero => rfl
  | succ n ih => simp [Memory.readBytes, ih]

theorem Memory.getElem_readBytes (m : Memory) (a n : Nat) {i : Nat} (h : i < (m.readBytes a n).length) :
    (m.readBytes a n)[i] = m.read (a + i) := by
  induction n generalizing a i with
  | zero => simp [Memory.readBytes] at h
  | succ n ih =>
    cases i with
    | zero => simp [Memory.readBytes]
    | succ i =>
      simp only [Memory.readBytes, List.getElem_cons_succ]
      rw [ih]
      congr 1; omega

/-- A wide read is the list of the bytes at its addresses. -/
theorem Memory.readBytes_eq_iff {m n : Memory} {a a' len : Nat} :
    m.readBytes a len = n.readBytes a' len ↔ ∀ i < len, m.read (a + i) = n.read (a' + i) := by
  constructor
  · intro h i hi
    have h1 := Memory.getElem_readBytes m a len (i := i) (by simpa)
    have h2 := Memory.getElem_readBytes n a' len (i := i) (by simpa)
    rw [← h1, ← h2]
    simp only [h]
  · intro h
    refine List.ext_getElem (by simp) fun i h1 h2 => ?_
    rw [Memory.getElem_readBytes, Memory.getElem_readBytes]
    exact h i (by simpa using h1)

theorem Memory.readBytes_add (m : Memory) (a i j : Nat) :
    m.readBytes a (i + j) = m.readBytes a i ++ m.readBytes (a + i) j := by
  induction i generalizing a with
  | zero => simp [Memory.readBytes]
  | succ i ih =>
    rw [Nat.succ_add, Memory.readBytes, Memory.readBytes, ih (a + 1)]
    simp [Nat.add_assoc, Nat.add_comm 1 i]

theorem Memory.take_readBytes (m : Memory) (a : Nat) {i n : Nat} (h : i ≤ n) :
    (m.readBytes a n).take i = m.readBytes a i := by
  obtain ⟨j, rfl⟩ := Nat.exists_eq_add_of_le h
  rw [Memory.readBytes_add, List.take_append_of_le_length (by simp), List.take_of_length_le (by simp)]

theorem Memory.drop_readBytes (m : Memory) (a : Nat) {i n : Nat} (h : i ≤ n) :
    (m.readBytes a n).drop i = m.readBytes (a + i) (n - i) := by
  obtain ⟨j, rfl⟩ := Nat.exists_eq_add_of_le h
  rw [Memory.readBytes_add, List.drop_left' (by simp)]
  congr 1; omega

/-! ### Wide writes -/

theorem Memory.wf_writeBytes {m : Memory} (h : m.wf) (a : Nat) (bs : List Byte) : (m.writeBytes a bs).wf := by
  induction bs generalizing m a with
  | nil => exact h
  | cons b bs ih => exact ih (Memory.wf_write h a b) (a + 1)

/-- What every address reads after a wide write. -/
theorem Memory.read_writeBytes {m : Memory} (h : m.wf) (a : Nat) (bs : List Byte) (x : Nat) :
    (m.writeBytes a bs).read x = if hx : a ≤ x ∧ x < a + bs.length then bs[x - a]'(by omega) else m.read x := by
  induction bs generalizing m a with
  | nil => simp only [Memory.writeBytes, List.length_nil]; rw [dif_neg (by omega)]
  | cons b bs ih =>
    rw [Memory.writeBytes, ih (Memory.wf_write h a b)]
    by_cases h1 : a + 1 ≤ x ∧ x < a + 1 + bs.length
    · have h2 : a ≤ x ∧ x < a + (b :: bs).length := by simp; omega
      rw [dif_pos h1, dif_pos h2]
      have : x - a = (x - (a + 1)) + 1 := by omega
      simp [this]
    · rw [dif_neg h1, Memory.read_write h]
      by_cases h2 : x = a
      · subst h2
        rw [if_pos rfl, dif_pos (by simp)]
        simp
      · rw [if_neg h2, dif_neg (by simp; omega)]

theorem Memory.read_writeBytes_out {m : Memory} (h : m.wf) {a : Nat} {bs : List Byte} {x : Nat}
    (hx : x < a ∨ a + bs.length ≤ x) : (m.writeBytes a bs).read x = m.read x := by
  rw [Memory.read_writeBytes h, dif_neg (by omega)]

theorem Memory.read_writeBytes_in {m : Memory} (h : m.wf) (a : Nat) (bs : List Byte) {i : Nat}
    (hi : i < bs.length) : (m.writeBytes a bs).read (a + i) = bs[i] := by
  rw [Memory.read_writeBytes h, dif_pos (by omega)]
  congr 1; omega

theorem Memory.readBytes_writeBytes_same {m : Memory} (h : m.wf) (a : Nat) (bs : List Byte) :
    (m.writeBytes a bs).readBytes a bs.length = bs := by
  refine List.ext_getElem (by simp) fun i h1 h2 => ?_
  rw [Memory.getElem_readBytes, Memory.read_writeBytes_in h a bs h2]

/-- A wide write puts no entry anywhere but at its own addresses. -/
theorem Memory.mem_writeBytes {m : Memory} {a : Nat} {bs : List Byte} {p : Host.Cell}
    (h : p ∈ m.writeBytes a bs) : p ∈ m ∨ (a ≤ p.1 ∧ p.1 < a + bs.length) := by
  induction bs generalizing m a with
  | nil => exact .inl h
  | cons b bs ih =>
    rcases ih h with h | h
    · rcases Memory.mem_write h with h | ⟨rfl, -⟩
      · exact .inl h
      · exact .inr (by simp)
    · exact .inr (by simp; omega)

end Sys2Proof.Machine
end

