-- ==== Sys2Proof/Laws/State.lean ====
section
/-! SUPPORT. What each named update of the state does to each field: one lemma per field per update, true by rfl, so that
no later proof unfolds a record update. -/

namespace Sys2Proof.Machine

/-! ### complete -/

@[simp] theorem complete_cmd (e : ErrorCode) (p : Progress) (s : State) : (complete e p s).cmd = s.cmd := rfl
@[simp] theorem complete_done (e : ErrorCode) (p : Progress) (s : State) : (complete e p s).done = true := rfl
@[simp] theorem complete_wign (e : ErrorCode) (p : Progress) (s : State) : (complete e p s).wign = s.wign := rfl
@[simp] theorem complete_error (e : ErrorCode) (p : Progress) (s : State) : (complete e p s).error = e := rfl
@[simp] theorem complete_ie (e : ErrorCode) (p : Progress) (s : State) : (complete e p s).ie = s.ie := rfl
@[simp] theorem complete_width (e : ErrorCode) (p : Progress) (s : State) : (complete e p s).width = s.width := rfl
@[simp] theorem complete_height (e : ErrorCode) (p : Progress) (s : State) : (complete e p s).height = s.height := rfl
@[simp] theorem complete_bytesPP (e : ErrorCode) (p : Progress) (s : State) : (complete e p s).bytesPP = s.bytesPP := rfl
@[simp] theorem complete_newWidth (e : ErrorCode) (p : Progress) (s : State) : (complete e p s).newWidth = s.newWidth := rfl
@[simp] theorem complete_newHeight (e : ErrorCode) (p : Progress) (s : State) : (complete e p s).newHeight = s.newHeight := rfl
@[simp] theorem complete_pixBase (e : ErrorCode) (p : Progress) (s : State) : (complete e p s).pixBase = s.pixBase := rfl
@[simp] theorem complete_srcBase (e : ErrorCode) (p : Progress) (s : State) : (complete e p s).srcBase = s.srcBase := rfl
@[simp] theorem complete_srcLen (e : ErrorCode) (p : Progress) (s : State) : (complete e p s).srcLen = s.srcLen := rfl
@[simp] theorem complete_dstBase (e : ErrorCode) (p : Progress) (s : State) : (complete e p s).dstBase = s.dstBase := rfl
@[simp] theorem complete_dstLen (e : ErrorCode) (p : Progress) (s : State) : (complete e p s).dstLen = s.dstLen := rfl
@[simp] theorem complete_inUsed (e : ErrorCode) (p : Progress) (s : State) : (complete e p s).inUsed = BitVec.ofNat 32 p.inUsed := rfl
@[simp] theorem complete_outUsed (e : ErrorCode) (p : Progress) (s : State) : (complete e p s).outUsed = BitVec.ofNat 32 p.outUsed := rfl
@[simp] theorem complete_pixDone (e : ErrorCode) (p : Progress) (s : State) : (complete e p s).pixDone = BitVec.ofNat 32 p.pixDone := rfl
@[simp] theorem complete_phase (e : ErrorCode) (p : Progress) (s : State) : (complete e p s).phase = .idle := rfl
@[simp] theorem complete_work (e : ErrorCode) (p : Progress) (s : State) : (complete e p s).work = Work.initial := rfl
@[simp] theorem complete_mem (e : ErrorCode) (p : Progress) (s : State) : (complete e p s).mem = s.mem := rfl
@[simp] theorem complete_config (e : ErrorCode) (p : Progress) (s : State) : (complete e p s).config = s.config := rfl
@[simp] theorem complete_inputs (e : ErrorCode) (p : Progress) (s : State) : (complete e p s).inputs = s.inputs := rfl
@[simp] theorem complete_reply (e : ErrorCode) (p : Progress) (s : State) : (complete e p s).reply = s.reply := rfl
@[simp] theorem complete_draws (e : ErrorCode) (p : Progress) (s : State) : (complete e p s).draws = s.draws := rfl

/-! ### commandStart -/

@[simp] theorem commandStart_cmd (v : Word) (s : State) : (commandStart v s).cmd = v := rfl
@[simp] theorem commandStart_done (v : Word) (s : State) : (commandStart v s).done = false := rfl
@[simp] theorem commandStart_wign (v : Word) (s : State) : (commandStart v s).wign = s.wign := rfl
@[simp] theorem commandStart_error (v : Word) (s : State) : (commandStart v s).error = .success := rfl
@[simp] theorem commandStart_ie (v : Word) (s : State) : (commandStart v s).ie = s.ie := rfl
@[simp] theorem commandStart_width (v : Word) (s : State) : (commandStart v s).width = s.width := rfl
@[simp] theorem commandStart_height (v : Word) (s : State) : (commandStart v s).height = s.height := rfl
@[simp] theorem commandStart_bytesPP (v : Word) (s : State) : (commandStart v s).bytesPP = s.bytesPP := rfl
@[simp] theorem commandStart_newWidth (v : Word) (s : State) : (commandStart v s).newWidth = s.newWidth := rfl
@[simp] theorem commandStart_newHeight (v : Word) (s : State) : (commandStart v s).newHeight = s.newHeight := rfl
@[simp] theorem commandStart_pixBase (v : Word) (s : State) : (commandStart v s).pixBase = s.pixBase := rfl
@[simp] theorem commandStart_srcBase (v : Word) (s : State) : (commandStart v s).srcBase = s.srcBase := rfl
@[simp] theorem commandStart_srcLen (v : Word) (s : State) : (commandStart v s).srcLen = s.srcLen := rfl
@[simp] theorem commandStart_dstBase (v : Word) (s : State) : (commandStart v s).dstBase = s.dstBase := rfl
@[simp] theorem commandStart_dstLen (v : Word) (s : State) : (commandStart v s).dstLen = s.dstLen := rfl
@[simp] theorem commandStart_inUsed (v : Word) (s : State) : (commandStart v s).inUsed = 0 := rfl
@[simp] theorem commandStart_outUsed (v : Word) (s : State) : (commandStart v s).outUsed = 0 := rfl
@[simp] theorem commandStart_pixDone (v : Word) (s : State) : (commandStart v s).pixDone = 0 := rfl
@[simp] theorem commandStart_phase (v : Word) (s : State) : (commandStart v s).phase = .busy (opOf v) := rfl
@[simp] theorem commandStart_work (v : Word) (s : State) : (commandStart v s).work = Work.initial := rfl
@[simp] theorem commandStart_mem (v : Word) (s : State) : (commandStart v s).mem = s.mem := rfl
@[simp] theorem commandStart_config (v : Word) (s : State) : (commandStart v s).config = s.config := rfl
@[simp] theorem commandStart_inputs (v : Word) (s : State) : (commandStart v s).inputs = s.inputs := rfl
@[simp] theorem commandStart_reply (v : Word) (s : State) : (commandStart v s).reply = s.reply := rfl
@[simp] theorem commandStart_draws (v : Word) (s : State) : (commandStart v s).draws = s.draws := rfl

/-! ### beginBody -/

@[simp] theorem beginBody_cmd (op : Op) (s : State) : (beginBody op s).cmd = s.cmd := rfl
@[simp] theorem beginBody_done (op : Op) (s : State) : (beginBody op s).done = s.done := rfl
@[simp] theorem beginBody_wign (op : Op) (s : State) : (beginBody op s).wign = s.wign := rfl
@[simp] theorem beginBody_error (op : Op) (s : State) : (beginBody op s).error = s.error := rfl
@[simp] theorem beginBody_ie (op : Op) (s : State) : (beginBody op s).ie = s.ie := rfl
@[simp] theorem beginBody_width (op : Op) (s : State) : (beginBody op s).width = s.width := rfl
@[simp] theorem beginBody_height (op : Op) (s : State) : (beginBody op s).height = s.height := rfl
@[simp] theorem beginBody_bytesPP (op : Op) (s : State) : (beginBody op s).bytesPP = s.bytesPP := rfl
@[simp] theorem beginBody_newWidth (op : Op) (s : State) : (beginBody op s).newWidth = s.newWidth := rfl
@[simp] theorem beginBody_newHeight (op : Op) (s : State) : (beginBody op s).newHeight = s.newHeight := rfl
@[simp] theorem beginBody_pixBase (op : Op) (s : State) : (beginBody op s).pixBase = s.pixBase := rfl
@[simp] theorem beginBody_srcBase (op : Op) (s : State) : (beginBody op s).srcBase = s.srcBase := rfl
@[simp] theorem beginBody_srcLen (op : Op) (s : State) : (beginBody op s).srcLen = s.srcLen := rfl
@[simp] theorem beginBody_dstBase (op : Op) (s : State) : (beginBody op s).dstBase = s.dstBase := rfl
@[simp] theorem beginBody_dstLen (op : Op) (s : State) : (beginBody op s).dstLen = s.dstLen := rfl
@[simp] theorem beginBody_inUsed (op : Op) (s : State) : (beginBody op s).inUsed = s.inUsed := rfl
@[simp] theorem beginBody_outUsed (op : Op) (s : State) : (beginBody op s).outUsed = s.outUsed := rfl
@[simp] theorem beginBody_pixDone (op : Op) (s : State) : (beginBody op s).pixDone = s.pixDone := rfl
@[simp] theorem beginBody_phase (op : Op) (s : State) : (beginBody op s).phase = .busy op := rfl
@[simp] theorem beginBody_work (op : Op) (s : State) : (beginBody op s).work = { Work.initial with stage := .body } := rfl
@[simp] theorem beginBody_mem (op : Op) (s : State) : (beginBody op s).mem = s.mem := rfl
@[simp] theorem beginBody_config (op : Op) (s : State) : (beginBody op s).config = s.config := rfl
@[simp] theorem beginBody_inputs (op : Op) (s : State) : (beginBody op s).inputs = s.inputs := rfl
@[simp] theorem beginBody_reply (op : Op) (s : State) : (beginBody op s).reply = s.reply := rfl
@[simp] theorem beginBody_draws (op : Op) (s : State) : (beginBody op s).draws = s.draws := rfl

/-! ### fetchHeader -/

@[simp] theorem fetchHeader_cmd (s : State) : (fetchHeader s).cmd = s.cmd := rfl
@[simp] theorem fetchHeader_done (s : State) : (fetchHeader s).done = s.done := rfl
@[simp] theorem fetchHeader_wign (s : State) : (fetchHeader s).wign = s.wign := rfl
@[simp] theorem fetchHeader_error (s : State) : (fetchHeader s).error = s.error := rfl
@[simp] theorem fetchHeader_ie (s : State) : (fetchHeader s).ie = s.ie := rfl
@[simp] theorem fetchHeader_width (s : State) : (fetchHeader s).width = s.width := rfl
@[simp] theorem fetchHeader_height (s : State) : (fetchHeader s).height = s.height := rfl
@[simp] theorem fetchHeader_bytesPP (s : State) : (fetchHeader s).bytesPP = s.bytesPP := rfl
@[simp] theorem fetchHeader_newWidth (s : State) : (fetchHeader s).newWidth = s.newWidth := rfl
@[simp] theorem fetchHeader_newHeight (s : State) : (fetchHeader s).newHeight = s.newHeight := rfl
@[simp] theorem fetchHeader_pixBase (s : State) : (fetchHeader s).pixBase = s.pixBase := rfl
@[simp] theorem fetchHeader_srcBase (s : State) : (fetchHeader s).srcBase = s.srcBase := rfl
@[simp] theorem fetchHeader_srcLen (s : State) : (fetchHeader s).srcLen = s.srcLen := rfl
@[simp] theorem fetchHeader_dstBase (s : State) : (fetchHeader s).dstBase = s.dstBase := rfl
@[simp] theorem fetchHeader_dstLen (s : State) : (fetchHeader s).dstLen = s.dstLen := rfl
@[simp] theorem fetchHeader_inUsed (s : State) : (fetchHeader s).inUsed = s.inUsed := rfl
@[simp] theorem fetchHeader_outUsed (s : State) : (fetchHeader s).outUsed = s.outUsed := rfl
@[simp] theorem fetchHeader_pixDone (s : State) : (fetchHeader s).pixDone = s.pixDone := rfl
@[simp] theorem fetchHeader_phase (s : State) : (fetchHeader s).phase = s.phase := rfl
@[simp] theorem fetchHeader_work (s : State) : (fetchHeader s).work = { s.work with header := s.mem.read s.headerAddr } := rfl
@[simp] theorem fetchHeader_mem (s : State) : (fetchHeader s).mem = s.mem := rfl
@[simp] theorem fetchHeader_config (s : State) : (fetchHeader s).config = s.config := rfl
@[simp] theorem fetchHeader_inputs (s : State) : (fetchHeader s).inputs = s.inputs := rfl
@[simp] theorem fetchHeader_reply (s : State) : (fetchHeader s).reply = s.reply := rfl
@[simp] theorem fetchHeader_draws (s : State) : (fetchHeader s).draws = s.draws := rfl

/-! ### swapImage -/

@[simp] theorem swapImage_cmd (s : State) : (swapImage s).cmd = s.cmd := rfl
@[simp] theorem swapImage_done (s : State) : (swapImage s).done = s.done := rfl
@[simp] theorem swapImage_wign (s : State) : (swapImage s).wign = s.wign := rfl
@[simp] theorem swapImage_error (s : State) : (swapImage s).error = s.error := rfl
@[simp] theorem swapImage_ie (s : State) : (swapImage s).ie = s.ie := rfl
@[simp] theorem swapImage_width (s : State) : (swapImage s).width = s.newWidth := rfl
@[simp] theorem swapImage_height (s : State) : (swapImage s).height = s.newHeight := rfl
@[simp] theorem swapImage_bytesPP (s : State) : (swapImage s).bytesPP = s.bytesPP := rfl
@[simp] theorem swapImage_newWidth (s : State) : (swapImage s).newWidth = s.newWidth := rfl
@[simp] theorem swapImage_newHeight (s : State) : (swapImage s).newHeight = s.newHeight := rfl
@[simp] theorem swapImage_pixBase (s : State) : (swapImage s).pixBase = s.dstBase := rfl
@[simp] theorem swapImage_srcBase (s : State) : (swapImage s).srcBase = s.srcBase := rfl
@[simp] theorem swapImage_srcLen (s : State) : (swapImage s).srcLen = s.srcLen := rfl
@[simp] theorem swapImage_dstBase (s : State) : (swapImage s).dstBase = s.pixBase := rfl
@[simp] theorem swapImage_dstLen (s : State) : (swapImage s).dstLen = BitVec.ofNat 32 s.imageBytes := rfl
@[simp] theorem swapImage_inUsed (s : State) : (swapImage s).inUsed = s.inUsed := rfl
@[simp] theorem swapImage_outUsed (s : State) : (swapImage s).outUsed = s.outUsed := rfl
@[simp] theorem swapImage_pixDone (s : State) : (swapImage s).pixDone = s.pixDone := rfl
@[simp] theorem swapImage_phase (s : State) : (swapImage s).phase = s.phase := rfl
@[simp] theorem swapImage_work (s : State) : (swapImage s).work = s.work := rfl
@[simp] theorem swapImage_mem (s : State) : (swapImage s).mem = s.mem := rfl
@[simp] theorem swapImage_config (s : State) : (swapImage s).config = s.config := rfl
@[simp] theorem swapImage_inputs (s : State) : (swapImage s).inputs = s.inputs := rfl
@[simp] theorem swapImage_reply (s : State) : (swapImage s).reply = s.reply := rfl
@[simp] theorem swapImage_draws (s : State) : (swapImage s).draws = s.draws := rfl

/-! ### writeStatus -/

@[simp] theorem writeStatus_cmd (v : Word) (s : State) : (writeStatus v s).cmd = s.cmd := rfl
@[simp] theorem writeStatus_done (v : Word) (s : State) : (writeStatus v s).done = (s.done && !(v.getLsbD 1)) := rfl
@[simp] theorem writeStatus_wign (v : Word) (s : State) : (writeStatus v s).wign = (s.wign && !(v.getLsbD 3)) := rfl
@[simp] theorem writeStatus_error (v : Word) (s : State) : (writeStatus v s).error = s.error := rfl
@[simp] theorem writeStatus_ie (v : Word) (s : State) : (writeStatus v s).ie = s.ie := rfl
@[simp] theorem writeStatus_width (v : Word) (s : State) : (writeStatus v s).width = s.width := rfl
@[simp] theorem writeStatus_height (v : Word) (s : State) : (writeStatus v s).height = s.height := rfl
@[simp] theorem writeStatus_bytesPP (v : Word) (s : State) : (writeStatus v s).bytesPP = s.bytesPP := rfl
@[simp] theorem writeStatus_newWidth (v : Word) (s : State) : (writeStatus v s).newWidth = s.newWidth := rfl
@[simp] theorem writeStatus_newHeight (v : Word) (s : State) : (writeStatus v s).newHeight = s.newHeight := rfl
@[simp] theorem writeStatus_pixBase (v : Word) (s : State) : (writeStatus v s).pixBase = s.pixBase := rfl
@[simp] theorem writeStatus_srcBase (v : Word) (s : State) : (writeStatus v s).srcBase = s.srcBase := rfl
@[simp] theorem writeStatus_srcLen (v : Word) (s : State) : (writeStatus v s).srcLen = s.srcLen := rfl
@[simp] theorem writeStatus_dstBase (v : Word) (s : State) : (writeStatus v s).dstBase = s.dstBase := rfl
@[simp] theorem writeStatus_dstLen (v : Word) (s : State) : (writeStatus v s).dstLen = s.dstLen := rfl
@[simp] theorem writeStatus_inUsed (v : Word) (s : State) : (writeStatus v s).inUsed = s.inUsed := rfl
@[simp] theorem writeStatus_outUsed (v : Word) (s : State) : (writeStatus v s).outUsed = s.outUsed := rfl
@[simp] theorem writeStatus_pixDone (v : Word) (s : State) : (writeStatus v s).pixDone = s.pixDone := rfl
@[simp] theorem writeStatus_phase (v : Word) (s : State) : (writeStatus v s).phase = s.phase := rfl
@[simp] theorem writeStatus_work (v : Word) (s : State) : (writeStatus v s).work = s.work := rfl
@[simp] theorem writeStatus_mem (v : Word) (s : State) : (writeStatus v s).mem = s.mem := rfl
@[simp] theorem writeStatus_config (v : Word) (s : State) : (writeStatus v s).config = s.config := rfl
@[simp] theorem writeStatus_inputs (v : Word) (s : State) : (writeStatus v s).inputs = s.inputs := rfl
@[simp] theorem writeStatus_reply (v : Word) (s : State) : (writeStatus v s).reply = s.reply := rfl
@[simp] theorem writeStatus_draws (v : Word) (s : State) : (writeStatus v s).draws = s.draws := rfl

/-! ### writeIrqEn -/

@[simp] theorem writeIrqEn_cmd (v : Word) (s : State) : (writeIrqEn v s).cmd = s.cmd := rfl
@[simp] theorem writeIrqEn_done (v : Word) (s : State) : (writeIrqEn v s).done = s.done := rfl
@[simp] theorem writeIrqEn_wign (v : Word) (s : State) : (writeIrqEn v s).wign = s.wign := rfl
@[simp] theorem writeIrqEn_error (v : Word) (s : State) : (writeIrqEn v s).error = s.error := rfl
@[simp] theorem writeIrqEn_ie (v : Word) (s : State) : (writeIrqEn v s).ie = v.getLsbD 0 := rfl
@[simp] theorem writeIrqEn_width (v : Word) (s : State) : (writeIrqEn v s).width = s.width := rfl
@[simp] theorem writeIrqEn_height (v : Word) (s : State) : (writeIrqEn v s).height = s.height := rfl
@[simp] theorem writeIrqEn_bytesPP (v : Word) (s : State) : (writeIrqEn v s).bytesPP = s.bytesPP := rfl
@[simp] theorem writeIrqEn_newWidth (v : Word) (s : State) : (writeIrqEn v s).newWidth = s.newWidth := rfl
@[simp] theorem writeIrqEn_newHeight (v : Word) (s : State) : (writeIrqEn v s).newHeight = s.newHeight := rfl
@[simp] theorem writeIrqEn_pixBase (v : Word) (s : State) : (writeIrqEn v s).pixBase = s.pixBase := rfl
@[simp] theorem writeIrqEn_srcBase (v : Word) (s : State) : (writeIrqEn v s).srcBase = s.srcBase := rfl
@[simp] theorem writeIrqEn_srcLen (v : Word) (s : State) : (writeIrqEn v s).srcLen = s.srcLen := rfl
@[simp] theorem writeIrqEn_dstBase (v : Word) (s : State) : (writeIrqEn v s).dstBase = s.dstBase := rfl
@[simp] theorem writeIrqEn_dstLen (v : Word) (s : State) : (writeIrqEn v s).dstLen = s.dstLen := rfl
@[simp] theorem writeIrqEn_inUsed (v : Word) (s : State) : (writeIrqEn v s).inUsed = s.inUsed := rfl
@[simp] theorem writeIrqEn_outUsed (v : Word) (s : State) : (writeIrqEn v s).outUsed = s.outUsed := rfl
@[simp] theorem writeIrqEn_pixDone (v : Word) (s : State) : (writeIrqEn v s).pixDone = s.pixDone := rfl
@[simp] theorem writeIrqEn_phase (v : Word) (s : State) : (writeIrqEn v s).phase = s.phase := rfl
@[simp] theorem writeIrqEn_work (v : Word) (s : State) : (writeIrqEn v s).work = s.work := rfl
@[simp] theorem writeIrqEn_mem (v : Word) (s : State) : (writeIrqEn v s).mem = s.mem := rfl
@[simp] theorem writeIrqEn_config (v : Word) (s : State) : (writeIrqEn v s).config = s.config := rfl
@[simp] theorem writeIrqEn_inputs (v : Word) (s : State) : (writeIrqEn v s).inputs = s.inputs := rfl
@[simp] theorem writeIrqEn_reply (v : Word) (s : State) : (writeIrqEn v s).reply = s.reply := rfl
@[simp] theorem writeIrqEn_draws (v : Word) (s : State) : (writeIrqEn v s).draws = s.draws := rfl

/-! ### setWign -/

@[simp] theorem setWign_cmd (s : State) : (setWign s).cmd = s.cmd := rfl
@[simp] theorem setWign_done (s : State) : (setWign s).done = s.done := rfl
@[simp] theorem setWign_wign (s : State) : (setWign s).wign = true := rfl
@[simp] theorem setWign_error (s : State) : (setWign s).error = s.error := rfl
@[simp] theorem setWign_ie (s : State) : (setWign s).ie = s.ie := rfl
@[simp] theorem setWign_width (s : State) : (setWign s).width = s.width := rfl
@[simp] theorem setWign_height (s : State) : (setWign s).height = s.height := rfl
@[simp] theorem setWign_bytesPP (s : State) : (setWign s).bytesPP = s.bytesPP := rfl
@[simp] theorem setWign_newWidth (s : State) : (setWign s).newWidth = s.newWidth := rfl
@[simp] theorem setWign_newHeight (s : State) : (setWign s).newHeight = s.newHeight := rfl
@[simp] theorem setWign_pixBase (s : State) : (setWign s).pixBase = s.pixBase := rfl
@[simp] theorem setWign_srcBase (s : State) : (setWign s).srcBase = s.srcBase := rfl
@[simp] theorem setWign_srcLen (s : State) : (setWign s).srcLen = s.srcLen := rfl
@[simp] theorem setWign_dstBase (s : State) : (setWign s).dstBase = s.dstBase := rfl
@[simp] theorem setWign_dstLen (s : State) : (setWign s).dstLen = s.dstLen := rfl
@[simp] theorem setWign_inUsed (s : State) : (setWign s).inUsed = s.inUsed := rfl
@[simp] theorem setWign_outUsed (s : State) : (setWign s).outUsed = s.outUsed := rfl
@[simp] theorem setWign_pixDone (s : State) : (setWign s).pixDone = s.pixDone := rfl
@[simp] theorem setWign_phase (s : State) : (setWign s).phase = s.phase := rfl
@[simp] theorem setWign_work (s : State) : (setWign s).work = s.work := rfl
@[simp] theorem setWign_mem (s : State) : (setWign s).mem = s.mem := rfl
@[simp] theorem setWign_config (s : State) : (setWign s).config = s.config := rfl
@[simp] theorem setWign_inputs (s : State) : (setWign s).inputs = s.inputs := rfl
@[simp] theorem setWign_reply (s : State) : (setWign s).reply = s.reply := rfl
@[simp] theorem setWign_draws (s : State) : (setWign s).draws = s.draws := rfl

/-! ### resetBlock -/

@[simp] theorem resetBlock_cmd (s : State) : (resetBlock s).cmd = State.reset.cmd := rfl
@[simp] theorem resetBlock_done (s : State) : (resetBlock s).done = State.reset.done := rfl
@[simp] theorem resetBlock_wign (s : State) : (resetBlock s).wign = State.reset.wign := rfl
@[simp] theorem resetBlock_error (s : State) : (resetBlock s).error = State.reset.error := rfl
@[simp] theorem resetBlock_ie (s : State) : (resetBlock s).ie = State.reset.ie := rfl
@[simp] theorem resetBlock_width (s : State) : (resetBlock s).width = State.reset.width := rfl
@[simp] theorem resetBlock_height (s : State) : (resetBlock s).height = State.reset.height := rfl
@[simp] theorem resetBlock_bytesPP (s : State) : (resetBlock s).bytesPP = State.reset.bytesPP := rfl
@[simp] theorem resetBlock_newWidth (s : State) : (resetBlock s).newWidth = State.reset.newWidth := rfl
@[simp] theorem resetBlock_newHeight (s : State) : (resetBlock s).newHeight = State.reset.newHeight := rfl
@[simp] theorem resetBlock_pixBase (s : State) : (resetBlock s).pixBase = State.reset.pixBase := rfl
@[simp] theorem resetBlock_srcBase (s : State) : (resetBlock s).srcBase = State.reset.srcBase := rfl
@[simp] theorem resetBlock_srcLen (s : State) : (resetBlock s).srcLen = State.reset.srcLen := rfl
@[simp] theorem resetBlock_dstBase (s : State) : (resetBlock s).dstBase = State.reset.dstBase := rfl
@[simp] theorem resetBlock_dstLen (s : State) : (resetBlock s).dstLen = State.reset.dstLen := rfl
@[simp] theorem resetBlock_inUsed (s : State) : (resetBlock s).inUsed = State.reset.inUsed := rfl
@[simp] theorem resetBlock_outUsed (s : State) : (resetBlock s).outUsed = State.reset.outUsed := rfl
@[simp] theorem resetBlock_pixDone (s : State) : (resetBlock s).pixDone = State.reset.pixDone := rfl
@[simp] theorem resetBlock_phase (s : State) : (resetBlock s).phase = State.reset.phase := rfl
@[simp] theorem resetBlock_work (s : State) : (resetBlock s).work = State.reset.work := rfl
@[simp] theorem resetBlock_mem (s : State) : (resetBlock s).mem = resetMemory s := rfl
@[simp] theorem resetBlock_config (s : State) : (resetBlock s).config = s.config := rfl
@[simp] theorem resetBlock_inputs (s : State) : (resetBlock s).inputs = s.inputs := rfl
@[simp] theorem resetBlock_reply (s : State) : (resetBlock s).reply = State.reset.reply := rfl
@[simp] theorem resetBlock_draws (s : State) : (resetBlock s).draws = s.draws + resetDraws s := rfl

/-! ### The image under the updates that keep it -/

@[simp] theorem complete_total (e : ErrorCode) (p : Progress) (s : State) : (complete e p s).total = s.total := rfl
@[simp] theorem complete_imageBytes (e : ErrorCode) (p : Progress) (s : State) : (complete e p s).imageBytes = s.imageBytes := rfl
@[simp] theorem complete_newTotal (e : ErrorCode) (p : Progress) (s : State) : (complete e p s).newTotal = s.newTotal := rfl
@[simp] theorem complete_pixelAddr (e : ErrorCode) (p : Progress) (s : State) (j : Nat) : (complete e p s).pixelAddr j = s.pixelAddr j := rfl
@[simp] theorem complete_pixel (e : ErrorCode) (p : Progress) (s : State) (j : Nat) : (complete e p s).pixel j = s.pixel j := rfl

@[simp] theorem commandStart_total (v : Word) (s : State) : (commandStart v s).total = s.total := rfl
@[simp] theorem commandStart_imageBytes (v : Word) (s : State) : (commandStart v s).imageBytes = s.imageBytes := rfl
@[simp] theorem commandStart_newTotal (v : Word) (s : State) : (commandStart v s).newTotal = s.newTotal := rfl
@[simp] theorem commandStart_pixelAddr (v : Word) (s : State) (j : Nat) : (commandStart v s).pixelAddr j = s.pixelAddr j := rfl
@[simp] theorem commandStart_pixel (v : Word) (s : State) (j : Nat) : (commandStart v s).pixel j = s.pixel j := rfl

@[simp] theorem beginBody_total (op : Op) (s : State) : (beginBody op s).total = s.total := rfl
@[simp] theorem beginBody_imageBytes (op : Op) (s : State) : (beginBody op s).imageBytes = s.imageBytes := rfl
@[simp] theorem beginBody_newTotal (op : Op) (s : State) : (beginBody op s).newTotal = s.newTotal := rfl
@[simp] theorem beginBody_pixelAddr (op : Op) (s : State) (j : Nat) : (beginBody op s).pixelAddr j = s.pixelAddr j := rfl
@[simp] theorem beginBody_pixel (op : Op) (s : State) (j : Nat) : (beginBody op s).pixel j = s.pixel j := rfl

@[simp] theorem fetchHeader_total (s : State) : (fetchHeader s).total = s.total := rfl
@[simp] theorem fetchHeader_imageBytes (s : State) : (fetchHeader s).imageBytes = s.imageBytes := rfl
@[simp] theorem fetchHeader_newTotal (s : State) : (fetchHeader s).newTotal = s.newTotal := rfl
@[simp] theorem fetchHeader_pixelAddr (s : State) (j : Nat) : (fetchHeader s).pixelAddr j = s.pixelAddr j := rfl
@[simp] theorem fetchHeader_pixel (s : State) (j : Nat) : (fetchHeader s).pixel j = s.pixel j := rfl

@[simp] theorem writeStatus_total (v : Word) (s : State) : (writeStatus v s).total = s.total := rfl
@[simp] theorem writeStatus_imageBytes (v : Word) (s : State) : (writeStatus v s).imageBytes = s.imageBytes := rfl
@[simp] theorem writeStatus_newTotal (v : Word) (s : State) : (writeStatus v s).newTotal = s.newTotal := rfl
@[simp] theorem writeStatus_pixelAddr (v : Word) (s : State) (j : Nat) : (writeStatus v s).pixelAddr j = s.pixelAddr j := rfl
@[simp] theorem writeStatus_pixel (v : Word) (s : State) (j : Nat) : (writeStatus v s).pixel j = s.pixel j := rfl

@[simp] theorem writeIrqEn_total (v : Word) (s : State) : (writeIrqEn v s).total = s.total := rfl
@[simp] theorem writeIrqEn_imageBytes (v : Word) (s : State) : (writeIrqEn v s).imageBytes = s.imageBytes := rfl
@[simp] theorem writeIrqEn_newTotal (v : Word) (s : State) : (writeIrqEn v s).newTotal = s.newTotal := rfl
@[simp] theorem writeIrqEn_pixelAddr (v : Word) (s : State) (j : Nat) : (writeIrqEn v s).pixelAddr j = s.pixelAddr j := rfl
@[simp] theorem writeIrqEn_pixel (v : Word) (s : State) (j : Nat) : (writeIrqEn v s).pixel j = s.pixel j := rfl

@[simp] theorem setWign_total (s : State) : (setWign s).total = s.total := rfl
@[simp] theorem setWign_imageBytes (s : State) : (setWign s).imageBytes = s.imageBytes := rfl
@[simp] theorem setWign_newTotal (s : State) : (setWign s).newTotal = s.newTotal := rfl
@[simp] theorem setWign_pixelAddr (s : State) (j : Nat) : (setWign s).pixelAddr j = s.pixelAddr j := rfl
@[simp] theorem setWign_pixel (s : State) (j : Nat) : (setWign s).pixel j = s.pixel j := rfl

/-! ### Completion and the start as they meet the flags -/

@[simp] theorem complete_isBusy (e : ErrorCode) (p : Progress) (s : State) : (complete e p s).isBusy = false := rfl
@[simp] theorem complete_irq (e : ErrorCode) (p : Progress) (s : State) : (complete e p s).irq = s.ie := rfl
@[simp] theorem commandStart_isBusy (v : Word) (s : State) : (commandStart v s).isBusy = true := rfl
@[simp] theorem commandStart_irq (v : Word) (s : State) : (commandStart v s).irq = false := rfl

end Sys2Proof.Machine
end

