-- ==== Sys2Proof/Laws/Commands.lean ====
section
/-! SUPPORT. What the checks of R113-R117 give a command's body, and the way into it. -/

namespace Sys2Proof.Machine

theorem formatOk_iff (b : Word) : formatOk b = true ↔ b.toNat = 1 ∨ b.toNat = 3 ∨ b.toNat = 4 := by
  simp only [formatOk, Bool.or_eq_true, beq_iff_eq, BitVec.toNat_eq, BitVec.toNat_ofNat]
  tauto

theorem dimOk_iff (v : Word) : dimOk v = true ↔ 1 ≤ v.toNat ∧ v.toNat ≤ 65535 := by
  simp [dimOk]

@[simp] theorem Region.contains_iff (r : Region) (a : Nat) :
    r.contains a = true ↔ r.base ≤ a ∧ a < r.base + r.len := by
  simp [Region.contains]

theorem inHole_iff (h : Hole) (a : Nat) : inHole h a = true ↔ h.base ≤ a ∧ a < h.base + h.size := by
  simp [inHole]

theorem memOk_iff (cfg : Config) (a : Nat) :
    memOk cfg a = true ↔ a < 4294967296 ∧ ∀ h ∈ cfg.holes, ¬ (h.base ≤ a ∧ a < h.base + h.size) := by
  simp only [memOk, inHole, Config.addrSpace, Bool.and_eq_true, decide_eq_true_eq, List.all_eq_true,
    Bool.not_eq_true', Bool.and_eq_false_iff, decide_eq_false_iff_not]
  refine and_congr_right fun _ => forall₂_congr fun h _ => ?_
  omega

theorem memOk_lt {cfg : Config} {a : Nat} (h : memOk cfg a = true) : a < 4294967296 :=
  ((memOk_iff cfg a).1 h).1

/-- Every byte of a valid region is memory (R116). -/
theorem memOk_of_regionOk {cfg : Config} {r : Region} (h : regionOk cfg r = true) {a : Nat}
    (ha : r.base ≤ a ∧ a < r.base + r.len) : memOk cfg a = true := by
  simp only [regionOk, holeMeets, Bool.or_eq_true, Bool.and_eq_true, decide_eq_true_eq, List.all_eq_true,
    Bool.not_eq_true', Bool.and_eq_false_iff, decide_eq_false_iff_not, Config.addrSpace] at h
  rw [memOk_iff]
  rcases h with h | ⟨h1, h2⟩
  · omega
  · refine ⟨by omega, fun hole hh => ?_⟩
    have := h2 hole hh
    omega

/-- A valid region that is not empty ends at or below 2^32 (R116). -/
theorem end_le_of_regionOk {cfg : Config} {r : Region} (h : regionOk cfg r = true) (hl : 0 < r.len) :
    r.base + r.len ≤ 4294967296 := by
  simp only [regionOk, Bool.or_eq_true, Bool.and_eq_true, decide_eq_true_eq, Config.addrSpace] at h
  omega

/-- Regions that do not overlap (R117): one is empty, or they lie apart. -/
theorem apart_of_not_overlap {r w : Region} (h : regionsOverlap r w = false) :
    r.len = 0 ∨ w.len = 0 ∨ w.base + w.len ≤ r.base ∨ r.base + r.len ≤ w.base := by
  simp only [regionsOverlap, Bool.and_eq_false_iff, decide_eq_false_iff_not] at h
  omega

/-- What passing the checks gives (R113-R117), as facts about numbers. -/
structure Checked (op : Op) (s : State) : Prop where
  legal     : op ≠ .illegal
  format    : s.bpp = 1 ∨ s.bpp = 3 ∨ s.bpp = 4
  width     : 1 ≤ s.width.toNat ∧ s.width.toNat ≤ 65535
  height    : 1 ≤ s.height.toNat ∧ s.height.toNat ≤ 65535
  target    : op = .scale → (1 ≤ s.newWidth.toNat ∧ s.newWidth.toNat ≤ 65535) ∧
                (1 ≤ s.newHeight.toNat ∧ s.newHeight.toNat ≤ 65535) ∧ s.newTotal * s.bpp ≤ s.dstLen.toNat
  readOk    : regionOk s.config (readRegion op s) = true
  writeOk   : regionOk s.config (writeRegion op s) = true
  noOverlap : regionsOverlap (readRegion op s) (writeRegion op s) = false

theorem checked_iff (op : Op) (s : State) : checkError op s = none ↔ Checked op s := by
  constructor
  · intro h
    simp only [checkError] at h
    split at h
    · cases h
    · rename_i hop
      have hp : paramError op s = none := by
        cases hpe : paramError op s with
        | none => rfl
        | some e => rw [hpe] at h; cases h
      rw [hp] at h
      simp only [paramError] at hp
      split at hp
      · cases hp
      split at hp
      · cases hp
      split at hp
      · cases hp
      split at hp
      · cases hp
      rename_i h1 h2 h3 h4
      simp only [regionError] at h
      split at h
      · cases h
      split at h
      · cases h
      split at h
      · cases h
      rename_i r1 r2 r3
      simp only [Bool.not_eq_true', Bool.not_eq_false, Bool.and_eq_true, formatOk_iff, dimOk_iff] at h1 h2
      refine ⟨hop, h1, h2.1, h2.2, ?_, by simpa using r1, by simpa using r2, by simpa using r3⟩
      rintro rfl
      simp only [Bool.not_eq_true', Bool.not_eq_false, Bool.and_eq_true, dimOk_iff, decide_true,
        Bool.true_and, decide_eq_true_eq, not_lt] at h3 h4
      exact ⟨h3.1, h3.2, h4⟩
  · rintro ⟨hop, hf, hw, hh, ht, hr, hwr, ho⟩
    have h1 : formatOk s.bytesPP = true := (formatOk_iff _).2 hf
    have h2 : dimOk s.width = true := (dimOk_iff _).2 hw
    have h3 : dimOk s.height = true := (dimOk_iff _).2 hh
    have hp : paramError op s = none := by
      by_cases hs : op = .scale
      · obtain ⟨t1, t2, t3⟩ := ht hs
        have h4 : dimOk s.newWidth = true := (dimOk_iff _).2 t1
        have h5 : dimOk s.newHeight = true := (dimOk_iff _).2 t2
        have h6 : ¬ s.dstLen.toNat < s.newTotal * s.bpp := by omega
        simp [paramError, h1, h2, h3, h4, h5, h6]
      · simp [paramError, h1, h2, h3, hs]
    simp [checkError, hop, hp, regionError, hr, hwr, ho]

namespace Checked

variable {op : Op} {s : State}

theorem bpp_pos (h : Checked op s) : 1 ≤ s.bpp := by have := h.format; omega

theorem bpp_le (h : Checked op s) : s.bpp ≤ 4 := by have := h.format; omega

/-- R7: W × H is at most 65535 × 65535. -/
theorem total_le (h : Checked op s) : s.total ≤ 4294836225 := by
  have h1 := Nat.mul_le_mul h.width.2 h.height.2
  simpa [State.total] using h1

theorem total_pos (h : Checked op s) : 1 ≤ s.total := Nat.mul_pos h.width.1 h.height.1

/-- No byte is in both regions (R117). -/
theorem disjoint (h : Checked op s) {a : Nat}
    (hr : (readRegion op s).base ≤ a ∧ a < (readRegion op s).base + (readRegion op s).len)
    (hw : (writeRegion op s).base ≤ a ∧ a < (writeRegion op s).base + (writeRegion op s).len) : False := by
  have := apart_of_not_overlap h.noOverlap
  omega

end Checked

/-- The checks look only at the registers and the platform. -/
theorem checkError_congr (op : Op) {s t : State} (h1 : t.bytesPP = s.bytesPP) (h2 : t.width = s.width)
    (h3 : t.height = s.height) (h4 : t.newWidth = s.newWidth) (h5 : t.newHeight = s.newHeight)
    (h6 : t.pixBase = s.pixBase) (h7 : t.srcBase = s.srcBase) (h8 : t.srcLen = s.srcLen)
    (h9 : t.dstBase = s.dstBase) (h10 : t.dstLen = s.dstLen) (h11 : t.config = s.config) :
    checkError op t = checkError op s := by
  cases s; cases t
  simp only at h1 h2 h3 h4 h5 h6 h7 h8 h9 h10 h11
  subst h1 h2 h3 h4 h5 h6 h7 h8 h9 h10 h11
  cases op <;> rfl

/-- The regions look only at the registers (R66, R112). -/
theorem regions_congr (op : Op) {s t : State} (h1 : t.bytesPP = s.bytesPP) (h2 : t.width = s.width)
    (h3 : t.height = s.height) (h4 : t.newWidth = s.newWidth) (h5 : t.newHeight = s.newHeight)
    (h6 : t.pixBase = s.pixBase) (h7 : t.srcBase = s.srcBase) (h8 : t.srcLen = s.srcLen)
    (h9 : t.dstBase = s.dstBase) (h10 : t.dstLen = s.dstLen) :
    readRegion op t = readRegion op s ∧ writeRegion op t = writeRegion op s := by
  cases op <;>
    simp only [readRegion, writeRegion, State.imageBytes, State.total, State.newTotal, State.bpp, and_self, h1, h2, h3, h4, h5, h6, h7, h8, h9, h10]

/-- The one way into a body (R118): completion with the first failing check, or the body's start. -/
theorem enterBody_cases (op : Op) (s : State) :
    (∃ e, checkError op s = some e ∧ enterBody op s = complete e Progress.zero s) ∨
    (checkError op s = none ∧ enterBody op s = beginBody op s) := by
  cases h : checkError op s with
  | some e => exact .inl ⟨e, rfl, by simp [enterBody, h]⟩
  | none => exact .inr ⟨rfl, by simp [enterBody, h]⟩

theorem enterBody_of_none {op : Op} {s : State} (h : checkError op s = none) : enterBody op s = beginBody op s := by
  simp [enterBody, h]

theorem enterBody_of_some {op : Op} {s : State} {e : ErrorCode} (h : checkError op s = some e) :
    enterBody op s = complete e Progress.zero s := by
  simp [enterBody, h]

end Sys2Proof.Machine
end

