-- ==== Sys2Proof/Laws/Packet.lean ====
section
/-! SUPPORT. What a packet does: its pixels in memory (R143-R145), and the three ways it can go (R141, R142). -/

namespace Sys2Proof.Machine

/-! ### writePixels -/

theorem wf_writePixels {m : Memory} (h : m.wf) (addr b : Nat) (pixel : Nat → List Byte) (n : Nat) :
    (writePixels m addr b pixel n).wf := by
  induction n with
  | zero => exact h
  | succ n ih => exact Memory.wf_writeBytes ih _ _

theorem read_writePixels_out {m : Memory} (h : m.wf) {addr b : Nat} {pixel : Nat → List Byte} {n x : Nat}
    (hl : ∀ j < n, (pixel j).length = b) (hx : x < addr ∨ addr + n * b ≤ x) :
    (writePixels m addr b pixel n).read x = m.read x := by
  induction n with
  | zero => rfl
  | succ n ih =>
    have hb := hl n (by omega)
    rw [Nat.succ_mul] at hx
    rw [writePixels, Memory.read_writeBytes_out (wf_writePixels h _ _ _ _) (by omega)]
    exact ih (fun j hj => hl j (by omega)) (by omega)

theorem read_writePixels_in {m : Memory} (h : m.wf) {addr b : Nat} {pixel : Nat → List Byte} {n j k : Nat}
    (hl : ∀ j < n, (pixel j).length = b) (hj : j < n) (hk : k < b) :
    (writePixels m addr b pixel n).read (addr + j * b + k) = (pixel j)[k]'(by rw [hl j hj]; exact hk) := by
  induction n with
  | zero => omega
  | succ n ih =>
    have hb := hl n (by omega)
    have hwf := wf_writePixels h addr b pixel n
    by_cases hjn : j = n
    · subst hjn
      rw [writePixels, Memory.read_writeBytes_in hwf _ _ (by omega)]
    · have hle : (j + 1) * b ≤ n * b := Nat.mul_le_mul_right b (by omega)
      rw [Nat.succ_mul] at hle
      rw [writePixels, Memory.read_writeBytes_out hwf (by omega)]
      exact ih (fun j hj => hl j (by omega)) (by omega)

/-- Entries of a memory with pixels written: old ones, or at the pixels' addresses. -/
theorem mem_writePixels {m : Memory} {addr b : Nat} {pixel : Nat → List Byte} {n : Nat} {p : Host.Cell}
    (hl : ∀ j < n, (pixel j).length ≤ b) (hp : p ∈ writePixels m addr b pixel n) :
    p ∈ m ∨ (addr ≤ p.1 ∧ p.1 < addr + n * b) := by
  induction n with
  | zero => exact .inl hp
  | succ n ih =>
    have hb := hl n (by omega)
    rw [Nat.succ_mul]
    rcases Memory.mem_writeBytes hp with hp | hp
    · rcases ih (fun j hj => hl j (by omega)) hp with hp | hp
      · exact .inl hp
      · exact .inr (by omega)
    · exact .inr (by omega)

/-! ### The pixels of a payload -/

theorem rawPixel_readBytes (m : Memory) (a : Nat) {b n j : Nat} (hj : j < n) :
    rawPixel b (m.readBytes a (n * b)) j = m.readBytes (a + j * b) b := by
  have h : (j + 1) * b ≤ n * b := Nat.mul_le_mul_right b (by omega)
  rw [Nat.succ_mul] at h
  rw [rawPixel, Memory.drop_readBytes _ _ (by omega), Memory.take_readBytes _ _ (by omega)]

theorem runPixel_readBytes (m : Memory) (a b j : Nat) : runPixel b (m.readBytes a b) j = m.readBytes a b := by
  rw [runPixel, List.take_of_length_le (by simp)]

theorem length_rawPixel_le (b : Nat) (pb : List Byte) (j : Nat) : (rawPixel b pb j).length ≤ b := by
  simp [rawPixel]

theorem length_runPixel_le (b : Nat) (pb : List Byte) (j : Nat) : (runPixel b pb j).length ≤ b := by
  simp [runPixel]

/-! ### The three ways of a packet -/

/-- The state after a packet that fits: its payload in the packet buffer, its pixels in memory, the positions moved. -/
def packetWritten (count plen : Nat) (pixel : List Byte → Nat → List Byte) (s : State) : State :=
  { s with
    mem  := writePixels s.mem (s.pixelAddr s.work.pix) s.bpp (pixel (s.mem.readBytes s.payloadAddr plen)) count
    work := { s.work with
      packet := s.mem.readBytes s.payloadAddr plen
      inpos  := s.work.inpos + 1 + plen
      pix    := s.work.pix + count } }

/-- R142, R141 (b), R145: overflow, short payload, or the packet written. -/
theorem decodePacket_cases (count plen : Nat) (pixel : List Byte → Nat → List Byte) (s : State) :
    (s.total < s.work.pix + count ∧
      decodePacket count plen pixel s = complete .pixelCountOverflow (decodeProgress s) s) ∨
    (s.work.pix + count ≤ s.total ∧ s.srcLen.toNat < s.work.inpos + 1 + plen ∧
      decodePacket count plen pixel s = complete .unexpectedEndOfStream (decodeProgress s) s) ∨
    (s.work.pix + count ≤ s.total ∧ s.work.inpos + 1 + plen ≤ s.srcLen.toNat ∧
      decodePacket count plen pixel s = packetWritten count plen pixel s) := by
  unfold decodePacket
  split
  · exact .inl ⟨by assumption, rfl⟩
  · split
    · exact .inr (.inl ⟨by omega, by assumption, rfl⟩)
    · exact .inr (.inr ⟨by omega, by omega, rfl⟩)

theorem decodeRunning_iff (s : State) :
    decodeRunning s = true ↔ s.phase = .busy .decode ∧ s.work.stage = .body ∧ checkError .decode s = none := by
  simp [decodeRunning, and_assoc]

/-- What RAW can do: run as a packet of the running DECODE, or the one fault. -/
theorem execRaw_cases (n : Nat) (s : State) :
    (decodeRunning s = true ∧ execRaw n s = .next (rawPacket n s)) ∨
    (decodeRunning s = false ∧ execRaw n s = .fault .noDecodeRunning) := by
  cases h : decodeRunning s <;> simp [execRaw, h]

/-- What RUN can do: run as a packet of the running DECODE, or the one fault. -/
theorem execRun_cases (n : Nat) (s : State) :
    (decodeRunning s = true ∧ execRun n s = .next (runPacket n s)) ∨
    (decodeRunning s = false ∧ execRun n s = .fault .noDecodeRunning) := by
  cases h : decodeRunning s <;> simp [execRun, h]

/-- The bytes of memory after a RAW packet that fits (R143). -/
theorem rawWritten_read {s : State} (hm : Memory.wf s.mem) (n : Nat) :
    let t := packetWritten n (n * s.bpp) (rawPixel s.bpp) s
    (∀ j < n, ∀ k < s.bpp,
      t.mem.read (s.pixelAddr s.work.pix + j * s.bpp + k) = s.mem.read (s.payloadAddr + j * s.bpp + k)) ∧
    (∀ x, (x < s.pixelAddr s.work.pix ∨ s.pixelAddr s.work.pix + n * s.bpp ≤ x) → t.mem.read x = s.mem.read x) := by
  have hl : ∀ j < n, (rawPixel s.bpp (s.mem.readBytes s.payloadAddr (n * s.bpp)) j).length = s.bpp := by
    intro j hj
    rw [rawPixel_readBytes _ _ hj, Memory.length_readBytes]
  refine ⟨fun j hj k hk => ?_, fun x hx => read_writePixels_out hm hl hx⟩
  refine (read_writePixels_in hm hl hj hk).trans ?_
  simp only [rawPixel_readBytes _ _ hj]
  rw [Memory.getElem_readBytes]

/-- The bytes of memory after a RUN packet that fits (R144). -/
theorem runWritten_read {s : State} (hm : Memory.wf s.mem) (n : Nat) :
    let t := packetWritten n s.bpp (runPixel s.bpp) s
    (∀ j < n, ∀ k < s.bpp,
      t.mem.read (s.pixelAddr s.work.pix + j * s.bpp + k) = s.mem.read (s.payloadAddr + k)) ∧
    (∀ x, (x < s.pixelAddr s.work.pix ∨ s.pixelAddr s.work.pix + n * s.bpp ≤ x) → t.mem.read x = s.mem.read x) := by
  have hl : ∀ j < n, (runPixel s.bpp (s.mem.readBytes s.payloadAddr s.bpp) j).length = s.bpp := by
    intro j _
    rw [runPixel_readBytes, Memory.length_readBytes]
  refine ⟨fun j hj k hk => ?_, fun x hx => read_writePixels_out hm hl hx⟩
  refine (read_writePixels_in hm hl hj hk).trans ?_
  simp only [runPixel_readBytes]
  rw [Memory.getElem_readBytes]

theorem wf_packetWritten {s : State} (hm : Memory.wf s.mem) (count plen : Nat)
    (pixel : List Byte → Nat → List Byte) : Memory.wf (packetWritten count plen pixel s).mem :=
  wf_writePixels hm _ _ _ _

end Sys2Proof.Machine
end

