-- ==== Sys2Proof/Laws/Decode.lean ====
section
/-! SUPPORT. DECODE's loop: its header fields, what one round can do, and its rounds one by one. -/

namespace Sys2Proof

theorem headerCount_eq (h : Byte) : headerCount h = h.toNat % 128 + 1 := by
  simp [headerCount, BitVec.extractLsb'_toNat]

theorem headerCount_pos (h : Byte) : 1 ≤ headerCount h := by simp [headerCount_eq]

theorem headerCount_le (h : Byte) : headerCount h ≤ 128 := by
  rw [headerCount_eq]; omega

theorem headerIsRun_iff (h : Byte) : headerIsRun h = true ↔ 128 ≤ h.toNat := by
  rw [headerIsRun, BitVec.getLsbD, Nat.testBit_eq_decide_div_mod_eq]
  have := h.isLt
  simp
  omega

theorem rawHeader_toNat {n : Nat} (h1 : 1 ≤ n) (h2 : n ≤ 128) : (rawHeader n).toNat = n - 1 := by
  rw [rawHeader, BitVec.toNat_ofNat, Nat.mod_eq_of_lt (by omega)]

theorem runHeader_toNat {n : Nat} (h1 : 1 ≤ n) (h2 : n ≤ 128) : (runHeader n).toNat = 128 + (n - 1) := by
  simp only [runHeader, BitVec.toNat_add, BitVec.toNat_ofNat]
  omega

end Sys2Proof

namespace Sys2Proof.Machine

/-- The packet a header stands for, with its payload length (R91-R93), as one operation on the state. -/
def packetAt (h : Byte) (s : State) : State :=
  if headerIsRun h then runPacket (headerCount h) s else rawPacket (headerCount h) s

/-- How a header's payload is cut into pixels (R143, R144). -/
def headerPixel (h : Byte) (b : Nat) : List Byte → Nat → List Byte :=
  if headerIsRun h then runPixel b else rawPixel b

/-- The payload length of a header's packet (R93). -/
theorem payloadLength_header (h : Byte) (b : Nat) :
    payloadLength b (decodeHeader h) = if h.toNat < 128 then (h.toNat % 128 + 1) * b else b := by
  by_cases hr : headerIsRun h = true
  · rw [decodeHeader, if_pos hr, if_neg (by have := (headerIsRun_iff h).1 hr; omega)]; rfl
  · rw [decodeHeader, if_neg hr, if_pos (by rw [headerIsRun_iff] at hr; omega), payloadLength, headerCount_eq]

theorem packetAt_eq (h : Byte) (s : State) :
    packetAt h s = decodePacket (headerCount h) (payloadLength s.bpp (decodeHeader h)) (headerPixel h s.bpp) s := by
  unfold packetAt headerPixel decodeHeader
  split <;> rfl

/-- One round of DECODE's loop (R140): the image is full, or no header byte is left, or one packet is executed. -/
theorem decodeIter_cases (s : State) :
    (s.total ≤ s.work.pix ∧ decodeIter s = complete .success (decodeProgress s) s) ∨
    (s.work.pix < s.total ∧ s.srcLen.toNat ≤ s.work.inpos ∧
      decodeIter s = complete .unexpectedEndOfStream (decodeProgress s) s) ∨
    (s.work.pix < s.total ∧ s.work.inpos < s.srcLen.toNat ∧
      decodeIter s = packetAt (s.mem.read s.headerAddr) (fetchHeader s)) := by
  unfold decodeIter
  split
  · exact .inl ⟨by assumption, rfl⟩
  · split
    · exact .inr (.inl ⟨by omega, by assumption, rfl⟩)
    · exact .inr (.inr ⟨by omega, by omega, rfl⟩)

@[simp] theorem decodeLoop_idle {s : State} (h : s.phase = .idle) (n : Nat) : decodeLoop n s = s := by
  cases n <;> simp [decodeLoop, h]

theorem decodeLoop_busy {s : State} {op : Op} (h : s.phase = .busy op) (n : Nat) :
    decodeLoop (n + 1) s = decodeLoop n (decodeIter s) := by
  simp [decodeLoop, h]

end Sys2Proof.Machine
end

