-- ==== Sys2Proof/Laws/Encode.lean ====
section
/-! SUPPORT. ENCODE: how far a packet extends (R172, R173), its bytes, and what one round can do. -/

namespace Sys2Proof.Machine

@[simp] theorem length_pixel (s : State) (k : Nat) : (s.pixel k).length = s.bpp := by simp [State.pixel]

theorem startsRun_iff (s : State) (j : Nat) :
    startsRun s j = true ↔ j + 1 < s.total ∧ s.pixel (j + 1) = s.pixel j := by
  simp [startsRun]

/-- R172: the run goes on from `k` over equal pixels, and stops at the cap, at the image's end, or at a pixel that
differs. -/
theorem runExtent_spec (s : State) (p : Nat) : ∀ n k : Nat, 128 ≤ k + n → k ≤ 128 → p + k ≤ s.total →
    k ≤ runExtent s p n k ∧ runExtent s p n k ≤ 128 ∧ p + runExtent s p n k ≤ s.total ∧
    (∀ j, k ≤ j → j < runExtent s p n k → s.pixel (p + j) = s.pixel p) ∧
    (runExtent s p n k = 128 ∨ p + runExtent s p n k = s.total ∨
      s.pixel (p + runExtent s p n k) ≠ s.pixel p) := by
  intro n
  induction n with
  | zero =>
    intro k h1 h2 h3
    simp only [runExtent]
    exact ⟨by omega, h2, h3, fun j _ _ => by omega, .inl (by omega)⟩
  | succ n ih =>
    intro k h1 h2 h3
    simp only [runExtent]
    split
    · rename_i hc
      simp only [Config.pktMax, Bool.and_eq_true, decide_eq_true_eq] at hc
      obtain ⟨i1, i2, i3, i4, i5⟩ := ih (k + 1) (by omega) (by omega) (by omega)
      refine ⟨by omega, i2, i3, fun j hj hj' => ?_, i5⟩
      by_cases hjk : j = k
      · rw [hjk]; exact hc.2
      · exact i4 j (by omega) hj'
    · rename_i hc
      simp only [Config.pktMax, Bool.and_eq_true, decide_eq_true_eq, not_and] at hc
      refine ⟨by omega, h2, h3, fun j _ _ => by omega, ?_⟩
      by_cases h4 : p + k < s.total
      · by_cases h5 : k < 128
        · exact .inr (.inr (hc ⟨h4, h5⟩))
        · exact .inl (by omega)
      · exact .inr (.inl (by omega))

/-- R173: the raw goes on from `k` over pixels that start no run, and stops at the cap, at the image's end, or before a
pixel that starts one. -/
theorem rawExtent_spec (s : State) (p : Nat) : ∀ n k : Nat, 128 ≤ k + n → k ≤ 128 → p + k ≤ s.total →
    k ≤ rawExtent s p n k ∧ rawExtent s p n k ≤ 128 ∧ p + rawExtent s p n k ≤ s.total ∧
    (∀ j, k ≤ j → j < rawExtent s p n k → startsRun s (p + j) = false) ∧
    (rawExtent s p n k = 128 ∨ p + rawExtent s p n k = s.total ∨ startsRun s (p + rawExtent s p n k) = true) := by
  intro n
  induction n with
  | zero =>
    intro k h1 h2 h3
    simp only [rawExtent]
    exact ⟨by omega, h2, h3, fun j _ _ => by omega, .inl (by omega)⟩
  | succ n ih =>
    intro k h1 h2 h3
    simp only [rawExtent]
    split
    · rename_i hc
      simp only [Config.pktMax, Bool.and_eq_true, decide_eq_true_eq, Bool.not_eq_true'] at hc
      obtain ⟨i1, i2, i3, i4, i5⟩ := ih (k + 1) (by omega) (by omega) (by omega)
      refine ⟨by omega, i2, i3, fun j hj hj' => ?_, i5⟩
      by_cases hjk : j = k
      · rw [hjk]; exact hc.2
      · exact i4 j (by omega) hj'
    · rename_i hc
      simp only [Config.pktMax, Bool.and_eq_true, decide_eq_true_eq, Bool.not_eq_true', not_and,
        Bool.not_eq_false] at hc
      refine ⟨by omega, h2, h3, fun j _ _ => by omega, ?_⟩
      by_cases h4 : p + k < s.total
      · by_cases h5 : k < 128
        · exact .inr (.inr (hc ⟨h4, h5⟩))
        · exact .inl (by omega)
      · exact .inr (.inl (by omega))

/-- `P(p) ++ ... ++ P(p+k−1)` is the image's bytes there. -/
theorem pixelsFrom_eq (s : State) (p k : Nat) :
    pixelsFrom s p k = s.mem.readBytes (s.pixBase.toNat + p * s.bpp) (k * s.bpp) := by
  induction k generalizing p with
  | zero => simp [pixelsFrom, Memory.readBytes]
  | succ k ih =>
    rw [pixelsFrom, ih, Nat.succ_mul k, Nat.add_comm (k * s.bpp), Memory.readBytes_add, State.pixel, State.pixelAddr,
      Nat.succ_mul p, Nat.add_assoc]

/-- A packet covers at least one pixel, at most 128, and only pixels there are; a run at least two. -/
theorem packetExtent_bounds (s : State) {p : Nat} (hp : p < s.total) :
    1 ≤ packetExtent s p ∧ packetExtent s p ≤ 128 ∧ p + packetExtent s p ≤ s.total ∧
    (startsRun s p = true → 2 ≤ packetExtent s p) := by
  simp only [packetExtent, Config.pktMax]
  split
  · rename_i h
    have h' := (startsRun_iff s p).1 h
    obtain ⟨h1, h2, h3, -⟩ := runExtent_spec s p 128 2 (by omega) (by omega) (by omega)
    exact ⟨by omega, h2, h3, fun _ => h1⟩
  · rename_i h
    obtain ⟨h1, h2, h3, -⟩ := rawExtent_spec s p 128 1 (by omega) (by omega) (by omega)
    exact ⟨h1, h2, h3, fun h' => absurd h' h⟩

/-- The length of a packet (R93): the header and one pixel, or the header and its pixels. -/
theorem length_packetBytes (s : State) (p : Nat) :
    (packetBytes s p).length = if startsRun s p then 1 + s.bpp else 1 + packetExtent s p * s.bpp := by
  unfold packetBytes
  split <;> simp [pixelsFrom_eq] <;> omega

/-- R176 (e): a packet of k pixels costs at most k × (1 + B) bytes. -/
theorem length_packetBytes_le (s : State) {p : Nat} (hp : p < s.total) :
    (packetBytes s p).length ≤ packetExtent s p * (1 + s.bpp) := by
  obtain ⟨h1, -, -, -⟩ := packetExtent_bounds s hp
  rw [length_packetBytes]
  have h2 : 1 * s.bpp ≤ packetExtent s p * s.bpp := Nat.mul_le_mul_right _ h1
  rw [Nat.mul_add]
  split <;> omega

/-- A packet is a function of the number of pixels and the pixels (R175). -/
theorem packet_congr {u v : State} (ht : v.total = u.total) (hp : ∀ k < u.total, v.pixel k = u.pixel k) {p : Nat}
    (hs : p < u.total) :
    packetBytes v p = packetBytes u p ∧ packetExtent v p = packetExtent u p := by
  have hsr : ∀ j, startsRun v j = startsRun u j := by
    intro j
    simp only [startsRun, ht]
    by_cases h : j + 1 < u.total
    · rw [hp _ h, hp j (by omega)]
    · simp [h]
  have hrun : ∀ n k, runExtent v p n k = runExtent u p n k := by
    intro n
    induction n with
    | zero => intro k; rfl
    | succ n ih =>
      intro k
      simp only [runExtent, ht, ih]
      by_cases h : p + k < u.total
      · rw [hp _ h, hp p hs]
      · simp [h]
  have hraw : ∀ n k, rawExtent v p n k = rawExtent u p n k := by
    intro n
    induction n with
    | zero => intro k; rfl
    | succ n ih => intro k; simp only [rawExtent, ht, ih, hsr]
  have he : packetExtent v p = packetExtent u p := by simp only [packetExtent, hsr, hrun, hraw]
  have hfrom : ∀ k q, q + k ≤ u.total → pixelsFrom v q k = pixelsFrom u q k := by
    intro k
    induction k with
    | zero => intro q _; rfl
    | succ k ih => intro q hq; rw [pixelsFrom, pixelsFrom, hp q (by omega), ih _ (by omega)]
  refine ⟨?_, he⟩
  have hb := (packetExtent_bounds u hs).2.2.1
  rw [packetBytes, packetBytes, hsr, he, hp p hs, hfrom _ _ hb]

/-- The state after a packet that fits. -/
def packetPacked (s : State) : State :=
  { s with
    mem  := s.mem.writeBytes (s.dstBase.toNat + s.work.outpos) (packetBytes s s.work.s)
    work := { s.work with
      s      := s.work.s + packetExtent s s.work.s
      k      := packetExtent s s.work.s
      outpos := s.work.outpos + (packetBytes s s.work.s).length } }

/-- One round of ENCODE's loop (R170, R174): the image is packed, or the packet does not fit, or it is written. -/
theorem encodeIter_cases (s : State) :
    (s.total ≤ s.work.s ∧ encodeIter s = complete .success (encodeProgress s) s) ∨
    (s.work.s < s.total ∧ s.dstLen.toNat < s.work.outpos + (packetBytes s s.work.s).length ∧
      encodeIter s = complete .outputOverflow (encodeProgress s) s) ∨
    (s.work.s < s.total ∧ s.work.outpos + (packetBytes s s.work.s).length ≤ s.dstLen.toNat ∧
      encodeIter s = packetPacked s) := by
  unfold encodeIter
  split
  · exact .inl ⟨by assumption, rfl⟩
  · simp only
    split
    · exact .inr (.inl ⟨by omega, by assumption, rfl⟩)
    · exact .inr (.inr ⟨by omega, by omega, rfl⟩)

@[simp] theorem encodeLoop_idle {s : State} (h : s.phase = .idle) (n : Nat) : encodeLoop n s = s := by
  cases n <;> simp [encodeLoop, h]

theorem encodeLoop_busy {s : State} {op : Op} (h : s.phase = .busy op) (n : Nat) :
    encodeLoop (n + 1) s = encodeLoop n (encodeIter s) := by
  simp [encodeLoop, h]

end Sys2Proof.Machine
end

