-- ==== Sys2Proof/Laws/Scale.lean ====
section
/-! SUPPORT. SCALE: what one source column and one row's end do (R201-R203), and what one part can do. -/

namespace Sys2Proof.Machine

/-- Dividing by subtracting once. -/
theorem div_mod_of_le {a b : Nat} (hb : 1 ≤ b) (h : b ≤ a) :
    a / b = (a - b) / b + 1 ∧ a % b = (a - b) % b := by
  obtain ⟨c, rfl⟩ := Nat.exists_eq_add_of_le h
  rw [Nat.add_sub_cancel_left, Nat.add_comm b c, Nat.add_div_right _ (by omega), Nat.add_mod_right]
  exact ⟨rfl, rfl⟩

/-! ### The error accumulation in closed form (R204's derivation) -/

/-- One more addition of `N` moves the quotient and the remainder of the accumulation on by one. -/
theorem accumulate (c N W : Nat) (hW : 1 ≤ W) :
    (c * N % W + N) / W + c * N / W = (c + 1) * N / W ∧ (c * N % W + N) % W = (c + 1) * N % W := by
  have h := Nat.div_add_mod (c * N) W
  have e : (c + 1) * N = (c * N % W + N) + W * (c * N / W) := by rw [Nat.add_mul]; omega
  rw [e, Nat.add_mul_div_left _ _ (by omega), Nat.add_mul_mod_self_left]
  exact ⟨rfl, rfl⟩

theorem cursor_le {c N W : Nat} (h : c ≤ W) : c * N / W ≤ N :=
  Nat.div_le_of_le_mul (Nat.mul_le_mul_right _ h)

theorem cursor_lt {c N W : Nat} (hN : 1 ≤ N) (h : c < W) : c * N / W < N := by
  rw [Nat.div_lt_iff_lt_mul (by omega), Nat.mul_comm N]
  exact Nat.mul_lt_mul_of_pos_right h hN

/-! ### The inner loop of the horizontal pass -/

/-- The state with errX and the cursor moved and another memory. -/
def columnMoved (m : Memory) (errX dcol : Nat) (s : State) : State :=
  { s with mem := m, work := { s.work with errX := errX, dcol := dcol } }

/-- R201's inner loop: errX / W copies of the source pixel to consecutive destination pixels, the remainder left in errX.
The source pixel must lie outside the destination pixels, as R117 sees to. -/
theorem copyColumns_spec (n : Nat) : ∀ s : State, 1 ≤ s.width.toNat → s.work.errX ≤ n → Memory.wf s.mem →
    (s.pixelAddr (s.work.i * s.width.toNat + s.work.c) + s.bpp ≤ s.dstAddr ∨
      s.dstAddr + s.work.errX / s.width.toNat * s.bpp ≤ s.pixelAddr (s.work.i * s.width.toNat + s.work.c)) →
    ∃ m : Memory,
      copyColumns n s =
        columnMoved m (s.work.errX % s.width.toNat) (s.work.dcol + s.work.errX / s.width.toNat) s ∧
      m.wf ∧
      (∀ j < s.work.errX / s.width.toNat,
        m.readBytes (s.dstAddr + j * s.bpp) s.bpp = s.pixel (s.work.i * s.width.toNat + s.work.c)) ∧
      (∀ x, (x < s.dstAddr ∨ s.dstAddr + s.work.errX / s.width.toNat * s.bpp ≤ x) → m.read x = s.mem.read x) ∧
      (∀ p ∈ m, p ∈ s.mem ∨
        (s.dstAddr ≤ p.1 ∧ p.1 < s.dstAddr + s.work.errX / s.width.toNat * s.bpp)) := by
  induction n with
  | zero =>
    intro s hw hn hm _
    have hq : s.work.errX / s.width.toNat = 0 := Nat.div_eq_of_lt (by omega)
    have hr : s.work.errX % s.width.toNat = s.work.errX := Nat.mod_eq_of_lt (by omega)
    refine ⟨s.mem, ?_, hm, ?_, fun x _ => rfl, fun p hp => .inl hp⟩
    · rw [hq, hr]; rfl
    · intro j hj; omega
  | succ n ih =>
    intro s hw hn hm hdis
    rw [copyColumns]
    split
    · rename_i hle
      obtain ⟨hd, hmod⟩ := div_mod_of_le hw hle
      rw [hd, Nat.succ_mul] at hdis
      have hdst : (copyColumn s).dstAddr = s.dstAddr + s.bpp := by
        show s.dstBase.toNat + (s.work.drow * s.newWidth.toNat + (s.work.dcol + 1)) * s.bpp = _
        rw [← Nat.add_assoc, Nat.succ_mul, ← Nat.add_assoc]; rfl
      have hpa : (copyColumn s).pixelAddr (s.work.i * s.width.toNat + s.work.c) =
          s.pixelAddr (s.work.i * s.width.toNat + s.work.c) := rfl
      have hlen : (s.pixel (s.work.i * s.width.toNat + s.work.c)).length = s.bpp := by simp [State.pixel]
      have hpix : (copyColumn s).pixel (s.work.i * s.width.toNat + s.work.c) =
          s.pixel (s.work.i * s.width.toNat + s.work.c) := by
        refine Memory.readBytes_eq_iff.2 fun i hi => ?_
        refine Memory.read_writeBytes_out hm ?_
        rw [hlen]
        simp only [hpa]
        have hi' : i < s.bpp := hi
        omega
      obtain ⟨m, h1, h2, h3, h4, h5⟩ := ih (copyColumn s) hw (by simp only [copyColumn]; omega)
        (Memory.wf_writeBytes hm _ _) (by
          rw [hdst]
          show s.pixelAddr (s.work.i * s.width.toNat + s.work.c) + s.bpp ≤ _ ∨
            s.dstAddr + s.bpp + (s.work.errX - s.width.toNat) / s.width.toNat * s.bpp ≤
              s.pixelAddr (s.work.i * s.width.toNat + s.work.c)
          omega)
      have e1 : (copyColumn s).work.errX = s.work.errX - s.width.toNat := rfl
      have e2 : (copyColumn s).width = s.width := rfl
      have e3 : (copyColumn s).bpp = s.bpp := rfl
      have e4 : (copyColumn s).work.i = s.work.i := rfl
      have e5 : (copyColumn s).work.c = s.work.c := rfl
      have e6 : (copyColumn s).mem =
        s.mem.writeBytes s.dstAddr (s.pixel (s.work.i * s.width.toNat + s.work.c)) := rfl
      rw [e1, e2, e4, e5, hdst, hpix] at h3
      rw [e1, e2, hdst, e6] at h4 h5
      simp only [e3] at h3 h4 h5
      refine ⟨m, ?_, h2, ?_, ?_, ?_⟩
      · rw [h1, hmod, hd]
        simp only [columnMoved, copyColumn]
        congr 2
        omega
      · intro j hj
        rw [hd] at hj
        cases j with
        | zero =>
          rw [Nat.zero_mul, Nat.add_zero]
          have hw := Memory.readBytes_writeBytes_same hm s.dstAddr
            (s.pixel (s.work.i * s.width.toNat + s.work.c))
          rw [hlen] at hw
          exact (Memory.readBytes_eq_iff.2 fun i hi => h4 _ (.inl (by omega))).trans hw
        | succ j =>
          rw [← h3 j (by omega), Nat.succ_mul]
          congr 1; omega
      · intro x hx
        rw [hd, Nat.succ_mul] at hx
        rw [h4 x (by omega)]
        exact Memory.read_writeBytes_out hm (by rw [hlen]; omega)
      · intro p hp
        rw [hd, Nat.succ_mul]
        rcases h5 p hp with hp | hp
        · rcases Memory.mem_writeBytes hp with hp | hp
          · exact .inl hp
          · rw [hlen] at hp; exact .inr (by omega)
        · exact .inr (by omega)
    · rename_i hlt
      have hq : s.work.errX / s.width.toNat = 0 := Nat.div_eq_of_lt (by omega)
      have hr : s.work.errX % s.width.toNat = s.work.errX := Nat.mod_eq_of_lt (by omega)
      refine ⟨s.mem, ?_, hm, ?_, fun x _ => rfl, fun p hp => .inl hp⟩
      · rw [hq, hr]; rfl
      · intro j hj; omega

/-! ### The vertical loop -/

/-- The state with errY and the row cursor moved and another memory. -/
def rowMoved (m : Memory) (errY drow : Nat) (s : State) : State :=
  { s with mem := m, work := { s.work with errY := errY, drow := drow } }

theorem dstRowAddr_succ (s : State) (y : Nat) :
    s.dstRowAddr (y + 1) = s.dstRowAddr y + s.newWidth.toNat * s.bpp := by
  simp only [State.dstRowAddr, Nat.add_mul, Nat.one_mul]; omega

theorem dstRowAddr_add (s : State) (y j : Nat) :
    s.dstRowAddr (y + j) = s.dstRowAddr y + j * (s.newWidth.toNat * s.bpp) := by
  simp only [State.dstRowAddr, Nat.add_mul, Nat.mul_assoc]; omega

/-- R202's loop with R203's duplicates: drow moves on by errY / H rows, all of which hold the row written last, and the
remainder is left in errY. -/
theorem finishRows_spec (n : Nat) : ∀ s : State, 1 ≤ s.height.toNat → s.work.errY ≤ n → Memory.wf s.mem →
    ∃ m : Memory,
      finishRows n s =
        rowMoved m (s.work.errY % s.height.toNat) (s.work.drow + s.work.errY / s.height.toNat) s ∧
      m.wf ∧
      (∀ j < s.work.errY / s.height.toNat,
        m.readBytes (s.dstRowAddr (s.work.drow + j)) (s.newWidth.toNat * s.bpp) =
          s.mem.readBytes (s.dstRowAddr s.work.drow) (s.newWidth.toNat * s.bpp)) ∧
      (∀ x, (x < s.dstRowAddr (s.work.drow + 1) ∨
          s.dstRowAddr (s.work.drow + s.work.errY / s.height.toNat) ≤ x) → m.read x = s.mem.read x) ∧
      (∀ p ∈ m, p ∈ s.mem ∨
        (s.dstRowAddr (s.work.drow + 1) ≤ p.1 ∧ p.1 < s.dstRowAddr (s.work.drow + s.work.errY / s.height.toNat))) := by
  induction n with
  | zero =>
    intro s hh hn hm
    have hq : s.work.errY / s.height.toNat = 0 := Nat.div_eq_of_lt (by omega)
    have hr : s.work.errY % s.height.toNat = s.work.errY := Nat.mod_eq_of_lt (by omega)
    refine ⟨s.mem, ?_, hm, ?_, fun x _ => rfl, fun p hp => .inl hp⟩
    · rw [hq, hr]; rfl
    · intro j hj; omega
  | succ n ih =>
    intro s hh hn hm
    rw [finishRows]
    split
    · rename_i hle
      obtain ⟨hd, hmod⟩ := div_mod_of_le hh hle
      by_cases h2 : 2 * s.height.toNat ≤ s.work.errY
      · -- the row is duplicated first
        have hf : finishRow s =
            { duplicateRow s with work := { s.work with errY := s.work.errY - s.height.toNat,
                                                        drow := s.work.drow + 1 } } := by
          simp only [finishRow, if_pos h2]; rfl
        have hq1 : 1 ≤ (s.work.errY - s.height.toNat) / s.height.toNat :=
          (Nat.one_le_div_iff (by omega)).2 (by omega)
        obtain ⟨m, g1, g2, g3, g4, g5⟩ := ih (finishRow s) (by rw [hf]; exact hh)
          (by rw [hf]; show s.work.errY - s.height.toNat ≤ n; omega)
          (by rw [hf]; exact Memory.wf_writeBytes hm _ _)
        have e1 : (finishRow s).work.errY = s.work.errY - s.height.toNat := by rw [hf]
        have e2 : (finishRow s).work.drow = s.work.drow + 1 := by rw [hf]
        have e3 : (finishRow s).height = s.height := by rw [hf]; rfl
        have e4 : ∀ y, (finishRow s).dstRowAddr y = s.dstRowAddr y := by intro y; rw [hf]; rfl
        have e5 : (finishRow s).newWidth = s.newWidth := by rw [hf]; rfl
        have e6 : (finishRow s).bpp = s.bpp := by rw [hf]; rfl
        have e7 : (finishRow s).mem = s.mem.writeBytes (s.dstRowAddr (s.work.drow + 1))
            (s.mem.readBytes (s.dstRowAddr s.work.drow) (s.newWidth.toNat * s.bpp)) := by rw [hf]; rfl
        have hlen : (s.mem.readBytes (s.dstRowAddr s.work.drow) (s.newWidth.toNat * s.bpp)).length =
            s.newWidth.toNat * s.bpp := by simp
        simp only [e1, e2, e3, e4, e5, e6, e7] at g3 g4 g5
        have hr1 := dstRowAddr_succ s s.work.drow
        have hr2 := dstRowAddr_succ s (s.work.drow + 1)
        have hq := dstRowAddr_add s (s.work.drow + 1) ((s.work.errY - s.height.toNat) / s.height.toNat)
        have hqq : 1 * (s.newWidth.toNat * s.bpp) ≤
            (s.work.errY - s.height.toNat) / s.height.toNat * (s.newWidth.toNat * s.bpp) :=
          Nat.mul_le_mul_right _ hq1
        have hshift : s.work.drow + ((s.work.errY - s.height.toNat) / s.height.toNat + 1) =
            s.work.drow + 1 + (s.work.errY - s.height.toNat) / s.height.toNat := by omega
        refine ⟨m, ?_, g2, ?_, ?_, ?_⟩
        · rw [g1, e1, e2, e3, hmod, hd, hshift]
          rw [hf]; rfl
        · intro j hj
          rw [hd] at hj
          cases j with
          | zero =>
            refine Memory.readBytes_eq_iff.2 fun i hi => ?_
            rw [Nat.add_zero, g4 _ (.inl (by omega))]
            exact Memory.read_writeBytes_out hm (.inl (by omega))
          | succ j =>
            have : s.work.drow + (j + 1) = s.work.drow + 1 + j := by omega
            rw [this, g3 j (by omega)]
            have := Memory.readBytes_writeBytes_same hm (s.dstRowAddr (s.work.drow + 1))
              (s.mem.readBytes (s.dstRowAddr s.work.drow) (s.newWidth.toNat * s.bpp))
            rwa [hlen] at this
        · intro x hx
          rw [hd, hshift] at hx
          rw [g4 x (by omega)]
          exact Memory.read_writeBytes_out hm (by rw [hlen]; omega)
        · intro p hp
          rw [hd, hshift]
          rcases g5 p hp with hp | hp
          · rcases Memory.mem_writeBytes hp with hp | hp
            · exact .inl hp
            · rw [hlen] at hp; exact .inr (by omega)
          · exact .inr (by omega)
      · have hf : finishRow s =
            { s with work := { s.work with errY := s.work.errY - s.height.toNat, drow := s.work.drow + 1 } } := by
          simp only [finishRow, if_neg h2]
        have hq0 : (s.work.errY - s.height.toNat) / s.height.toNat = 0 := Nat.div_eq_of_lt (by omega)
        obtain ⟨m, g1, g2, -, g4, g5⟩ := ih (finishRow s) (by rw [hf]; exact hh)
          (by rw [hf]; show s.work.errY - s.height.toNat ≤ n; omega) (by rw [hf]; exact hm)
        have e1 : (finishRow s).work.errY = s.work.errY - s.height.toNat := by rw [hf]
        have e2 : (finishRow s).work.drow = s.work.drow + 1 := by rw [hf]
        have e3 : (finishRow s).height = s.height := by rw [hf]
        have e4 : ∀ y, (finishRow s).dstRowAddr y = s.dstRowAddr y := by intro y; rw [hf]; rfl
        have e7 : (finishRow s).mem = s.mem := by rw [hf]
        simp only [e1, e2, e3, e4, e7, hq0, Nat.add_zero] at g4 g5
        have hr2 := dstRowAddr_succ s (s.work.drow + 1)
        refine ⟨m, ?_, g2, ?_, ?_, ?_⟩
        · rw [g1, e1, e2, e3, hmod, hd, hq0]
          rw [hf]; rfl
        · intro j hj
          have hj0 : j = 0 := by omega
          subst hj0
          exact Memory.readBytes_eq_iff.2 fun i hi => g4 _ (by omega)
        · intro x hx
          exact g4 x (by omega)
        · intro p hp
          rcases g5 p hp with hp | hp
          · exact .inl hp
          · omega
    · rename_i hlt
      have hq : s.work.errY / s.height.toNat = 0 := Nat.div_eq_of_lt (by omega)
      have hr : s.work.errY % s.height.toNat = s.work.errY := Nat.mod_eq_of_lt (by omega)
      refine ⟨s.mem, ?_, hm, ?_, fun x _ => rfl, fun p hp => .inl hp⟩
      · rw [hq, hr]; rfl
      · intro j hj; omega

/-- One part of a running SCALE: completion after the last row, the next column, or the row's end. -/
theorem scaleIter_cases (s : State) :
    (s.height.toNat ≤ s.work.i ∧ scaleIter s = scaleComplete s) ∨
    (s.work.i < s.height.toNat ∧ s.work.c < s.width.toNat ∧ scaleIter s = scaleColumn s) ∨
    (s.work.i < s.height.toNat ∧ s.width.toNat ≤ s.work.c ∧ scaleIter s = scaleRowEnd s) := by
  unfold scaleIter
  split
  · exact .inl ⟨by assumption, rfl⟩
  · split
    · exact .inr (.inl ⟨by omega, by assumption, rfl⟩)
    · exact .inr (.inr ⟨by omega, by omega, rfl⟩)

end Sys2Proof.Machine
end

