-- ==== Sys2Proof/Laws/Engine.lean ====
section
/-! SUPPORT. The engine's rounds: what one round of a running body is, and all it can change. -/

namespace Sys2Proof.Machine

/-- The inner loops of SCALE change only memory and the working state. -/
theorem copyColumns_frame (n : Nat) : ∀ u : State, ∃ m w, copyColumns n u = { u with mem := m, work := w } := by
  induction n with
  | zero => exact fun u => ⟨u.mem, u.work, rfl⟩
  | succ n ih =>
    intro u
    rw [copyColumns]
    split
    · obtain ⟨m, w, q⟩ := ih (copyColumn u)
      exact ⟨m, w, q⟩
    · exact ⟨u.mem, u.work, rfl⟩

theorem finishRows_frame (n : Nat) : ∀ u : State, ∃ m w, finishRows n u = { u with mem := m, work := w } := by
  induction n with
  | zero => exact fun u => ⟨u.mem, u.work, rfl⟩
  | succ n ih =>
    intro u
    rw [finishRows]
    split
    · obtain ⟨m, w, q⟩ := ih (finishRow u)
      rw [q]
      unfold finishRow duplicateRow
      split <;> exact ⟨_, _, rfl⟩
    · exact ⟨u.mem, u.work, rfl⟩

theorem scaleColumn_frame (s : State) : ∃ m w, scaleColumn s = { s with mem := m, work := w } := by
  obtain ⟨m, w, q⟩ := copyColumns_frame (s.work.errX + s.newWidth.toNat)
    { s with work := { s.work with errX := s.work.errX + s.newWidth.toNat } }
  unfold scaleColumn
  simp only
  rw [q]
  exact ⟨_, _, rfl⟩

theorem scaleRowEnd_frame (s : State) : ∃ m w, scaleRowEnd s = { s with mem := m, work := w } := by
  obtain ⟨m, w, q⟩ := finishRows_frame (s.work.errY + s.newHeight.toNat)
    { s with work := { s.work with errY := s.work.errY + s.newHeight.toNat } }
  unfold scaleRowEnd
  simp only
  rw [q]
  exact ⟨_, _, rfl⟩

/-- One round of a running body: once round DECODE's or ENCODE's loop, or one part of SCALE. -/
def bodyRound (op : Op) (s : State) : State :=
  match op with
  | .decode => decodeIter s
  | .encode => encodeIter s
  | .scale => scaleIter s
  | .illegal => complete .illegalCommand Progress.zero s

/-- A body whose checks hold goes one round; DECODE's packets are executed as instructions there. -/
theorem bodyStep_eq {op : Op} {s : State} (h1 : s.phase = .busy op) (h2 : s.work.stage = .body)
    (h3 : checkError op s = none) : bodyStep op s = .next (bodyRound op s) := by
  cases op with
  | encode => simp [bodyStep, h3, bodyRound]
  | scale => simp [bodyStep, h3, bodyRound]
  | illegal => simp [bodyStep, h3, bodyRound]
  | decode =>
    simp only [bodyStep, h3, if_true, bodyRound]
    split
    · rename_i hd
      simp only [headerDue, Bool.and_eq_true, decide_eq_true_eq] at hd
      have hr : decodeRunning (fetchHeader s) = true := (decodeRunning_iff _).2 ⟨h1, h2,
        (checkError_congr .decode (s := s) rfl rfl rfl rfl rfl rfl rfl rfl rfl rfl rfl).trans h3⟩
      unfold decodeIter
      rw [if_neg (by omega), if_neg (by omega)]
      simp only [decodeHeader]
      split <;> simp [exec, execRun, execRaw, hr]
    · rfl

/-- All that a round can change: it completes, or it moves memory and the working state. -/
theorem bodyRound_cases (op : Op) (s : State) :
    (∃ e p, bodyRound op s = complete e p s) ∨ (op = .scale ∧ bodyRound op s = scaleComplete s) ∨
    (∃ m w, bodyRound op s = { s with mem := m, work := w }) := by
  cases op with
  | illegal => exact .inl ⟨_, _, rfl⟩
  | decode =>
    rcases decodeIter_cases s with h | h | ⟨h1, h2, h3⟩
    · exact .inl ⟨_, _, h.2⟩
    · exact .inl ⟨_, _, h.2.2⟩
    · rw [packetAt_eq] at h3
      rcases decodePacket_cases (headerCount (s.mem.read s.headerAddr))
        (payloadLength (fetchHeader s).bpp (decodeHeader (s.mem.read s.headerAddr)))
        (headerPixel (s.mem.read s.headerAddr) (fetchHeader s).bpp) (fetchHeader s) with ⟨-, b⟩ | ⟨-, -, c⟩ | ⟨-, -, c⟩
      · exact .inl ⟨_, _, h3.trans b⟩
      · exact .inl ⟨_, _, h3.trans c⟩
      · exact .inr (.inr ⟨_, _, h3.trans c⟩)
  | encode =>
    rcases encodeIter_cases s with h | h | h
    · exact .inl ⟨_, _, h.2⟩
    · exact .inl ⟨_, _, h.2.2⟩
    · exact .inr (.inr ⟨_, _, h.2.2⟩)
  | scale =>
    show _ ∨ (_ ∧ scaleIter s = _) ∨ ∃ m w, scaleIter s = _
    rcases scaleIter_cases s with h | h | h
    · exact .inr (.inl ⟨rfl, h.2⟩)
    · rw [h.2.2]; exact .inr (.inr (scaleColumn_frame s))
    · rw [h.2.2]; exact .inr (.inr (scaleRowEnd_frame s))

/-- The whole loops are rounds, until the engine is Idle. -/
theorem decodeLoop_succ (n : Nat) (s : State) :
    decodeLoop (n + 1) s = if s.phase = .idle then s else decodeLoop n (bodyRound .decode s) := by
  cases h : s.phase <;> simp [decodeLoop, bodyRound, h]

theorem encodeLoop_succ (n : Nat) (s : State) :
    encodeLoop (n + 1) s = if s.phase = .idle then s else encodeLoop n (bodyRound .encode s) := by
  cases h : s.phase <;> simp [encodeLoop, bodyRound, h]

end Sys2Proof.Machine
end

