-- ==== Sys2Proof/Laws/HostPort.lean ====
section
/-! SUPPORT. The register port by register name instead of bus address, and what RST leaves in memory. -/

namespace Sys2Proof.Machine

theorem regOffset_lt (r : Reg) : regOffset r < 0x80 := by cases r <;> decide

theorem regOffset_aligned (r : Reg) : regOffset r % 4 = 0 := by cases r <;> decide

theorem regAt_regOffset (r : Reg) : regAt (regOffset r) = some r := by cases r <;> rfl

theorem regAt_unused {off : Nat} (h : ∀ r, off ≠ regOffset r) : regAt off = none := by
  simp only [regAt, List.find?_eq_none, beq_iff_eq]
  exact fun r _ => Ne.symm (h r)

/-- An offset below 0x80 is the offset its bus address has in the window (R24). -/
theorem windowOffset_in (cfg : Config) {off : Nat} (h : off < 0x80) : windowOffset cfg (regBase cfg + off) = some off := by
  simp only [windowOffset, Config.windowSize]
  rw [if_pos (by omega), Nat.add_sub_cancel_left]

theorem windowOffset_out {cfg : Config} {addr : Nat} (h : addr < regBase cfg ∨ regBase cfg + 0x80 ≤ addr) :
    windowOffset cfg addr = none := by
  simp only [windowOffset, Config.windowSize]
  rw [if_neg (by omega)]

/-- A bus address of the window is its base and its offset. -/
theorem windowOffset_some {cfg : Config} {addr off : Nat} (h : windowOffset cfg addr = some off) :
    addr = regBase cfg + off ∧ off < 0x80 := by
  simp only [windowOffset, Config.windowSize] at h
  split at h
  · cases h; omega
  · cases h

/-- The register an offset names has that offset (R24). -/
theorem regOffset_of_regAt {off : Nat} {r : Reg} (h : regAt off = some r) : off = regOffset r := by
  have := List.find?_some h
  exact (beq_iff_eq.1 this).symm

/-- An aligned 32-bit read of a register's bus address reads the register. -/
theorem hostRegRead_reg (s : State) (r : Reg) :
    hostRegRead (regBase s.config + regOffset r) 32 s = readReg r s := by
  simp [hostRegRead, windowOffset_in _ (regOffset_lt r), accessOk, regOffset_aligned, regAt_regOffset]

/-- An aligned 32-bit write of a register's bus address writes the register. -/
theorem hostRegWrite_reg (s : State) (r : Reg) (v : Word) :
    hostRegWrite (regBase s.config + regOffset r) 32 v s = writeReg r v { s with reply := .none } := by
  simp [hostRegWrite, windowOffset_in _ (regOffset_lt r), accessOk, regOffset_aligned, regAt_regOffset]

/-- Everything a host register read can do: answer, and count a free draw. -/
theorem hostRegRead_cases (addr width : Nat) (s : State) :
    ∃ (p : Reply) (d : Nat), hostRegRead addr width s = { s with reply := p, draws := d } := by
  unfold hostRegRead
  split
  · exact ⟨_, _, rfl⟩
  · split
    · split
      · unfold readReg
        split <;> exact ⟨_, _, rfl⟩
      · exact ⟨_, _, rfl⟩
    · exact ⟨_, _, rfl⟩

/-- Everything a host register write can do: nothing, or one aligned 32-bit write of one register of the map. -/
theorem hostRegWrite_cases (addr width : Nat) (v : Word) (s : State) :
    hostRegWrite addr width v s = { s with reply := .none } ∨
    ∃ r : Reg, addr = regBase s.config + regOffset r ∧ width = 32 ∧
      hostRegWrite addr width v s = writeReg r v { s with reply := .none } := by
  unfold hostRegWrite
  simp only [accessOk, Bool.and_eq_true, decide_eq_true_eq]
  split
  · exact .inl rfl
  · rename_i off h1
    split
    · rename_i h2
      split
      · rename_i r h3
        have h4 := windowOffset_some h1
        rw [regOffset_of_regAt h3] at h4
        exact .inr ⟨r, h4.1, h2.1, rfl⟩
      · exact .inl rfl
    · exact .inl rfl

/-- What R265 forbids while `op` runs. -/
theorem races_of_busy {s : State} {op : Op} (h : s.phase = .busy op) (a : Nat) :
    readRaces s a = (writeRegion op s).contains a ∧
    writeRaces s a = ((readRegion op s).contains a || (writeRegion op s).contains a) := by
  simp [readRaces, writeRaces, h]

/-- The bytes RST during a command leaves (R262): a free value in every existing byte of the range, the rest as before. -/
theorem read_scramble {cfg : Config} {m : Memory} (h : m.wf) (d base n : Nat) :
    (scramble cfg d base m n).wf ∧
    ∀ a, (scramble cfg d base m n).read a =
      if base ≤ a ∧ a < base + n ∧ memOk cfg a = true then Config.freeByte (d + (a - base)) else m.read a := by
  induction n with
  | zero => exact ⟨h, fun a => by rw [if_neg (by omega)]; rfl⟩
  | succ n ih =>
    simp only [scramble]
    split
    · rename_i hok
      refine ⟨Memory.wf_write ih.1 _ _, fun a => ?_⟩
      rw [Memory.read_write ih.1]
      by_cases ha : a = base + n
      · subst ha
        rw [if_pos rfl, if_pos ⟨by omega, by omega, hok⟩, Nat.add_sub_cancel_left]
      · rw [if_neg ha, ih.2 a]
        congr 1
        simp only [eq_iff_iff]
        constructor <;> rintro ⟨a1, a2, a3⟩ <;> exact ⟨a1, by omega, a3⟩
    · rename_i hok
      refine ⟨ih.1, fun a => ?_⟩
      rw [ih.2 a]
      congr 1
      simp only [eq_iff_iff]
      constructor
      · rintro ⟨a1, a2, a3⟩
        exact ⟨a1, by omega, a3⟩
      · rintro ⟨a1, a2, a3⟩
        refine ⟨a1, ?_, a3⟩
        by_cases ha : a = base + n
        · subst ha
          exact absurd a3 hok
        · omega

/-- RST puts entries nowhere but in existing bytes of the range. -/
theorem mem_scramble {cfg : Config} {d base n : Nat} {m : Memory} {p : Host.Cell} (h : p ∈ scramble cfg d base m n) :
    p ∈ m ∨ memOk cfg p.1 = true := by
  induction n with
  | zero => exact .inl h
  | succ n ih =>
    simp only [scramble] at h
    split at h
    · rename_i hok
      rcases Memory.mem_write h with h | ⟨h, -⟩
      · exact ih h
      · rw [h]; exact .inr hok
    · exact ih h

end Sys2Proof.Machine
end

