-- ==== Sys2Proof/Laws/PerInstr.lean ====
section
/-! SUPPORT. One lemma per constructor: the unit the encoder gives an instruction is one that its row of
spec/opcode_table.json matches. -/

namespace Sys2Proof.Laws.TableRow

/-- The row of spec/opcode_table.json: how many bits it has, its mask, its match. -/
def row : Instr → Nat × Nat × Nat
  | .raw _  => (8, 0x80, 0x00)
  | .run _  => (8, 0x80, 0x80)
  | .decode => (32, 0xFFFFFFFF, 0x00000001)
  | .encode => (32, 0xFFFFFFFF, 0x00000002)
  | .scale  => (32, 0xFFFFFFFF, 0x00000003)

/-- The bits of a unit and how many there are. -/
def bits : CodeWord → Nat × Nat
  | .header h  => (8, h.toNat)
  | .command w => (32, w.toNat)

/-- A well-formed instruction's unit has its row's width, and its masked bits are its row's match. -/
def Statement (i : Instr) : Prop :=
  i.wf = true → (bits (encode i)).1 = (row i).1 ∧ (bits (encode i)).2 &&& (row i).2.1 = (row i).2.2

theorem low_header : ∀ n < 128, n &&& 0x80 = 0 := by decide

theorem high_header : ∀ n < 128, (128 + n) &&& 0x80 = 0x80 := by decide

theorem raw (count : Nat) : Statement (.raw count) := by
  intro h
  simp only [Instr.wf, Config.pktMax, Bool.and_eq_true, decide_eq_true_eq] at h
  refine ⟨rfl, ?_⟩
  simp only [bits, encode, row, rawHeader_toNat h.1 h.2]
  exact low_header _ (by omega)

theorem run (count : Nat) : Statement (.run count) := by
  intro h
  simp only [Instr.wf, Config.pktMax, Bool.and_eq_true, decide_eq_true_eq] at h
  refine ⟨rfl, ?_⟩
  simp only [bits, encode, row, runHeader_toNat h.1 h.2]
  exact high_header _ (by omega)

theorem decode : Statement .decode := fun _ => by decide

theorem encode : Statement .encode := fun _ => by decide

theorem scale : Statement .scale := fun _ => by decide

end Sys2Proof.Laws.TableRow
end

