-- ==== Sys2Proof/Tests/Slice0.lean ====
section
/-! SUPPORT. Small tests, each with its expected result taken from spec/95_test_vectors.md or spec/30_encoding.md, and the
witnesses: for every statement with hypotheses, a concrete state that meets them. -/

namespace Sys2Proof.Machine.Tests

open Sys2Proof Sys2Proof.Machine

-- A kernel evaluation waits for everything above it, so many at once would hold many threads.
set_option Elab.async false

/-! ### Well-formedness and decoding -/

theorem test_raw_0_is_ill_formed : (Instr.raw 0).wf = false := by decide
theorem test_raw_129_is_ill_formed : (Instr.raw 129).wf = false := by decide
theorem test_run_0_is_ill_formed : (Instr.run 0).wf = false := by decide
theorem test_run_129_is_ill_formed : (Instr.run 129).wf = false := by decide
theorem test_raw_128_is_well_formed : (Instr.raw 128).wf = true := by decide
theorem test_run_1_is_well_formed : (Instr.run 1).wf = true := by decide

/-- L1-5: 0x7E is RAW 127. -/
theorem test_decode_raw : decode (.header 0b01111110#8) = .ok (.raw 127) := by decide
/-- L1-5: 0x81 is RUN 2. -/
theorem test_decode_run : decode (.header 0b10000001#8) = .ok (.run 2) := by decide
/-- 30_encoding.md: the command words. -/
theorem test_decode_decode : decode (.command 0b00000000000000000000000000000001#32) = .ok .decode := by decide
theorem test_decode_encode : decode (.command 0b00000000000000000000000000000010#32) = .ok .encode := by decide
theorem test_decode_scale : decode (.command 0b00000000000000000000000000000011#32) = .ok .scale := by decide
/-- K3: low byte 1, but not the whole word. -/
theorem test_decode_illegal : decode (.command 0x00000101#32) = .error (.illegalCommand 0x00000101#32) := by decide

/-! ### States for the tests -/

/-- What a step that goes on leaves, seen through `f`. -/
def seen {α : Type} (f : State → α) : Host.Outcome State Fault Refusal → Option α
  | .next t    => some (f t)
  | .fault _   => none
  | .refused _ => none

/-- ERROR, IN_USED, OUT_USED and PIX_DONE as numbers. -/
def report (t : State) : ErrorCode × Nat × Nat × Nat := (t.error, t.inUsed.toNat, t.outUsed.toNat, t.pixDone.toNat)

/-- Registers of the L2 tables: an image at 0x1000, a stream at 0x100, a destination at 0x2000. -/
def setUp (w h b srcLen dstLen : Word) (mem : Memory) : State :=
  { State.reset with
    width := w, height := h, bytesPP := b, pixBase := 0x1000, srcBase := 0x100, srcLen := srcLen,
    dstBase := 0x2000, dstLen := dstLen, mem := mem }

/-- Memory with bytes from an address on. -/
def bytesAt (a : Nat) (bs : List Byte) (m : Memory) : Memory := m.writeBytes a bs

/-- L2.2's pixel buffer, pre-filled with EE, and a stream. -/
def stream (n : Nat) (bs : List Byte) : Memory := bytesAt 0x1000 (List.replicate n 0xEE) (bytesAt 0x100 bs [])

/-- A DECODE in its body at the first header of DV1's stream, 4×1, B = 1. -/
def decoding : State := beginBody .decode { setUp 4 1 1 5 0 (stream 4 [0x03, 0x0A, 0x0B, 0x0C, 0x0D]) with cmd := 1 }

/-- The same, at its start. -/
def decodeStarted : State := commandStart 1 (setUp 4 1 1 5 0 (stream 4 [0x03, 0x0A, 0x0B, 0x0C, 0x0D]))

/-- An ENCODE of EV21's image at its start and in its body. -/
def encodeStarted : State := commandStart 2 (setUp 3 2 1 0 12 (bytesAt 0x1000 [0x10, 0x20, 0x30, 0x30, 0x30, 0x40] []))
def encoding : State := beginBody .encode encodeStarted

/-- A SCALE of SV1 at its start and in its body. -/
def scaleStarted : State :=
  commandStart 3 { setUp 2 2 1 0 9 (bytesAt 0x1000 [0x11, 0x22, 0x33, 0x44] []) with newWidth := 3, newHeight := 3 }
def scaling : State := beginBody .scale scaleStarted

/-! ### The instructions -/

/-- DV1's packet. -/
theorem test_raw_copies :
    seen (fun t => (t.mem.readBytes 0x1000 4, t.work.inpos, t.work.pix)) (exec (.raw 4) decoding) =
      some ([0x0A, 0x0B, 0x0C, 0x0D], 5, 4) := by decide +kernel
/-- DV8: a short payload writes nothing. -/
theorem test_raw_short_payload :
    seen (fun t => (report t, t.mem.readBytes 0x1000 4)) (exec (.raw 4) { decoding with srcLen := 3 }) =
      some ((.unexpectedEndOfStream, 0, 0, 0), [0xEE, 0xEE, 0xEE, 0xEE]) := by decide +kernel
/-- DV2's packet. -/
theorem test_run_repeats :
    seen (fun t => (t.mem.readBytes 0x1000 4, t.work.inpos, t.work.pix))
      (exec (.run 4) { decoding with srcLen := 2, mem := stream 4 [0x83, 0x07] }) =
      some ([0x07, 0x07, 0x07, 0x07], 2, 4) := by decide +kernel
/-- DV9: count 5 overflows 4 pixels. -/
theorem test_run_overflow :
    seen (fun t => (report t, t.mem.readBytes 0x1000 4)) (exec (.run 5) { decoding with srcLen := 2 }) =
      some ((.pixelCountOverflow, 0, 0, 0), [0xEE, 0xEE, 0xEE, 0xEE]) := by decide +kernel
/-- DV3. -/
theorem test_decode_two_packets :
    seen (fun t => (report t, t.mem.readBytes 0x1000 12))
      (exec .decode (setUp 2 2 3 11 0
        (stream 12 [0x81, 0x01, 0x02, 0x03, 0x01, 0xAA, 0xBB, 0xCC, 0xDD, 0xEE, 0xFF]))) =
      some ((.success, 11, 0, 4),
        [0x01, 0x02, 0x03, 0x01, 0x02, 0x03, 0xAA, 0xBB, 0xCC, 0xDD, 0xEE, 0xFF]) := by decide +kernel
/-- DV15. -/
theorem test_decode_stream_ends :
    seen (fun t => (report t, t.mem.readBytes 0x1000 4))
      (exec .decode (setUp 4 1 1 7 0 (stream 4 [0x00, 0x01, 0x00, 0x02, 0x80, 0x03, 0x00]))) =
      some ((.unexpectedEndOfStream, 6, 0, 3), [0x01, 0x02, 0x03, 0xEE]) := by decide +kernel
/-- EV21: a run across the row boundary, and the look-ahead before it. -/
theorem test_encode_run_and_raw :
    seen (fun t => (report t, t.mem.readBytes 0x2000 8)) (step encodeStarted) =
      some ((.success, 0, 7, 6), [0x01, 0x10, 0x20, 0x82, 0x30, 0x00, 0x40, 0x00]) := by decide +kernel
/-- EV23: the second packet does not fit. -/
theorem test_encode_overflow :
    seen (fun t => (report t, t.mem.readBytes 0x2000 4))
      (exec .encode (setUp 4 1 1 0 3 (bytesAt 0x1000 [0xA1, 0xA1, 0xB2, 0xC3] []))) =
      some ((.outputOverflow, 0, 2, 2), [0x81, 0xA1, 0x00, 0x00]) := by decide +kernel
/-- SV1, with the registers of R205. -/
theorem test_scale_up :
    seen (fun t => (report t, t.mem.readBytes 0x2000 9, [t.width, t.height, t.pixBase, t.dstBase, t.dstLen]))
      (step scaleStarted) =
      some ((.success, 0, 9, 9), [0x11, 0x22, 0x22, 0x33, 0x44, 0x44, 0x33, 0x44, 0x44], [3, 3, 0x2000, 0x1000, 4]) := by
  decide +kernel
/-- SV10: narrower and higher at once. -/
theorem test_scale_down_and_up :
    seen (fun t => (report t, t.mem.readBytes 0x2000 6))
      (exec .scale { setUp 3 2 1 0 6 (bytesAt 0x1000 [0x10, 0x11, 0x12, 0x13, 0x14, 0x15] []) with
        newWidth := 2, newHeight := 3 }) =
      some ((.success, 0, 6, 6), [0x11, 0x12, 0x14, 0x15, 0x14, 0x15]) := by decide +kernel

/-! ### Checks, registers, reset, fetching -/

/-- K18: IoFailure before RegionOverlap. -/
theorem test_io_failure_before_overlap :
    seen report (exec .encode { setUp 4 1 1 2 8 [] with dstBase := 0x1000, config := ⟨0, [⟨0x1001, 1⟩]⟩ }) =
      some (.ioFailure, 0, 0, 0) := by decide +kernel
/-- K24 and its neighbour: one byte past 2^32, and exactly 2^32. -/
theorem test_region_ends :
    regionOk ⟨0, []⟩ ⟨0x20000, 4294836225⟩ = false ∧ regionOk ⟨0, []⟩ ⟨0x1FFFF, 4294836225⟩ = true := by decide
/-- RV7: a write of WIDTH while a command runs; STATUS then reads 0x9. -/
theorem test_write_while_busy :
    seen (fun t => (t.width, statusWord t)) (step { decodeStarted with inputs := [.regWrite 0x10 32 7] }) =
      some (4, 0x9) := by decide +kernel
/-- RV13: a 16-bit read at offset 0x04 returns 0. -/
theorem test_narrow_read :
    seen (fun t => t.reply) (step { State.reset with done := true, inputs := [.regRead 0x04 16] }) =
      some (.word 0) := by decide +kernel
/-- RV2: WR CMD, 1 just after reset, then the command: STATUS = 0x6, IRQ low. -/
theorem test_first_command :
    seen (fun t => (report t, statusWord t, t.irq)) (steps 2 { State.reset with inputs := [.regWrite 0 32 1] }) =
      some ((.invalidFormat, 0, 0, 0), 0x6, false) := by decide +kernel
/-- A command word placed at reset is what the next step runs. -/
theorem test_fetch_command :
    seen report (step (State.reset.withFetchWord 32 2)) = some (.invalidFormat, 0, 0, 0) := by decide +kernel
/-- A packet placed at reset is what the next step runs: RUN 3 of the pixel 00. -/
theorem test_fetch_packet :
    seen (fun t => (t.work.inpos, t.work.pix, t.work.header)) (step (State.reset.withFetchWord 8 0x82)) =
      some (2, 3, 0x82) := by decide +kernel

/-! ### Witnesses: states and operands that meet a statement's hypotheses, together -/

theorem witness_EveryHeaderIsAPacket : (127#8).toNat < 128 ∧ 128 ≤ (128#8).toNat := by decide

theorem witness_DecodeInvertsEncode :
    (Instr.raw 1).wf = true ∧ (Instr.raw 128).wf = true ∧ (Instr.run 1).wf = true ∧ (Instr.run 128).wf = true ∧
    Instr.scale.wf = true := by decide

theorem witness_EncodeInvertsDecode :
    decode (.header 0xFF#8) = .ok (.run 128) ∧ decode (.command 0x00000003#32) = .ok .scale ∧
    (4#32 ≠ 1 ∧ 4#32 ≠ 2 ∧ 4#32 ≠ 3) := by decide

theorem witness_StepRunsTheCommand :
    scaleStarted.inputs = [] ∧ scaleStarted.phase = .busy .scale ∧ scaleStarted.work.stage = .checks ∧
    decode (.command scaleStarted.cmd) = .ok .scale := by decide

theorem witness_StepRunsThePacket :
    decoding.inputs = [] ∧ inBody .decode decoding ∧ decoding.work.pix < decoding.total ∧
    decoding.work.inpos < decoding.srcLen.toNat :=
  ⟨rfl, ⟨rfl, rfl, by decide +kernel⟩, by decide +kernel, by decide +kernel⟩

theorem witness_IllegalCommandEndsAtOnce :
    let s := commandStart 4 State.reset
    s.inputs = [] ∧ s.phase = .busy .illegal ∧ s.work.stage = .checks ∧ (s.cmd ≠ 1 ∧ s.cmd ≠ 2 ∧ s.cmd ≠ 3) := by decide

theorem witness_ResetLeavesZero : (Instr.decode, Op.decode) ∈ commands ∧ (Instr.scale, Op.scale) ∈ commands := by decide

theorem witness_RstResetsTheBlock : State.reset.phase = .idle := rfl

theorem witness_RstDuringACommandFreesItsWriteRegion :
    decodeStarted.phase = .busy .decode ∧ Memory.wf decodeStarted.mem := by decide +kernel

/-- 0x44 and 0x7C are the first and the last unused offset. -/
theorem unused_offsets : (∀ r, 0x44 ≠ regOffset r) ∧ (∀ r, 0x7C ≠ regOffset r) :=
  ⟨fun r => by cases r <;> decide, fun r => by cases r <;> decide⟩

theorem witness_HostReadAnswersTheRegister :
    (isProgress .dstLen = false ∧ State.reset.phase = .idle) ∧
    (isProgress .inUsed = true ∧ isProgress .pixDone = true ∧ decodeStarted.phase = .busy .decode) ∧
    (0x44 < 0x80 ∧ 0x44 % 4 = 0 ∧ ∀ r, 0x44 ≠ regOffset r) ∧ (0x7C < 0x80 ∧ 0x7C % 4 = 0 ∧ ∀ r, 0x7C ≠ regOffset r) :=
  ⟨by decide, by decide, ⟨by decide, by decide, unused_offsets.1⟩, ⟨by decide, by decide, unused_offsets.2⟩⟩

theorem witness_OddAccessesDoNothing :
    (0x7F < 0x80 ∧ (32 ≠ 32 ∨ 0x7F % 4 ≠ 0)) ∧ (0x00 < 0x80 ∧ (16 ≠ 32 ∨ 0x00 % 4 ≠ 0)) := by decide

theorem witness_ParameterWriteWhileIdle :
    isParam .width = true ∧ isParam .dstLen = true ∧ State.reset.phase = .idle := by decide

theorem witness_WritesWhileBusy :
    decodeStarted.phase = .busy .decode ∧ (Reg.cmd = .cmd ∨ isParam .cmd = true) ∧ (Reg.width = .cmd ∨ isParam .width = true) ∧
    (isReadOnly .error = true ∧ isReadOnly .pixDone = true) ∧ (0x44 < 0x80 ∧ 0x44 % 4 = 0 ∧ ∀ r, 0x44 ≠ regOffset r) :=
  ⟨rfl, by decide, by decide, by decide, by decide, by decide, unused_offsets.1⟩

theorem witness_FlagWritesWhileIdle :
    State.reset.phase = .idle ∧ (isReadOnly .inUsed = true ∧ isReadOnly .outUsed = true) ∧
    (0x7C < 0x80 ∧ 0x7C % 4 = 0 ∧ ∀ r, 0x7C ≠ regOffset r) :=
  ⟨rfl, by decide, by decide, by decide, unused_offsets.2⟩

theorem witness_CommandWriteStartsTheCommand :
    State.reset.phase = .idle ∧ decodeStarted.phase = .busy .decode := by decide

theorem witness_InterruptIsALevel :
    (2#32).getLsbD 1 = true ∧ (0#32).getLsbD 0 = false ∧ State.reset.phase = .idle := by decide

theorem witness_AccessesOutsideTheWindow :
    (regBase State.reset.config + 0x80 ≤ 0x80) ∧
    (let s := { State.reset with config := ⟨1, []⟩ }; 0x7F < regBase s.config ∧ regBase s.config + 0x80 ≤ 0x100) := by decide

/-- Idle, at the first and the last byte of the space; running, a read of the read region's first and last byte, and reads
and writes just before and just past a region. -/
theorem witness_HostMemoryIsPlain :
    (Memory.wf State.reset.mem ∧ State.reset.phase = .idle ∧ memOk State.reset.config (0#32).toNat = true ∧
      memOk State.reset.config (0xFFFFFFFF#32).toNat = true) ∧
    (Memory.wf decodeStarted.mem ∧ decodeStarted.phase = .busy .decode ∧
      readRegion .decode decodeStarted = ⟨0x100, 5⟩ ∧ writeRegion .decode decodeStarted = ⟨0x1000, 4⟩ ∧
      ∀ a : Word, memOk decodeStarted.config a.toNat = true) ∧
    (∀ a ∈ [0x100, 0x104, 0x105, 0xFFF, 0x1004, 0xFFFFFFFF], ¬ inRegion ⟨0x1000, 4⟩ a) ∧
    ∀ a ∈ [0xFF, 0x105, 0xFFF, 0x1004, 0xFFFFFFFF], ¬ inRegion ⟨0x100, 5⟩ a ∧ ¬ inRegion ⟨0x1000, 4⟩ a := by
  refine ⟨by decide, ⟨by decide +kernel, rfl, by decide +kernel, by decide +kernel, fun a => ?_⟩, ?_, ?_⟩
  · simpa [memOk, decodeStarted, setUp, commandStart, State.reset, Config.addrSpace] using a.isLt
  · simp [inRegion]
  · simp [inRegion]

theorem witness_RunningRegionsAreTheEngines :
    decodeStarted.phase = .busy .decode ∧
    (readRegion .decode decodeStarted).contains (0x100#32).toNat = true ∧
    (readRegion .decode decodeStarted).contains (0x104#32).toNat = true ∧
    (writeRegion .decode decodeStarted).contains (0x1000#32).toNat = true ∧
    (writeRegion .decode decodeStarted).contains (0x1003#32).toNat = true ∧
    (writeRegion .decode decodeStarted).contains (0x104#32).toNat = false ∧
    memOk decodeStarted.config (0x104#32).toNat = true := by decide +kernel

/-- L2.1's base state, with changes. -/
def base : State := { setUp 4 1 1 2 8 [] with newWidth := 2, newHeight := 2 }

theorem witness_HolesAreNoMemory : memOk ⟨0, [⟨0x1001, 1⟩]⟩ (0x1001#32).toNat = false := by decide

/-- K4; K8 (and 0 beside it); K10; K11. -/
theorem witness_ParameterChecksInOrder :
    (¬ legalFormat { base with bytesPP := 0 } ∧ ¬ legalFormat { base with bytesPP := 2 }) ∧
    (legalFormat { base with width := 65536 } ∧ ¬ (inDim (65536#32) ∧ inDim base.height) ∧ ¬ (inDim base.width ∧ inDim (0#32))) ∧
    (legalFormat base ∧ inDim base.width ∧ inDim base.height ∧ (Instr.scale, Op.scale) ∈ commands ∧
      ¬ (inDim base.newWidth ∧ inDim (65536#32))) ∧
    (let s := { base with dstLen := 3 }
     legalFormat s ∧ inDim s.width ∧ inDim s.height ∧ inDim s.newWidth ∧ inDim s.newHeight ∧
       s.dstLen.toNat < s.newWidth.toNat * s.newHeight.toNat * s.bpp) := by
  simp only [legalFormat, inDim]
  decide +kernel

/-- A region below 2^32 on a platform without holes. -/
theorem backed_of_le {w : Nat} {r : Region} (h : r.base + r.len ≤ 4294967296) : backed ⟨w, []⟩ r :=
  ⟨.inr h, fun a _ h2 => by
    simp only [memOk, List.all_nil, Bool.and_true, decide_eq_true_eq, Config.addrSpace]
    omega⟩

/-- K13 (DECODE's stream ends past 2^32); an image past it; K21 (ENCODE in place). -/
theorem witness_RegionChecksInOrder :
    (let s := { base with srcBase := 0xFFFFFFF0, srcLen := 0x11 }
     paramsPass .decode s ∧ ¬ backed s.config (readRegion .decode s)) ∧
    (let s := { base with pixBase := 0xFFFFFFFD }
     paramsPass .decode s ∧ backed s.config (readRegion .decode s) ∧ ¬ backed s.config (writeRegion .decode s)) ∧
    (let s := { base with dstBase := 0x1000 }
     paramsPass .encode s ∧ backed s.config (readRegion .encode s) ∧ backed s.config (writeRegion .encode s) ∧
       overlapping (readRegion .encode s) (writeRegion .encode s)) ∧
    (paramsPass .encode base ∧ backed base.config (readRegion .encode base) ∧
       backed base.config (writeRegion .encode base) ∧
       ¬ overlapping (readRegion .encode base) (writeRegion .encode base)) := by
  refine ⟨⟨?_, ?_⟩, ⟨?_, backed_of_le (by decide +kernel), ?_⟩,
    ⟨?_, backed_of_le (by decide +kernel), backed_of_le (by decide +kernel), ?_⟩,
    ?_, backed_of_le (by decide +kernel), backed_of_le (by decide +kernel), ?_⟩
  case refine_2 | refine_4 =>
    rintro ⟨h, -⟩
    revert h
    decide +kernel
  all_goals
    simp only [paramsPass, legalFormat, inDim, overlapping]
    decide +kernel

theorem witness_RawPacketCopiesItsPixels :
    (Instr.raw 4).wf = true ∧ inBody .decode decoding ∧ Memory.wf decoding.mem ∧ decoding.work.pix + 4 ≤ decoding.total ∧
    decoding.work.inpos + 1 + 4 * decoding.bpp ≤ decoding.srcLen.toNat :=
  ⟨rfl, ⟨rfl, rfl, by decide +kernel⟩, by decide +kernel⟩

theorem witness_RunPacketRepeatsItsPixel :
    let s := { decoding with srcLen := 2 }
    (Instr.run 4).wf = true ∧ inBody .decode s ∧ Memory.wf s.mem ∧ s.work.pix + 4 ≤ s.total ∧
    s.work.inpos + 1 + s.bpp ≤ s.srcLen.toNat :=
  ⟨rfl, ⟨rfl, rfl, by decide +kernel⟩, by decide +kernel⟩

theorem witness_OverflowingPacketEndsDecode : inBody .decode decoding ∧ decoding.total < decoding.work.pix + 5 :=
  ⟨⟨rfl, rfl, by decide +kernel⟩, by decide +kernel⟩

theorem witness_ExhaustedStreamEndsDecode :
    (let s := { decoding with srcLen := 0 }
     s.inputs = [] ∧ inBody .decode s ∧ s.work.pix < s.total ∧ s.srcLen.toNat ≤ s.work.inpos) ∧
    (let s := { decoding with srcLen := 4 }
     inBody .decode s ∧ s.work.pix + 4 ≤ s.total ∧ s.srcLen.toNat < s.work.inpos + 1 + 4 * s.bpp) ∧
    (let s := { decoding with srcLen := 1 }
     inBody .decode s ∧ s.work.pix + 4 ≤ s.total ∧ s.srcLen.toNat < s.work.inpos + 1 + s.bpp) :=
  ⟨⟨rfl, ⟨rfl, rfl, by decide +kernel⟩, by decide +kernel⟩, ⟨⟨rfl, rfl, by decide +kernel⟩, by decide +kernel⟩,
    ⟨rfl, rfl, by decide +kernel⟩, by decide +kernel⟩

theorem witness_FullImageEndsDecode :
    let s := { decoding with work := { decoding.work with pix := 4 } }
    s.inputs = [] ∧ inBody .decode s ∧ s.work.pix = s.total :=
  ⟨rfl, ⟨rfl, rfl, by decide +kernel⟩, by decide +kernel⟩

theorem witness_PacketsNeedARunningDecode : ¬ inBody .decode State.reset ∧ ¬ inBody .decode decodeStarted :=
  ⟨(nomatch ·.1), (nomatch ·.2.1)⟩

/-- DV1 whole, ending with success; and the empty list of packets where the stream is a byte short (DV8's ending). -/
theorem witness_DecodeExpandsItsPackets :
    (let ps : List (Instr × List Byte) := [(.raw 4, [0x0A, 0x0B, 0x0C, 0x0D])]
     let s := decodeStarted
     checkError .decode s = none ∧ Memory.wf s.mem ∧ (∀ p ∈ ps, packetOk s.bpp p) ∧
     s.mem.readBytes s.srcBase.toNat (wireOf ps).length = wireOf ps ∧ (wireOf ps).length ≤ s.srcLen.toNat ∧
     countOf ps ≤ s.total ∧ decodeEnd s (wireOf ps).length (countOf ps) = some .success) ∧
    (let s := { decodeStarted with srcLen := 4 }
     checkError .decode s = none ∧ Memory.wf s.mem ∧ s.mem.readBytes s.srcBase.toNat (wireOf []).length = wireOf [] ∧
     (wireOf []).length ≤ s.srcLen.toNat ∧ countOf [] ≤ s.total ∧
     decodeEnd s (wireOf []).length (countOf []) = some .unexpectedEndOfStream) := by
  refine ⟨⟨by decide +kernel, by decide +kernel, ?_, by decide +kernel⟩, by decide +kernel⟩
  intro p hp
  rw [List.mem_singleton.1 hp]
  exact ⟨by decide, by decide, rfl⟩

theorem witness_EveryStreamHasAnEnding : checkError .decode decodeStarted = none := by decide +kernel

/-- EV21 at pixel 2, whose run of three goes over the row boundary. -/
theorem witness_RunExtentIsTheLargest :
    let s := { encoding with work := { encoding.work with s := 2, k := 2, outpos := 3 } }
    s.inputs = [] ∧ inBody .encode s ∧ Memory.wf s.mem ∧ s.work.s + 1 < s.total ∧
    s.pixel (s.work.s + 1) = s.pixel s.work.s ∧ s.work.outpos + (1 + s.bpp) ≤ s.dstLen.toNat :=
  ⟨rfl, ⟨rfl, rfl, by decide +kernel⟩, by decide +kernel⟩

/-- EV21 at pixel 0, and at its last pixel. -/
theorem witness_RawExtentStopsBeforeARun :
    (encoding.inputs = [] ∧ inBody .encode encoding ∧ Memory.wf encoding.mem ∧ encoding.work.s < encoding.total ∧
      ¬ (encoding.work.s + 1 < encoding.total ∧ encoding.pixel (encoding.work.s + 1) = encoding.pixel encoding.work.s) ∧
      encoding.work.outpos + (1 + 2 * encoding.bpp) ≤ encoding.dstLen.toNat) ∧
    (let s := { encoding with work := { encoding.work with s := 5, k := 3, outpos := 5 } }
     s.inputs = [] ∧ inBody .encode s ∧ s.work.s < s.total ∧
       ¬ (s.work.s + 1 < s.total ∧ s.pixel (s.work.s + 1) = s.pixel s.work.s)) :=
  ⟨⟨rfl, ⟨rfl, rfl, by decide +kernel⟩, by decide +kernel⟩, rfl, ⟨rfl, rfl, by decide +kernel⟩, by decide +kernel⟩

theorem witness_FullOutputEndsEncode :
    (let s := { encoding with dstLen := 2 }
     s.inputs = [] ∧ inBody .encode s ∧ s.work.s < s.total ∧
       s.dstLen.toNat < s.work.outpos + (packetBytes s s.work.s).length) ∧
    (let s := { encoding with work := { encoding.work with s := 6, k := 1, outpos := 7 } }
     s.inputs = [] ∧ inBody .encode s ∧ s.work.s = s.total) :=
  ⟨⟨rfl, ⟨rfl, rfl, by decide +kernel⟩, by decide +kernel⟩, rfl, ⟨rfl, rfl, by decide +kernel⟩, by decide +kernel⟩

theorem witness_EncodeWritesAPacketStream :
    checkError .encode encodeStarted = none ∧ Memory.wf encodeStarted.mem := by decide +kernel

theorem witness_EnoughCapacityEncodesTheImage :
    checkError .encode encodeStarted = none ∧
    encodeStarted.total * (1 + encodeStarted.bpp) ≤ encodeStarted.dstLen.toNat := by decide +kernel

/-- EV21's pixels as a 3×2 and as a 6×1 image elsewhere, and another destination. -/
theorem witness_EncodeDependsOnThePixelsOnly :
    let s := encodeStarted
    let t := { setUp 6 1 1 0 12 (bytesAt 0x4000 [0x10, 0x20, 0x30, 0x30, 0x30, 0x40] []) with
      pixBase := 0x4000, dstBase := 0x5000 }
    checkError .encode s = none ∧ checkError .encode t = none ∧ Memory.wf s.mem ∧ Memory.wf t.mem ∧ s.total = t.total ∧
    s.bytesPP = t.bytesPP ∧ s.dstLen = t.dstLen ∧ ∀ k < s.total, s.pixel k = t.pixel k := by decide +kernel

/-- EV8 (`A1 A1` is `81 A1`), and its stream decoded from elsewhere. -/
theorem witness_DecodeOfEncodeIsTheImage :
    let s := setUp 2 1 1 0 4 (bytesAt 0x1000 [0xA1, 0xA1] [])
    let m := bytesAt 0x2000 [0x81, 0xA1] s.mem
    let t := setUp 2 1 1 2 0 (bytesAt 0x100 [0x81, 0xA1] [])
    checkError .encode s = none ∧ Memory.wf s.mem ∧ completes (exec .encode s) .success 0 2 s.total m s ∧
    t.width = s.width ∧ t.height = s.height ∧ t.bytesPP = s.bytesPP ∧ checkError .decode t = none ∧ Memory.wf t.mem ∧
    t.srcLen.toNat = 2 ∧ t.mem.readBytes t.srcBase.toNat 2 = m.readBytes s.dstBase.toNat 2 := by
  refine ⟨by decide +kernel, by decide +kernel, ⟨Work.initial, congrArg Host.Outcome.next ?_⟩, by decide +kernel⟩
  decide +kernel

theorem witness_ScaleSwapsTheImage :
    checkError .scale State.reset ≠ none ∧ checkError .scale scaleStarted = none ∧ Memory.wf scaleStarted.mem := by
  decide +kernel

theorem witness_ScaleClosedForm : checkError .scale scaleStarted = none ∧ Memory.wf scaleStarted.mem := by decide +kernel

/-- L1-4: a uniform 2×2 image, to its own size. -/
theorem witness_ScaleIdentityAndUniform :
    let s := { setUp 2 2 1 0 4 (bytesAt 0x1000 [0x5A, 0x5A, 0x5A, 0x5A] []) with newWidth := 2, newHeight := 2 }
    checkError .scale s = none ∧ Memory.wf s.mem ∧ s.newWidth = s.width ∧ s.newHeight = s.height ∧
    ∀ k < s.total, s.pixel k = [0x5A] := by decide +kernel

theorem witness_ScaleColumnCopiesItsPixel :
    scaling.inputs = [] ∧ inBody .scale scaling ∧ scaleBounds scaling ∧ Memory.wf scaling.mem ∧
    scaling.work.c < scaling.width.toNat ∧ scaling.work.i < scaling.height.toNat :=
  ⟨rfl, ⟨rfl, rfl, by decide +kernel⟩, ⟨by decide, by decide, by decide, by decide, by decide, by decide, by decide⟩,
    by decide +kernel⟩

theorem witness_ScaleRowEndRepeatsTheRow :
    let s := { scaling with work := { scaling.work with c := 2, errX := 0, dcol := 3, i := 1, errY := 1, drow := 1 } }
    s.inputs = [] ∧ inBody .scale s ∧ scaleBounds s ∧ Memory.wf s.mem ∧ s.work.c = s.width.toNat ∧
    s.work.i < s.height.toNat :=
  ⟨rfl, ⟨rfl, rfl, by decide +kernel⟩, ⟨by decide, by decide, by decide, by decide, by decide, by decide, by decide⟩,
    by decide +kernel⟩

/-- The invariant holds at a command's start and inside a body, not only at reset. -/
theorem decodeStarted_inv : Inv decodeStarted :=
  ⟨⟨by decide +kernel, by decide +kernel⟩, by decide, rfl, rfl, rfl, rfl, rfl, rfl⟩

theorem scaling_inv : Inv scaling :=
  ⟨⟨by decide +kernel, by decide +kernel⟩, by decide, rfl, rfl, rfl, rfl, rfl, by decide +kernel,
    ⟨by decide, by decide, by decide, by decide, by decide, by decide, by decide⟩⟩

theorem witness_StepKeepsTheInvariant :
    (Inv decodeStarted ∧ ∃ t, step decodeStarted = .next t) ∧ (Inv scaling ∧ ∃ t, step scaling = .next t) := by
  refine ⟨⟨decodeStarted_inv, _, rfl⟩, scaling_inv, scaleIter scaling, ?_⟩
  have h : checkError .scale scaling = none := by decide +kernel
  show bodyStep .scale scaling = _
  simp only [bodyStep, if_pos h]

theorem witness_ObedientHostsNeverStopTheMachine : Inv decodeStarted ∧ Inv scaling := ⟨decodeStarted_inv, scaling_inv⟩

theorem witness_OnlyTheWriteRegionIsWritten :
    Inv decodeStarted ∧ decodeStarted.phase = .busy .decode ∧ (∀ a b rest, decodeStarted.inputs ≠ .memWrite a b :: rest) ∧
    (∃ t, step decodeStarted = .next t) ∧ (writeRegion .decode decodeStarted).contains 0xFFF = false ∧
    (writeRegion .decode decodeStarted).contains 0x1004 = false :=
  ⟨decodeStarted_inv, rfl, fun a b rest h => List.cons_ne_nil _ _ (show Input.memWrite a b :: rest = [] from h.symm),
    ⟨_, rfl⟩, by decide +kernel, by decide +kernel⟩

/-- A read of STATUS while a command runs. -/
theorem witness_ParametersAreFixedWhileBusy :
    let s := { decodeStarted with inputs := [.regRead 0x04 32] }
    s.phase = .busy .decode ∧ ∃ t, step s = .next t ∧ t.phase ≠ .idle :=
  ⟨rfl, _, rfl, by decide +kernel⟩

theorem witness_OnlyACommandStartLeavesIdle :
    let s := { State.reset with inputs := [.regWrite 0x00 32 1] }
    s.phase = .idle ∧ ∃ t, step s = .next t ∧ t.phase ≠ .idle :=
  ⟨rfl, _, rfl, by decide +kernel⟩

/-- A write of STATUS for the results, a read of STATUS for the registers and memory, and the engine's own move. -/
theorem witness_ResultsStayUntilTheNextStart :
    let idle := fun inputs => { State.reset with done := true, error := .ioFailure, inputs := inputs }
    (let s := idle [.regWrite 0x04 32 2]
     s.phase = .idle ∧ (∃ t, step s = .next t) ∧ (∀ rest, s.inputs ≠ .rst :: rest) ∧
       ∀ v rest, s.inputs ≠ writeOf s .cmd v :: rest) ∧
    (let s := idle [.regRead 0x04 32]
     s.phase = .idle ∧ (∃ t, step s = .next t) ∧ (∀ rest, s.inputs ≠ .rst :: rest) ∧
       (∀ addr width v rest, s.inputs ≠ .regWrite addr width v :: rest) ∧ ∀ a b rest, s.inputs ≠ .memWrite a b :: rest) ∧
    (idle []).phase = .idle ∧ (idle []).inputs = [] ∧ (idle [.engine]).inputs = .engine :: [] ∧
    (idle [.enginePart]).inputs = .enginePart :: [] := by
  refine ⟨⟨rfl, ⟨_, rfl⟩, ?_, ?_⟩, ⟨rfl, ⟨_, rfl⟩, ?_, ?_, ?_⟩, rfl, rfl, rfl, rfl⟩ <;> intros <;>
    simp [writeOf, regBase, State.reset, regOffset]

theorem witness_NoStepChangesThePlatform : ∃ t, step State.reset = .next t := ⟨_, rfl⟩

theorem witness_WholeCommandIsItsParts :
    Inv decodeStarted ∧ decodeStarted.phase = .busy .decode ∧ decodeStarted.work.stage = .checks :=
  ⟨decodeStarted_inv, rfl, rfl⟩

theorem witness_EveryStartedCommandCompletes :
    Inv scaling ∧ scaling.phase = .busy .scale ∧ scaling.inputs = [] := ⟨scaling_inv, rfl, rfl⟩

end Sys2Proof.Machine.Tests
end

section
/-! ## What the engine's moves leave unchanged (R43, R112), and what no step changes -/

namespace Sys2Proof.Machine

/-! ### The engine's frame -/

/-- `t` agrees with `s` in everything that no move of the engine changes: the registers that only the host writes, the
platform, and the outside world. -/
structure EngineFrame (s t : State) : Prop where
  cmd       : t.cmd = s.cmd
  wign      : t.wign = s.wign
  ie        : t.ie = s.ie
  bytesPP   : t.bytesPP = s.bytesPP
  newWidth  : t.newWidth = s.newWidth
  newHeight : t.newHeight = s.newHeight
  srcBase   : t.srcBase = s.srcBase
  srcLen    : t.srcLen = s.srcLen
  config    : t.config = s.config
  inputs    : t.inputs = s.inputs
  reply     : t.reply = s.reply
  draws     : t.draws = s.draws

namespace EngineFrame

theorem refl (s : State) : EngineFrame s s := by constructor <;> rfl

theorem trans {s t u : State} (h : EngineFrame s t) (g : EngineFrame t u) : EngineFrame s u where
  cmd       := g.cmd.trans h.cmd
  wign      := g.wign.trans h.wign
  ie        := g.ie.trans h.ie
  bytesPP   := g.bytesPP.trans h.bytesPP
  newWidth  := g.newWidth.trans h.newWidth
  newHeight := g.newHeight.trans h.newHeight
  srcBase   := g.srcBase.trans h.srcBase
  srcLen    := g.srcLen.trans h.srcLen
  config    := g.config.trans h.config
  inputs    := g.inputs.trans h.inputs
  reply     := g.reply.trans h.reply
  draws     := g.draws.trans h.draws

end EngineFrame

theorem memWork_engineFrame (s : State) (m : Memory) (w : Work) : EngineFrame s { s with mem := m, work := w } := by
  constructor <;> rfl

theorem complete_engineFrame (e : ErrorCode) (p : Progress) (s : State) : EngineFrame s (complete e p s) := by
  constructor <;> rfl

theorem scaleComplete_engineFrame (s : State) : EngineFrame s (scaleComplete s) := by constructor <;> rfl

theorem beginBody_engineFrame (op : Op) (s : State) : EngineFrame s (beginBody op s) := by constructor <;> rfl

theorem enterBody_engineFrame (op : Op) (s : State) : EngineFrame s (enterBody op s) := by
  rcases enterBody_cases op s with ⟨e, -, h⟩ | ⟨-, h⟩ <;> rw [h]
  · exact complete_engineFrame e _ s
  · exact beginBody_engineFrame op s

theorem decodePacket_engineFrame (count plen : Nat) (pixel : List Byte → Nat → List Byte) (s : State) :
    EngineFrame s (decodePacket count plen pixel s) := by
  rcases decodePacket_cases count plen pixel s with ⟨-, h⟩ | ⟨-, -, h⟩ | ⟨-, -, h⟩ <;> rw [h]
  · exact complete_engineFrame _ _ s
  · exact complete_engineFrame _ _ s
  · exact memWork_engineFrame s _ _

theorem bodyRound_engineFrame (op : Op) (s : State) : EngineFrame s (bodyRound op s) := by
  rcases bodyRound_cases op s with ⟨e, p, h⟩ | ⟨-, h⟩ | ⟨m, w, h⟩ <;> rw [h]
  · exact complete_engineFrame e p s
  · exact scaleComplete_engineFrame s
  · exact memWork_engineFrame s m w

/-! The commands' loops are rounds, so they keep the frame by induction on their bound. -/

theorem decodeLoop_engineFrame (n : Nat) (s : State) : EngineFrame s (decodeLoop n s) := by
  induction n generalizing s with
  | zero => exact .refl s
  | succ n ih =>
    rw [decodeLoop_succ]
    split
    · exact .refl s
    · exact (bodyRound_engineFrame .decode s).trans (ih _)

theorem encodeLoop_engineFrame (n : Nat) (s : State) : EngineFrame s (encodeLoop n s) := by
  induction n generalizing s with
  | zero => exact .refl s
  | succ n ih =>
    rw [encodeLoop_succ]
    split
    · exact .refl s
    · exact (bodyRound_engineFrame .encode s).trans (ih _)

theorem scaleColumn_engineFrame (s : State) : EngineFrame s (scaleColumn s) := by
  obtain ⟨m, w, h⟩ := scaleColumn_frame s
  rw [h]
  exact memWork_engineFrame s m w

theorem scaleRowEnd_engineFrame (s : State) : EngineFrame s (scaleRowEnd s) := by
  obtain ⟨m, w, h⟩ := scaleRowEnd_frame s
  rw [h]
  exact memWork_engineFrame s m w

theorem scaleColumns_engineFrame (n : Nat) (s : State) : EngineFrame s (scaleColumns n s) := by
  induction n generalizing s with
  | zero => exact .refl s
  | succ n ih => exact (scaleColumn_engineFrame s).trans (ih _)

theorem scaleRows_engineFrame (n : Nat) (s : State) : EngineFrame s (scaleRows n s) := by
  induction n generalizing s with
  | zero => exact .refl s
  | succ n ih => exact ((scaleColumns_engineFrame _ s).trans (scaleRowEnd_engineFrame _)).trans (ih _)

/-- SCALE run whole (R200): a failed check, or the rows and the completion. -/
theorem execScale_cases (s : State) :
    (∃ e, checkError .scale s = some e ∧ execScale s = .next (complete e Progress.zero s)) ∨
    (checkError .scale s = none ∧
      execScale s = .next (scaleComplete (scaleRows s.height.toNat (beginBody .scale s)))) := by
  cases h : checkError .scale s with
  | some e => exact .inl ⟨e, rfl, by simp only [execScale, h]⟩
  | none => exact .inr ⟨rfl, by simp only [execScale, h]⟩

/-- An instruction that answers a next state keeps the engine's frame. -/
theorem exec_engineFrame {i : Instr} {s t : State} (h : exec i s = .next t) : EngineFrame s t := by
  cases i with
  | raw n =>
    rcases execRaw_cases n s with ⟨-, e⟩ | ⟨-, e⟩ <;> cases e.symm.trans h
    exact decodePacket_engineFrame _ _ _ s
  | run n =>
    rcases execRun_cases n s with ⟨-, e⟩ | ⟨-, e⟩ <;> cases e.symm.trans h
    exact decodePacket_engineFrame _ _ _ s
  | decode =>
    cases h
    exact (enterBody_engineFrame .decode s).trans (decodeLoop_engineFrame _ _)
  | encode =>
    cases h
    exact (enterBody_engineFrame .encode s).trans (encodeLoop_engineFrame _ _)
  | scale =>
    rcases execScale_cases s with ⟨e, -, q⟩ | ⟨-, q⟩ <;> cases q.symm.trans h
    · exact complete_engineFrame e _ s
    · exact ((beginBody_engineFrame .scale s).trans (scaleRows_engineFrame _ _)).trans
        (scaleComplete_engineFrame _)

theorem runCommand_engineFrame {s t : State} (h : runCommand s = .next t) : EngineFrame s t := by
  unfold runCommand at h
  split at h
  · exact exec_engineFrame h
  · cases h
    exact complete_engineFrame _ _ s

theorem bodyStep_engineFrame {op : Op} {s t : State} (hp : s.phase = .busy op) (hs : s.work.stage = .body)
    (h : bodyStep op s = .next t) : EngineFrame s t := by
  by_cases hc : checkError op s = none
  · rw [bodyStep_eq hp hs hc] at h
    cases h
    exact bodyRound_engineFrame op s
  · simp [bodyStep, hc] at h

theorem engineStep_engineFrame {s t : State} (h : engineStep s = .next t) : EngineFrame s t := by
  unfold engineStep at h
  split at h
  · cases h
    exact .refl s
  · next hp =>
    split at h
    · exact runCommand_engineFrame h
    · next hs => exact bodyStep_engineFrame hp hs h

theorem engineStepPart_engineFrame {s t : State} (h : engineStepPart s = .next t) : EngineFrame s t := by
  unfold engineStepPart at h
  split at h
  · cases h
    exact .refl s
  · next hp =>
    split at h
    · cases h
      exact enterBody_engineFrame _ s
    · next hs => exact bodyStep_engineFrame hp hs h

/-! ### The platform under the outside world's moves -/

@[simp] theorem writeParam_config (r : Reg) (v : Word) (s : State) : (writeParam r v s).config = s.config := by
  cases r <;> rfl

@[simp] theorem writeReg_config (r : Reg) (v : Word) (s : State) : (writeReg r v s).config = s.config := by
  cases r <;> simp [writeReg, apply_ite State.config]

@[simp] theorem hostRegRead_config (addr width : Nat) (s : State) : (hostRegRead addr width s).config = s.config := by
  obtain ⟨p, d, h⟩ := hostRegRead_cases addr width s
  rw [h]

@[simp] theorem hostRegWrite_config (addr width : Nat) (v : Word) (s : State) :
    (hostRegWrite addr width v s).config = s.config := by
  rcases hostRegWrite_cases addr width v s with h | ⟨r, -, -, h⟩ <;> simp [h]

/-- A host read of memory that does not fault only answers. -/
theorem eq_of_hostMemRead {a : Word} {s t : State} (h : hostMemRead a s = .next t) :
    t = { s with reply := .byte (s.mem.read a.toNat) } := by
  unfold hostMemRead at h
  split at h
  · cases h
  · split at h <;> cases h
    rfl

/-- A host write of memory that does not fault only writes its byte. -/
theorem eq_of_hostMemWrite {a : Word} {b : Byte} {s t : State} (h : hostMemWrite a b s = .next t) :
    t = { s with mem := s.mem.write a.toNat b, reply := .none } := by
  unfold hostMemWrite at h
  split at h
  · cases h
  · split at h <;> cases h
    rfl

theorem takeInput_config {x : Input} {s t : State} (h : takeInput x s = .next t) : t.config = s.config := by
  cases x with
  | regRead addr width => cases h; exact hostRegRead_config addr width s
  | regWrite addr width v => cases h; exact hostRegWrite_config addr width v s
  | memRead a => rw [eq_of_hostMemRead h]
  | memWrite a b => rw [eq_of_hostMemWrite h]
  | rst => cases h; exact resetBlock_config s
  | engine => exact (engineStep_engineFrame h).config
  | enginePart => exact (engineStepPart_engineFrame h).config

/-- Settles O56: the engine's moves keep the platform with the rest of their frame, and each event of the outside world
keeps it by its own rule. -/
theorem noStepChangesThePlatform : Obligations.NoStepChangesThePlatform := by
  intro s t h
  unfold step at h
  split at h
  · exact (engineStep_engineFrame h).config
  · exact (takeInput_config h).trans rfl

end Sys2Proof.Machine
end

section
/-! ## The state after reset and the register port (R24, R26 to R28, R37, R44, R120) -/

namespace Sys2Proof.Machine

/-! ### Reset -/

theorem checkError_of_badFormat {op : Op} {s : State} (hop : op ≠ .illegal) (hf : formatOk s.bytesPP = false) :
    checkError op s = some .invalidFormat := by
  simp [checkError, hop, paramError, hf]

/-- R118: a command whose checks fail completes with the first failure and progress 0. -/
theorem exec_of_checkError {c : Instr × Op} (hc : c ∈ commands) {s : State} {e : ErrorCode}
    (h : checkError c.2 s = some e) : exec c.1 s = .next (complete e Progress.zero s) := by
  simp only [commands, List.mem_cons, List.not_mem_nil, or_false] at hc
  rcases hc with rfl | rfl | rfl
  · show Host.Outcome.next (decodeLoop _ (enterBody .decode s)) = _
    rw [enterBody_of_some h, decodeLoop_idle rfl]
  · show Host.Outcome.next (encodeLoop _ (enterBody .encode s)) = _
    rw [enterBody_of_some h, encodeLoop_idle rfl]
  · show execScale s = _
    simp only [execScale, h]

/-- Settles O8: BYTESPP is 0 at reset, which is no format, so the first check of R114 fails. -/
theorem resetLeavesZero : Obligations.ResetLeavesZero := by
  refine ⟨fun r => by cases r <;> rfl, rfl, rfl, fun c hc => ?_⟩
  have hop : c.2 ≠ .illegal := by
    revert c
    decide
  rw [exec_of_checkError hc (checkError_of_badFormat hop rfl)]
  exact ⟨Work.initial, rfl⟩

/-! ### The register map -/

/-- Settles O11: the map and the search through it are inverse to each other. -/
theorem registerMap : Obligations.RegisterMap := by
  refine ⟨rfl, fun off r => ⟨regOffset_of_regAt, ?_⟩⟩
  rintro rfl
  exact regAt_regOffset r

/-! ### The words of STATUS, ERROR and IRQ_EN -/

/-- R26: the four flags of STATUS from bit 0 on, and nothing above them. -/
theorem getLsbD_statusWord (s : State) (j : Nat) :
    (statusWord s).getLsbD j = [s.isBusy, s.done, s.errFlag, s.wign].getD j false := by
  have hw : statusWord s = (((BitVec.concat 0#28 s.wign).concat s.errFlag).concat s.done).concat s.isBusy := rfl
  rcases j with _ | _ | _ | _ | j <;> simp [hw]

theorem isBusy_eq_decide (s : State) : s.isBusy = decide (s.phase ≠ .idle) := by
  unfold State.isBusy
  split <;> simp [*]

theorem errFlag_eq_decide (s : State) : s.errFlag = decide (s.error ≠ .success) := by
  unfold State.errFlag
  cases s.error <;> rfl

theorem toNat_errorWord (s : State) : (errorWord s).toNat = (errorNumber s.error).toNat :=
  (BitVec.toNat_append 0#28 (errorNumber s.error)).trans (by simp)

theorem toNat_irqEnWord (s : State) : (irqEnWord s).toNat = s.ie.toNat :=
  (BitVec.toNat_append 0#31 (BitVec.ofBool s.ie)).trans (by simp)

theorem errorNumber_le (e : ErrorCode) : (errorNumber e).toNat ≤ 8 := by cases e <;> decide

/-- Settles O14, reading STATUS bit by bit and the other two words as numbers. -/
theorem statusWordsBitByBit : Obligations.StatusWordsBitByBit := by
  intro s
  simp only [regValue, getLsbD_statusWord, isBusy_eq_decide, errFlag_eq_decide]
  refine ⟨rfl, rfl, rfl, rfl, fun j hj => List.getD_eq_default _ _ hj, ?_, errorNumber_le _, rfl, ?_⟩
  · exact toNat_errorWord s
  · exact toNat_irqEnWord s

/-! ### Accesses that name no register -/

/-- An access of the window that is not an aligned 32-bit one (R24). -/
theorem accessOk_eq_false {off width : Nat} (h : width ≠ 32 ∨ off % 4 ≠ 0) : accessOk off width = false := by
  simpa [accessOk, Decidable.imp_iff_not_or] using h

theorem hostRegWrite_outside {s : State} {addr : Nat} (h : addr < regBase s.config ∨ regBase s.config + 0x80 ≤ addr)
    (width : Nat) (v : Word) : hostRegWrite addr width v s = { s with reply := .none } := by
  simp [hostRegWrite, windowOffset_out h]

theorem hostRegRead_outside {s : State} {addr : Nat} (h : addr < regBase s.config ∨ regBase s.config + 0x80 ≤ addr)
    (width : Nat) : hostRegRead addr width s = { s with reply := .none } := by
  simp [hostRegRead, windowOffset_out h]

theorem hostRegWrite_odd {off width : Nat} (h : width ≠ 32 ∨ off % 4 ≠ 0) (hoff : off < 0x80) (s : State) (v : Word) :
    hostRegWrite (regBase s.config + off) width v s = { s with reply := .none } := by
  simp [hostRegWrite, windowOffset_in _ hoff, accessOk_eq_false h]

theorem hostRegRead_odd {off width : Nat} (h : width ≠ 32 ∨ off % 4 ≠ 0) (hoff : off < 0x80) (s : State) :
    hostRegRead (regBase s.config + off) width s = { s with reply := .word 0 } := by
  simp [hostRegRead, windowOffset_in _ hoff, accessOk_eq_false h]

theorem hostRegWrite_unused {off : Nat} (h : ∀ r, off ≠ regOffset r) (hoff : off < 0x80) (s : State) (width : Nat)
    (v : Word) : hostRegWrite (regBase s.config + off) width v s = { s with reply := .none } := by
  simp [hostRegWrite, windowOffset_in _ hoff, regAt_unused h]

/-- Settles O20: such a bus address has no offset in the window. -/
theorem accessesOutsideTheWindow : Obligations.AccessesOutsideTheWindow := fun s rest _ width v h =>
  ⟨congrArg Host.Outcome.next (hostRegWrite_outside (s := { s with inputs := rest }) h width v),
    congrArg Host.Outcome.next (hostRegRead_outside (s := { s with inputs := rest }) h width)⟩

/-- Settles O13: such an access reaches no register. -/
theorem oddAccessesDoNothing : Obligations.OddAccessesDoNothing := fun s rest _ _ v hoff h =>
  ⟨congrArg Host.Outcome.next (hostRegWrite_odd h hoff { s with inputs := rest } v),
    congrArg Host.Outcome.next (hostRegRead_odd h hoff { s with inputs := rest })⟩

/-! ### The registers by their kind (R120) -/

theorem reg_kind (r : Reg) :
    r = .cmd ∨ isParam r = true ∨ r = .status ∨ r = .irqEn ∨ isReadOnly r = true := by cases r <;> decide

/-- R37: while BUSY = 1 a write of CMD or of a parameter register is only marked. -/
theorem writeReg_of_busy {s : State} {op : Op} {r : Reg} (hp : s.phase = .busy op) (hr : r = .cmd ∨ isParam r = true)
    (v : Word) : writeReg r v s = setWign s := by
  cases r <;> simp [writeReg, isParam, State.isBusy, hp] at hr ⊢

/-- R120: while Idle a parameter register takes the value written. -/
theorem writeReg_param_of_idle {s : State} {r : Reg} (hp : s.phase = .idle) (hr : isParam r = true) (v : Word) :
    writeReg r v s = writeParam r v s := by
  cases r <;> simp [writeReg, isParam, State.isBusy, hp] at hr ⊢

/-- R110: while Idle a write of CMD starts the command. -/
theorem writeReg_cmd_of_idle {s : State} (hp : s.phase = .idle) (v : Word) : writeReg .cmd v s = commandStart v s := by
  simp [writeReg, State.isBusy, hp]

/-- R120: a read-only register ignores writes. -/
theorem writeReg_of_readOnly {r : Reg} (hr : isReadOnly r = true) (v : Word) (s : State) : writeReg r v s = s := by
  cases r <;> simp [writeReg, isReadOnly] at hr ⊢

@[simp] theorem writeParam_mem (r : Reg) (v : Word) (s : State) : (writeParam r v s).mem = s.mem := by cases r <;> rfl

@[simp] theorem writeParam_phase (r : Reg) (v : Word) (s : State) : (writeParam r v s).phase = s.phase := by
  cases r <;> rfl

@[simp] theorem writeParam_work (r : Reg) (v : Word) (s : State) : (writeParam r v s).work = s.work := by
  cases r <;> rfl

/-- The step that takes an aligned 32-bit write of a register. -/
theorem step_writeOf (s : State) (rest : List Input) (r : Reg) (v : Word) :
    step { s with inputs := writeOf s r v :: rest } =
      .next (writeReg r v { s with inputs := rest, reply := .none }) :=
  congrArg Host.Outcome.next (hostRegWrite_reg { s with inputs := rest } r v)

/-- Settles O16, by the kind of the register that is written. -/
theorem writesWhileBusy : Obligations.WritesWhileBusy := by
  intro s op rest v hp
  refine ⟨fun r hr => ?_, step_writeOf s rest .status v, step_writeOf s rest .irqEn v, fun r hr => ?_,
    fun off hoff _ hu => congrArg Host.Outcome.next (hostRegWrite_unused hu hoff { s with inputs := rest } 32 v)⟩
  · exact (step_writeOf s rest r v).trans
      (congrArg Host.Outcome.next (writeReg_of_busy (s := { s with inputs := rest, reply := .none }) hp hr v))
  · exact (step_writeOf s rest r v).trans (congrArg Host.Outcome.next (writeReg_of_readOnly hr v _))

end Sys2Proof.Machine
end

section
/-! ## Every step keeps the invariant (R26, R41, R60, R110, R118, R147, R178, R206, R207) -/

namespace Sys2Proof.Machine

/-! ### The invariant by phase and stage -/

/-- What a start of `op` leaves in the registers until the command completes (R110, R26). -/
structure StartHolds (op : Op) (s : State) : Prop where
  cmd     : op = opOf s.cmd
  done    : s.done = false
  error   : s.error = .success
  inUsed  : s.inUsed = 0
  outUsed : s.outUsed = 0
  pixDone : s.pixDone = 0

theorem inv_of_idle {s : State} (hp : s.phase = .idle) (hm : memInv s) (hw : s.work = Work.initial) : Inv s :=
  ⟨hm, by simpa only [engineInv, hp] using hw⟩

theorem Inv.idle_work {s : State} (h : Inv s) (hp : s.phase = .idle) : s.work = Work.initial := by
  simpa only [engineInv, hp] using h.2

theorem inv_of_checks {op : Op} {s : State} (hp : s.phase = .busy op) (hm : memInv s) (hs : StartHolds op s)
    (hw : s.work = Work.initial) : Inv s :=
  ⟨hm, by
    simp only [engineInv, hp, busyInv, hw]
    exact ⟨hs.cmd, hs.done, hs.error, hs.inUsed, hs.outUsed, hs.pixDone, trivial⟩⟩

theorem Inv.busy {op : Op} {s : State} (h : Inv s) (hp : s.phase = .busy op) : busyInv op s := by
  simpa only [engineInv, hp] using h.2

theorem Inv.start {op : Op} {s : State} (h : Inv s) (hp : s.phase = .busy op) : StartHolds op s := by
  obtain ⟨cmd, done, error, inUsed, outUsed, pixDone, -⟩ := h.busy hp
  exact ⟨cmd, done, error, inUsed, outUsed, pixDone⟩

/-- The invariant inside the body of `op`. -/
structure Running (op : Op) (s : State) : Prop where
  phase   : s.phase = .busy op
  stage   : s.work.stage = .body
  mem     : memInv s
  start   : StartHolds op s
  checked : Checked op s
  bounds  : bodyBounds op s

theorem Running.inv {op : Op} {s : State} (h : Running op s) : Inv s :=
  ⟨h.mem, by
    simp only [engineInv, h.phase, busyInv, h.stage]
    exact ⟨h.start.cmd, h.start.done, h.start.error, h.start.inUsed, h.start.outUsed, h.start.pixDone,
      (checked_iff op s).2 h.checked, h.bounds⟩⟩

theorem Inv.running {op : Op} {s : State} (h : Inv s) (hp : s.phase = .busy op) (hs : s.work.stage = .body) :
    Running op s := by
  obtain ⟨-, -, -, -, -, -, hb⟩ := h.busy hp
  rw [hs] at hb
  exact ⟨hp, hs, h.1, h.start hp, (checked_iff op s).1 hb.1, hb.2⟩

/-! ### Memory -/

/-- Memory stays in order when its new entries are bytes that exist. -/
theorem memInv_of_mem {s t : State} (h : memInv s) (hc : t.config = s.config) (hwf : Memory.wf t.mem)
    (hm : ∀ p ∈ t.mem, p ∈ s.mem ∨ memOk s.config p.1 = true) : memInv t :=
  ⟨hwf, fun p hp => by
    rw [hc]
    exact (hm p hp).elim (h.2 p) id⟩

/-! ### Completion -/

theorem inv_complete {s : State} (h : memInv s) (e : ErrorCode) (p : Progress) : Inv (complete e p s) :=
  inv_of_idle rfl h rfl

theorem inv_scaleComplete {s : State} (h : memInv s) : Inv (scaleComplete s) := inv_of_idle rfl h rfl

/-- A round's result: the command has completed, or its body is still running. -/
def EndedOrRunning (op : Op) (s : State) : Prop := (s.phase = .idle ∧ Inv s) ∨ Running op s

theorem EndedOrRunning.inv {op : Op} {s : State} (h : EndedOrRunning op s) : Inv s :=
  h.elim And.right Running.inv

theorem endedOrRunning_complete {op : Op} {s : State} (h : memInv s) (e : ErrorCode) (p : Progress) :
    EndedOrRunning op (complete e p s) := .inl ⟨rfl, inv_complete h e p⟩

/-! ### A round that goes on -/

/-- A move of memory and the working state keeps a running body, if it writes in the command's write region (R66) and
stays in the command's bounds. -/
theorem Running.move {op : Op} {s : State} {m : Memory} {w : Work} (h : Running op s) (hwf : m.wf)
    (hm : ∀ p ∈ m, p ∈ s.mem ∨ inRegion (writeRegion op s) p.1) (hw : w.stage = .body)
    (hb : bodyBounds op { s with mem := m, work := w }) : Running op { s with mem := m, work := w } where
  phase   := h.phase
  stage   := hw
  mem     := memInv_of_mem h.mem rfl hwf fun p hp => (hm p hp).imp_right (memOk_of_regionOk h.checked.writeOk)
  start   := ⟨h.start.cmd, h.start.done, h.start.error, h.start.inUsed, h.start.outUsed, h.start.pixDone⟩
  checked := (checked_iff op _).1 ((checkError_congr op (s := s) rfl rfl rfl rfl rfl rfl rfl rfl rfl rfl rfl).trans
    ((checked_iff op s).2 h.checked))
  bounds  := hb

/-- The body's start is in bounds: every position and accumulator is 0. -/
theorem running_beginBody {op : Op} {s : State} (h : memInv s) (hs : StartHolds op s) (hc : checkError op s = none) :
    Running op (beginBody op s) where
  phase   := rfl
  stage   := rfl
  mem     := h
  start   := ⟨hs.cmd, hs.done, hs.error, hs.inUsed, hs.outUsed, hs.pixDone⟩
  checked := (checked_iff op _).1 ((checkError_congr op (s := s) rfl rfl rfl rfl rfl rfl rfl rfl rfl rfl rfl).trans hc)
  bounds  := by
    cases op with
    | decode => exact ⟨Nat.zero_le _, Nat.zero_le _, Nat.zero_le _⟩
    | encode => exact ⟨Nat.zero_le _, Nat.zero_le _, Nat.zero_le _⟩
    | scale => simp [bodyBounds, scaleBounds, beginBody, Work.initial]
    | illegal => exact absurd rfl ((checked_iff _ _).1 hc).legal

theorem endedOrRunning_enterBody {op : Op} {s : State} (h : memInv s) (hs : StartHolds op s) :
    EndedOrRunning op (enterBody op s) := by
  rcases enterBody_cases op s with ⟨e, -, q⟩ | ⟨hc, q⟩ <;> rw [q]
  · exact endedOrRunning_complete h e _
  · exact .inr (running_beginBody h hs hc)

/-! ### DECODE -/

theorem length_headerPixel_le (h : Byte) (b : Nat) (pb : List Byte) (j : Nat) : (headerPixel h b pb j).length ≤ b := by
  unfold headerPixel
  split
  · exact length_runPixel_le b pb j
  · exact length_rawPixel_le b pb j

/-- A payload is at most 128 pixels of four bytes (R41). -/
theorem payloadLength_header_le (h : Byte) {b : Nat} (hb : b ≤ 4) : payloadLength b (decodeHeader h) ≤ 512 := by
  have hc : (h.toNat % 128 + 1) * b ≤ 128 * 4 := Nat.mul_le_mul (by omega) hb
  rw [payloadLength_header]
  split <;> omega

theorem Running.fetchHeader {s : State} (h : Running .decode s) : Running .decode (fetchHeader s) :=
  h.move h.mem.1 (fun _ hp => .inl hp) h.stage h.bounds

/-- A packet's pixels lie in the current image (R63, R142). -/
theorem packet_in_image {s : State} {count a : Nat} (hc : s.work.pix + count ≤ s.total)
    (ha : s.pixelAddr s.work.pix ≤ a ∧ a < s.pixelAddr s.work.pix + count * s.bpp) :
    inRegion (writeRegion .decode s) a := by
  have hend : (s.work.pix + count) * s.bpp ≤ s.imageBytes := Nat.mul_le_mul_right _ hc
  rw [Nat.add_mul] at hend
  simp only [State.pixelAddr] at ha
  show s.pixBase.toNat ≤ a ∧ a < s.pixBase.toNat + s.imageBytes
  omega

/-- A packet that is executed ends the command or keeps the body's bounds (R142, R141, R147). -/
theorem endedOrRunning_packetAt {s : State} (h : Running .decode s) (hd : Byte) :
    EndedOrRunning .decode (packetAt hd s) := by
  rw [packetAt_eq]
  rcases decodePacket_cases (headerCount hd) (payloadLength s.bpp (decodeHeader hd)) (headerPixel hd s.bpp) s
    with ⟨-, q⟩ | ⟨-, -, q⟩ | ⟨hcount, hlen, q⟩ <;> rw [q]
  · exact endedOrRunning_complete h.mem _ _
  · exact endedOrRunning_complete h.mem _ _
  · refine .inr (h.move (wf_writePixels h.mem.1 _ _ _ _) (fun p hp => ?_) h.stage ⟨hcount, hlen, ?_⟩)
    · exact (mem_writePixels (fun j _ => length_headerPixel_le _ _ _ j) hp).imp_right (packet_in_image hcount)
    · exact (Memory.length_readBytes ..).trans_le (payloadLength_header_le hd h.checked.bpp_le)

theorem endedOrRunning_decodeIter {s : State} (h : Running .decode s) : EndedOrRunning .decode (decodeIter s) := by
  rcases decodeIter_cases s with ⟨-, q⟩ | ⟨-, -, q⟩ | ⟨-, -, q⟩ <;> rw [q]
  · exact endedOrRunning_complete h.mem _ _
  · exact endedOrRunning_complete h.mem _ _
  · exact endedOrRunning_packetAt h.fetchHeader _

theorem endedOrRunning_decodeLoop (n : Nat) {s : State} (h : EndedOrRunning .decode s) :
    EndedOrRunning .decode (decodeLoop n s) := by
  induction n generalizing s with
  | zero => exact h
  | succ n ih =>
    rcases h with ⟨hp, hi⟩ | hr
    · rw [decodeLoop_idle hp]
      exact .inl ⟨hp, hi⟩
    · rw [decodeLoop_busy hr.phase]
      exact ih (endedOrRunning_decodeIter hr)

/-! ### ENCODE -/

/-- A packet that fits (R174) lies in the destination buffer and keeps the bounds of R178. -/
theorem running_packetPacked {s : State} (h : Running .encode s) (hs : s.work.s < s.total)
    (hfit : s.work.outpos + (packetBytes s s.work.s).length ≤ s.dstLen.toNat) : Running .encode (packetPacked s) := by
  obtain ⟨-, hk, hend, -⟩ := packetExtent_bounds s hs
  refine h.move (Memory.wf_writeBytes h.mem.1 _ _) (fun p hp => ?_) h.stage ⟨hend, hfit, hk⟩
  refine (Memory.mem_writeBytes hp).imp_right fun hp => ?_
  show s.dstBase.toNat ≤ p.1 ∧ p.1 < s.dstBase.toNat + s.dstLen.toNat
  omega

theorem endedOrRunning_encodeIter {s : State} (h : Running .encode s) : EndedOrRunning .encode (encodeIter s) := by
  rcases encodeIter_cases s with ⟨-, q⟩ | ⟨-, -, q⟩ | ⟨hs, hfit, q⟩ <;> rw [q]
  · exact endedOrRunning_complete h.mem _ _
  · exact endedOrRunning_complete h.mem _ _
  · exact .inr (running_packetPacked h hs hfit)

theorem endedOrRunning_encodeLoop (n : Nat) {s : State} (h : EndedOrRunning .encode s) :
    EndedOrRunning .encode (encodeLoop n s) := by
  induction n generalizing s with
  | zero => exact h
  | succ n ih =>
    rcases h with ⟨hp, hi⟩ | hr
    · rw [encodeLoop_idle hp]
      exact .inl ⟨hp, hi⟩
    · rw [encodeLoop_busy hr.phase]
      exact ih (endedOrRunning_encodeIter hr)

/-! ### SCALE -/

/-- The cell (i, c) of an H-row, W-column raster, and the n cells after it in its row, lie in the raster. -/
theorem raster_le {i c n W H : Nat} (hi : i < H) (hc : c + n ≤ W) : i * W + c + n ≤ W * H := by
  have h : (i + 1) * W ≤ H * W := Nat.mul_le_mul_right W hi
  rw [Nat.add_mul, Nat.one_mul] at h
  rw [Nat.mul_comm W H]
  omega

/-- One source column as one move (R201): (errX + NW) / W copies of the source pixel to consecutive destination pixels. -/
theorem scaleColumn_spec {s : State} (hw : 1 ≤ s.width.toNat) (hm : Memory.wf s.mem)
    (hdis : s.pixelAddr (s.work.i * s.width.toNat + s.work.c) + s.bpp ≤ s.dstAddr ∨
      s.dstAddr + (s.work.errX + s.newWidth.toNat) / s.width.toNat * s.bpp ≤
        s.pixelAddr (s.work.i * s.width.toNat + s.work.c)) :
    ∃ m : Memory,
      scaleColumn s = { s with mem := m, work := { s.work with
        c    := s.work.c + 1
        errX := (s.work.errX + s.newWidth.toNat) % s.width.toNat
        dcol := s.work.dcol + (s.work.errX + s.newWidth.toNat) / s.width.toNat } } ∧
      m.wf ∧
      (∀ j < (s.work.errX + s.newWidth.toNat) / s.width.toNat,
        m.readBytes (s.dstAddr + j * s.bpp) s.bpp = s.pixel (s.work.i * s.width.toNat + s.work.c)) ∧
      sameOutside s.mem m s.dstAddr ((s.work.errX + s.newWidth.toNat) / s.width.toNat * s.bpp) ∧
      (∀ p ∈ m, p ∈ s.mem ∨ (s.dstAddr ≤ p.1 ∧
        p.1 < s.dstAddr + (s.work.errX + s.newWidth.toNat) / s.width.toNat * s.bpp)) := by
  obtain ⟨m, q, hwf, hcopies, hout, hin⟩ := copyColumns_spec (s.work.errX + s.newWidth.toNat)
    { s with work := { s.work with errX := s.work.errX + s.newWidth.toNat } } hw le_rfl hm hdis
  refine ⟨m, ?_, hwf, hcopies, hout, hin⟩
  unfold scaleColumn
  simp only
  rw [q]
  rfl

/-- One row's end as one move (R202, R203): (errY + NH) / H rows, each holding the row written last. -/
theorem scaleRowEnd_spec {s : State} (hh : 1 ≤ s.height.toNat) (hm : Memory.wf s.mem) :
    ∃ m : Memory,
      scaleRowEnd s = { s with mem := m, work := { s.work with
        i    := s.work.i + 1
        c    := 0
        errX := 0
        dcol := 0
        errY := (s.work.errY + s.newHeight.toNat) % s.height.toNat
        drow := s.work.drow + (s.work.errY + s.newHeight.toNat) / s.height.toNat } } ∧
      m.wf ∧
      (∀ j < (s.work.errY + s.newHeight.toNat) / s.height.toNat,
        m.readBytes (s.dstRowAddr (s.work.drow + j)) (s.newWidth.toNat * s.bpp) =
          s.mem.readBytes (s.dstRowAddr s.work.drow) (s.newWidth.toNat * s.bpp)) ∧
      (∀ x, (x < s.dstRowAddr (s.work.drow + 1) ∨
          s.dstRowAddr (s.work.drow + (s.work.errY + s.newHeight.toNat) / s.height.toNat) ≤ x) →
        m.read x = s.mem.read x) ∧
      (∀ p ∈ m, p ∈ s.mem ∨ (s.dstRowAddr (s.work.drow + 1) ≤ p.1 ∧
        p.1 < s.dstRowAddr (s.work.drow + (s.work.errY + s.newHeight.toNat) / s.height.toNat))) := by
  obtain ⟨m, q, hwf, hcopies, hout, hin⟩ := finishRows_spec (s.work.errY + s.newHeight.toNat)
    { s with work := { s.work with errY := s.work.errY + s.newHeight.toNat } } hh le_rfl hm
  refine ⟨m, ?_, hwf, hcopies, hout, hin⟩
  unfold scaleRowEnd
  simp only
  rw [q]
  rfl

section
variable {s : State} (hc : Checked .scale s) (hb : scaleBounds s) (hi : s.work.i < s.height.toNat)
include hc hb hi

/-- The copies of one source column lie in the destination image (R201, R206). -/
theorem column_in_target (hcol : s.work.c < s.width.toNat) :
    s.dstAddr + (s.work.errX + s.newWidth.toNat) / s.width.toNat * s.bpp ≤ s.dstBase.toNat + s.newTotal * s.bpp := by
  obtain ⟨-, -, -, herrX, hdcol, -, hdrow⟩ := hb
  obtain ⟨-, hNH, -⟩ := hc.target rfl
  have hsum := (accumulate s.work.c s.newWidth.toNat s.width.toNat hc.width.1).1
  have hrow : s.work.drow < s.newHeight.toNat := hdrow ▸ cursor_lt hNH.1 hi
  have hend : s.work.dcol + (s.work.errX + s.newWidth.toNat) / s.width.toNat ≤ s.newWidth.toNat := by
    rw [hdcol, herrX, Nat.add_comm, hsum]
    exact cursor_le hcol
  have h := Nat.mul_le_mul_right s.bpp (raster_le hrow hend)
  rw [Nat.add_mul] at h
  simp only [State.dstAddr, State.newTotal]
  omega

/-- The source pixel lies outside its copies (R117). -/
theorem column_apart (hcol : s.work.c < s.width.toNat) :
    s.pixelAddr (s.work.i * s.width.toNat + s.work.c) + s.bpp ≤ s.dstAddr ∨
      s.dstAddr + (s.work.errX + s.newWidth.toNat) / s.width.toNat * s.bpp ≤
        s.pixelAddr (s.work.i * s.width.toNat + s.work.c) := by
  have hdst := column_in_target hc hb hi hcol
  have hbase : s.dstBase.toNat ≤ s.dstAddr := Nat.le_add_right _ _
  have hsrc : (s.work.i * s.width.toNat + s.work.c + 1) * s.bpp ≤ s.imageBytes :=
    Nat.mul_le_mul_right _ (raster_le hi hcol)
  rw [Nat.add_mul, Nat.one_mul] at hsrc
  have hbpp := hc.bpp_pos
  have happart := apart_of_not_overlap hc.noOverlap
  simp only [readRegion, writeRegion] at happart
  simp only [State.pixelAddr]
  obtain ⟨hNW, hNH, -⟩ := hc.target rfl
  have hpos : 0 < s.newTotal * s.bpp := Nat.mul_pos (Nat.mul_pos hNW.1 hNH.1) hbpp
  omega

/-- The rows a row's end writes lie in the destination image (R202, R207). -/
theorem rows_in_target :
    s.dstRowAddr (s.work.drow + (s.work.errY + s.newHeight.toNat) / s.height.toNat) ≤
      s.dstBase.toNat + s.newTotal * s.bpp := by
  obtain ⟨-, -, -, -, -, herrY, hdrow⟩ := hb
  have hsum := (accumulate s.work.i s.newHeight.toNat s.height.toNat hc.height.1).1
  rw [hdrow, herrY, Nat.add_comm (s.work.i * _ / _), hsum]
  refine Nat.add_le_add_left (Nat.mul_le_mul_right _ ?_) _
  rw [State.newTotal, Nat.mul_comm s.newWidth.toNat]
  exact Nat.mul_le_mul_right _ (cursor_le hi)

end

/-- A source column moves the body to the next column of its row (R201, R206). -/
theorem running_scaleColumn {s : State} (h : Running .scale s) (hi : s.work.i < s.height.toNat)
    (hcol : s.work.c < s.width.toNat) :
    Running .scale (scaleColumn s) ∧ (scaleColumn s).work.i = s.work.i ∧ (scaleColumn s).work.c = s.work.c + 1 ∧
      (scaleColumn s).width = s.width ∧ (scaleColumn s).height = s.height := by
  have htarget := column_in_target h.checked h.bounds hi hcol
  obtain ⟨m, q, hwf, -, -, hin⟩ := scaleColumn_spec h.checked.width.1 h.mem.1 (column_apart h.checked h.bounds hi hcol)
  obtain ⟨-, -, -, herrX, hdcol, herrY, hdrow⟩ := h.bounds
  obtain ⟨hdiv, hmod⟩ := accumulate s.work.c s.newWidth.toNat s.width.toNat h.checked.width.1
  rw [q]
  refine ⟨h.move hwf (fun p hp => (hin p hp).imp_right fun hp => ?_) h.stage
    ⟨hi.le, hcol, fun he => absurd he hi.ne, ?_, ?_, herrY, hdrow⟩, rfl, rfl, rfl, rfl⟩
  · exact ⟨(Nat.le_add_right _ _).trans hp.1, hp.2.trans_le htarget⟩
  · rw [herrX]
    exact hmod
  · rw [herrX, hdcol]
    exact (Nat.add_comm _ _).trans hdiv

/-- A row's end moves the body to the start of the next row (R202, R207). -/
theorem running_scaleRowEnd {s : State} (h : Running .scale s) (hi : s.work.i < s.height.toNat) :
    Running .scale (scaleRowEnd s) ∧ (scaleRowEnd s).work.i = s.work.i + 1 ∧ (scaleRowEnd s).work.c = 0 ∧
      (scaleRowEnd s).height = s.height := by
  have htarget := rows_in_target h.checked h.bounds hi
  obtain ⟨m, q, hwf, -, -, hin⟩ := scaleRowEnd_spec h.checked.height.1 h.mem.1
  obtain ⟨-, -, -, -, -, herrY, hdrow⟩ := h.bounds
  obtain ⟨hdiv, hmod⟩ := accumulate s.work.i s.newHeight.toNat s.height.toNat h.checked.height.1
  rw [q]
  refine ⟨h.move hwf (fun p hp => (hin p hp).imp_right fun hp => ?_) h.stage
    ⟨hi, Nat.zero_le _, fun _ => rfl, ?_, ?_, ?_, ?_⟩, rfl, rfl, rfl⟩
  · exact ⟨(Nat.le_add_right _ _).trans hp.1, hp.2.trans_le htarget⟩
  · simp
  · simp
  · rw [herrY]
    exact hmod
  · rw [herrY, hdrow]
    exact (Nat.add_comm _ _).trans hdiv

theorem endedOrRunning_scaleIter {s : State} (h : Running .scale s) : EndedOrRunning .scale (scaleIter s) := by
  rcases scaleIter_cases s with ⟨-, q⟩ | ⟨hi, hcol, q⟩ | ⟨hi, -, q⟩ <;> rw [q]
  · exact .inl ⟨rfl, inv_scaleComplete h.mem⟩
  · exact .inr (running_scaleColumn h hi hcol).1
  · exact .inr (running_scaleRowEnd h hi).1

theorem running_scaleColumns (n : Nat) {s : State} (h : Running .scale s) (hi : s.work.i < s.height.toNat)
    (hn : s.work.c + n ≤ s.width.toNat) :
    Running .scale (scaleColumns n s) ∧ (scaleColumns n s).work.i = s.work.i ∧
      (scaleColumns n s).height = s.height := by
  induction n generalizing s with
  | zero => exact ⟨h, rfl, rfl⟩
  | succ n ih =>
    obtain ⟨hr, ei, ec, ew, eh⟩ := running_scaleColumn h hi (by omega)
    obtain ⟨hr', ei', eh'⟩ := ih hr (by rw [ei, eh]; exact hi) (by rw [ec, ew]; omega)
    exact ⟨hr', ei'.trans ei, eh'.trans eh⟩

theorem running_scaleRows (n : Nat) {s : State} (h : Running .scale s) (hc : s.work.c = 0)
    (hn : s.work.i + n ≤ s.height.toNat) : Running .scale (scaleRows n s) := by
  induction n generalizing s with
  | zero => exact h
  | succ n ih =>
    have hi : s.work.i < s.height.toNat := by omega
    obtain ⟨hr, ei, eh⟩ := running_scaleColumns s.width.toNat h hi (by omega)
    obtain ⟨hr', ei', ec', eh'⟩ := running_scaleRowEnd hr (by rw [ei, eh]; exact hi)
    exact ih hr' ec' (by rw [ei', eh', ei, eh]; omega)

/-! ### The engine -/

theorem endedOrRunning_bodyRound {op : Op} {s : State} (h : Running op s) : EndedOrRunning op (bodyRound op s) := by
  cases op with
  | decode => exact endedOrRunning_decodeIter h
  | encode => exact endedOrRunning_encodeIter h
  | scale => exact endedOrRunning_scaleIter h
  | illegal => exact absurd rfl h.checked.legal

theorem inv_bodyStep {op : Op} {s t : State} (h : Running op s) (ht : bodyStep op s = .next t) : Inv t := by
  rw [bodyStep_eq h.phase h.stage ((checked_iff op s).2 h.checked)] at ht
  cases ht
  exact (endedOrRunning_bodyRound h).inv

/-- The command in CMD, and how it is run (R110, R113). -/
theorem runCommand_cases (s : State) :
    (opOf s.cmd = .decode ∧ runCommand s = execDecode s) ∨
    (opOf s.cmd = .encode ∧ runCommand s = execEncode s) ∨
    (opOf s.cmd = .scale ∧ runCommand s = execScale s) ∨
    (opOf s.cmd = .illegal ∧ runCommand s = .next (complete .illegalCommand Progress.zero s)) := by
  unfold runCommand opOf decodeCommand
  split_ifs
  · exact .inl ⟨rfl, rfl⟩
  · exact .inr (.inl ⟨rfl, rfl⟩)
  · exact .inr (.inr (.inl ⟨rfl, rfl⟩))
  · exact .inr (.inr (.inr ⟨rfl, rfl⟩))

/-- A command run whole keeps the invariant at its end. -/
theorem inv_runCommand {s t : State} (h : memInv s) (hs : StartHolds (opOf s.cmd) s) (ht : runCommand s = .next t) :
    Inv t := by
  rcases runCommand_cases s with ⟨e, q⟩ | ⟨e, q⟩ | ⟨e, q⟩ | ⟨-, q⟩ <;> rw [q] at ht
  · cases ht
    exact (endedOrRunning_decodeLoop _ (endedOrRunning_enterBody h (e ▸ hs))).inv
  · cases ht
    exact (endedOrRunning_encodeLoop _ (endedOrRunning_enterBody h (e ▸ hs))).inv
  · rcases execScale_cases s with ⟨err, -, q'⟩ | ⟨hc, q'⟩ <;> cases q'.symm.trans ht
    · exact inv_complete h _ _
    · have hr := running_beginBody h (e ▸ hs) hc
      exact inv_scaleComplete (running_scaleRows _ hr rfl (by simp [Work.initial])).mem
  · cases ht
    exact inv_complete h _ _

theorem inv_engineStep {s t : State} (h : Inv s) (ht : engineStep s = .next t) : Inv t := by
  unfold engineStep at ht
  split at ht
  · cases ht
    exact h
  · next op hp =>
    split at ht
    · have hs := h.start hp
      exact inv_runCommand h.1 (hs.cmd ▸ hs) ht
    · next hs => exact inv_bodyStep (h.running hp hs) ht

theorem inv_engineStepPart {s t : State} (h : Inv s) (ht : engineStepPart s = .next t) : Inv t := by
  unfold engineStepPart at ht
  split at ht
  · cases ht
    exact h
  · next op hp =>
    split at ht
    · cases ht
      have hs := h.start hp
      exact (endedOrRunning_enterBody h.1 (hs.cmd ▸ hs)).inv
    · next hs => exact inv_bodyStep (h.running hp hs) ht

/-! ### The outside world -/

/-- The invariant says nothing of WIGN, IE, the pending events, the last answer and the free draws. -/
theorem inv_congr {s : State} (h : Inv s) (wign ie : Bool) (inputs : List Input) (reply : Reply) (draws : Nat) :
    Inv { s with wign := wign, ie := ie, inputs := inputs, reply := reply, draws := draws } := h

theorem inv_writeStatus {s : State} (h : Inv s) (v : Word) : Inv (writeStatus v s) := by
  cases hp : s.phase with
  | idle => exact inv_of_idle hp h.1 (h.idle_work hp)
  | busy op =>
    have hd : writeStatus v s = { s with wign := s.wign && !(v.getLsbD 3) } := by
      simp only [writeStatus, (h.start hp).done, Bool.false_and]
    rw [hd]
    exact inv_congr h _ s.ie s.inputs s.reply s.draws

/-- A write of a register keeps the invariant: busy, the parameters stay (R112); Idle, they are free, and CMD starts a
command from the initial working state (R110). -/
theorem inv_writeReg {s : State} (h : Inv s) (r : Reg) (v : Word) : Inv (writeReg r v s) := by
  rcases reg_kind r with rfl | hr | rfl | rfl | hr
  · cases hp : s.phase with
    | idle =>
      rw [writeReg_cmd_of_idle hp]
      exact inv_of_checks rfl h.1 ⟨rfl, rfl, rfl, rfl, rfl, rfl⟩ rfl
    | busy op =>
      rw [writeReg_of_busy hp (.inl rfl)]
      exact inv_congr h true s.ie s.inputs s.reply s.draws
  · cases hp : s.phase with
    | idle =>
      rw [writeReg_param_of_idle hp hr]
      exact inv_of_idle (by simpa) (by simpa [memInv] using h.1) (by simpa using h.idle_work hp)
    | busy op =>
      rw [writeReg_of_busy hp (.inr hr)]
      exact inv_congr h true s.ie s.inputs s.reply s.draws
  · exact inv_writeStatus h v
  · exact inv_congr h s.wign _ s.inputs s.reply s.draws
  · rw [writeReg_of_readOnly hr]
    exact h

theorem inv_hostRegRead {s : State} (h : Inv s) (addr width : Nat) : Inv (hostRegRead addr width s) := by
  obtain ⟨p, d, q⟩ := hostRegRead_cases addr width s
  rw [q]
  exact inv_congr h s.wign s.ie s.inputs p d

theorem inv_hostRegWrite {s : State} (h : Inv s) (addr width : Nat) (v : Word) : Inv (hostRegWrite addr width v s) := by
  have hn : Inv { s with reply := .none } := inv_congr h s.wign s.ie s.inputs .none s.draws
  rcases hostRegWrite_cases addr width v s with q | ⟨r, -, -, q⟩ <;> rw [q]
  · exact hn
  · exact inv_writeReg hn r v

/-- A host write that is taken is to a byte that exists (R60). -/
theorem memOk_of_hostMemWrite {a : Word} {b : Byte} {s t : State} (h : hostMemWrite a b s = .next t) :
    memOk s.config a.toNat = true := by
  unfold hostMemWrite at h
  split at h
  · cases h
  · next hok => simpa using hok

theorem inv_hostMemWrite {a : Word} {b : Byte} {s t : State} (h : Inv s) (ht : hostMemWrite a b s = .next t) :
    Inv t := by
  have hok := memOk_of_hostMemWrite ht
  rw [eq_of_hostMemWrite ht]
  refine ⟨memInv_of_mem h.1 rfl (Memory.wf_write h.1.1 _ _) fun p hp => ?_, h.2⟩
  rcases Memory.mem_write hp with hp | ⟨rfl, -⟩
  · exact .inl hp
  · exact .inr hok

theorem memInv_resetBlock {s : State} (h : memInv s) : memInv (resetBlock s) := by
  unfold memInv
  rw [resetBlock_mem, resetBlock_config, resetMemory]
  split
  · exact h
  · exact ⟨(read_scramble h.1 ..).1, fun p hp => (mem_scramble hp).elim (h.2 p) id⟩

theorem inv_takeInput {x : Input} {s t : State} (h : Inv s) (ht : takeInput x s = .next t) : Inv t := by
  cases x with
  | regRead addr width => cases ht; exact inv_hostRegRead h addr width
  | regWrite addr width v => cases ht; exact inv_hostRegWrite h addr width v
  | memRead a =>
    rw [eq_of_hostMemRead ht]
    exact inv_congr h s.wign s.ie s.inputs _ s.draws
  | memWrite a b => exact inv_hostMemWrite h ht
  | rst => cases ht; exact inv_of_idle rfl (memInv_resetBlock h.1) rfl
  | engine => exact inv_engineStep h ht
  | enginePart => exact inv_engineStepPart h ht

/-- Settles O50: the engine's rounds keep a running body in its bounds or end it, and each event of the outside world
keeps the invariant by its own rule. -/
theorem stepKeepsTheInvariant : Obligations.StepKeepsTheInvariant := by
  intro s t h ht
  unfold step at ht
  split at ht
  · exact inv_engineStep h ht
  · exact inv_takeInput (inv_congr h s.wign s.ie _ s.reply s.draws) ht

/-- Settles O49: at reset memory is empty and the engine Idle, with the working state every command starts from. -/
theorem resetMeetsTheInvariant : Obligations.ResetMeetsTheInvariant :=
  inv_of_idle rfl ⟨Memory.wf_nil, fun _ hp => absurd hp List.not_mem_nil⟩ rfl

end Sys2Proof.Machine
end

section
/-! ## Host accesses to memory and the next packet (R60, R66, R72, R75, R140, R265) -/

namespace Sys2Proof.Machine

/-! ### Which move a step makes -/

theorem step_of_noInput {s : State} (h : s.inputs = []) : step s = engineStep s := by
  simp only [step, h]

theorem step_of_input {s : State} {x : Input} {rest : List Input} (h : s.inputs = x :: rest) :
    step s = takeInput x { s with inputs := rest } := by
  simp only [step, h]

theorem engineStep_of_checks {s : State} {op : Op} (hp : s.phase = .busy op) (hs : s.work.stage = .checks) :
    engineStep s = runCommand s := by
  simp only [engineStep, hp, hs]

theorem engineStep_of_body {s : State} {op : Op} (hp : s.phase = .busy op) (hs : s.work.stage = .body) :
    engineStep s = bodyStep op s := by
  simp only [engineStep, hp, hs]

theorem engineStepPart_of_checks {s : State} {op : Op} (hp : s.phase = .busy op) (hs : s.work.stage = .checks) :
    engineStepPart s = .next (enterBody (opOf s.cmd) s) := by
  simp only [engineStepPart, hp, hs]

theorem engineStepPart_of_body {s : State} {op : Op} (hp : s.phase = .busy op) (hs : s.work.stage = .body) :
    engineStepPart s = bodyStep op s := by
  simp only [engineStepPart, hp, hs]

/-! ### The next packet -/

theorem headerDue_iff (s : State) :
    headerDue s = true ↔ s.work.pix < s.total ∧ s.work.inpos < s.srcLen.toNat := by
  simp [headerDue]

/-- R75: a body with a header due fetches it and executes the packet it decodes to. -/
theorem bodyStep_decode_of_headerDue {s : State} (hc : checkError .decode s = none) (hd : headerDue s = true) :
    bodyStep .decode s = exec (decodeHeader (s.mem.read s.headerAddr)) (fetchHeader s) := by
  simp only [bodyStep, hc, hd, if_true, fetchHeader_work]

/-- Settles O6: with no event pending the engine has the turn, and its DECODE body has a header due. -/
theorem stepRunsThePacket : Obligations.StepRunsThePacket := by
  rintro s hin ⟨hp, hs, hc⟩ hpix hpos
  rw [step_of_noInput hin, engineStep_of_body hp hs,
    bodyStep_decode_of_headerDue hc ((headerDue_iff s).2 ⟨hpix, hpos⟩)]
  rfl

/-! ### Host accesses to memory -/

/-- R265 leaves the host every read while Idle, and one outside the write region while BUSY = 1. -/
theorem readRaces_eq_false {s : State} {a : Nat}
    (h : s.phase = .idle ∨ ∃ op, s.phase = .busy op ∧ ¬ inRegion (writeRegion op s) a) : readRaces s a = false := by
  rcases h with hp | ⟨op, hp, hw⟩
  · simp only [readRaces, hp]
  · rw [(races_of_busy hp a).1, Bool.eq_false_iff]
    exact mt (Region.contains_iff _ a).1 hw

/-- R265 leaves the host every write while Idle, and one outside both regions while BUSY = 1. -/
theorem writeRaces_eq_false {s : State} {a : Nat}
    (h : s.phase = .idle ∨ ∃ op, s.phase = .busy op ∧ ¬ inRegion (readRegion op s) a ∧
      ¬ inRegion (writeRegion op s) a) : writeRaces s a = false := by
  rcases h with hp | ⟨op, hp, hr, hw⟩
  · simp only [writeRaces, hp]
  · rw [(races_of_busy hp a).2, Bool.or_eq_false_iff, Bool.eq_false_iff, Bool.eq_false_iff]
    exact ⟨mt (Region.contains_iff _ a).1 hr, mt (Region.contains_iff _ a).1 hw⟩

theorem hostMemRead_of_allowed {a : Word} {s : State} (hok : memOk s.config a.toNat = true)
    (hr : readRaces s a.toNat = false) : hostMemRead a s = .next { s with reply := .byte (s.mem.read a.toNat) } := by
  simp [hostMemRead, hok, hr]

theorem hostMemWrite_of_allowed {a : Word} {s : State} (hok : memOk s.config a.toNat = true)
    (hw : writeRaces s a.toNat = false) (b : Byte) :
    hostMemWrite a b s = .next { s with mem := s.mem.write a.toNat b, reply := .none } := by
  simp [hostMemWrite, hok, hw]

theorem hostMemRead_of_hole {a : Word} {s : State} (h : memOk s.config a.toNat = false) :
    hostMemRead a s = .fault (.noMemory a) := by
  simp [hostMemRead, h]

theorem hostMemWrite_of_hole {a : Word} {s : State} (h : memOk s.config a.toNat = false) (b : Byte) :
    hostMemWrite a b s = .fault (.noMemory a) := by
  simp [hostMemWrite, h]

/-- Settles O21: an access R265 allows is a plain read or write of memory. -/
theorem hostMemoryIsPlain : Obligations.HostMemoryIsPlain := by
  refine ⟨Region.contains_iff, fun s rest a b hwf hok => ⟨fun h => ?_, fun h => ?_⟩⟩
  · exact hostMemRead_of_allowed (s := { s with inputs := rest }) hok (readRaces_eq_false h)
  · exact ⟨s.mem.write a.toNat b, Memory.wf_write hwf _ _, Memory.read_write_same hwf _ _,
      fun x hx => Memory.read_write_ne hwf b hx,
      hostMemWrite_of_allowed (s := { s with inputs := rest }) hok (writeRaces_eq_false h) b⟩

/-- Settles O23: `mem_ok` is the first thing a host access asks. -/
theorem holesAreNoMemory : Obligations.HolesAreNoMemory := fun s rest _ b h =>
  ⟨hostMemWrite_of_hole (s := { s with inputs := rest }) h b, hostMemRead_of_hole (s := { s with inputs := rest }) h⟩

/-! ### The regions -/

theorem contains_empty (base a : Nat) : Region.contains ⟨base, 0⟩ a = false := by
  rw [Bool.eq_false_iff, ne_eq, Region.contains_iff]
  exact fun h => absurd h.2 (Nat.not_lt.2 h.1)

/-- Settles O24: the table of R66 by definition, and an illegal command's regions are empty. -/
theorem regionsOfTheCommands : Obligations.RegionsOfTheCommands := fun _ =>
  ⟨rfl, rfl, rfl, rfl, rfl, rfl, fun a => ⟨contains_empty 0 a, contains_empty 0 a⟩⟩

end Sys2Proof.Machine
end

section
/-! ## While a command runs, only its write region is written (R66, R261, R262) -/

namespace Sys2Proof.Machine

/-! ### Moves that write only the write region -/

/-- From `s` to `t`, memory is written only in the write region of `op`, and that region stays where it is (R66, R112). -/
structure WritesRegion (op : Op) (s t : State) : Prop where
  region : writeRegion op t = writeRegion op s
  frame  : ∀ a, ¬ inRegion (writeRegion op s) a → t.mem.read a = s.mem.read a

theorem WritesRegion.refl (op : Op) (s : State) : WritesRegion op s s := ⟨rfl, fun _ _ => rfl⟩

theorem WritesRegion.trans {op : Op} {s t u : State} (h : WritesRegion op s t) (g : WritesRegion op t u) :
    WritesRegion op s u :=
  ⟨g.region.trans h.region, fun a ha => (g.frame a (h.region ▸ ha)).trans (h.frame a ha)⟩

/-- The regions are computed from the registers, so a move of memory and the working state keeps them. -/
theorem writesRegion_move {op : Op} {s : State} {m : Memory} {w : Work}
    (h : ∀ a, ¬ inRegion (writeRegion op s) a → m.read a = s.mem.read a) :
    WritesRegion op s { s with mem := m, work := w } :=
  ⟨rfl, h⟩

theorem writesRegion_complete (op : Op) (e : ErrorCode) (p : Progress) (s : State) :
    WritesRegion op s (complete e p s) :=
  ⟨rfl, fun _ _ => rfl⟩

theorem writesRegion_beginBody (op : Op) (s : State) : WritesRegion op s (beginBody op s) :=
  ⟨rfl, fun _ _ => rfl⟩

theorem writesRegion_enterBody (op : Op) (s : State) : WritesRegion op s (enterBody op s) := by
  rcases enterBody_cases op s with ⟨e, -, q⟩ | ⟨-, q⟩ <;> rw [q]
  · exact writesRegion_complete op e _ s
  · exact writesRegion_beginBody op s

/-! ### DECODE -/

/-- R143, R144: a packet's pixels are written at its own pixel addresses alone. -/
theorem read_packetWritten_out {s : State} (hm : Memory.wf s.mem) (hd : Byte) {x : Nat}
    (hx : x < s.pixelAddr s.work.pix ∨ s.pixelAddr s.work.pix + headerCount hd * s.bpp ≤ x) :
    (packetWritten (headerCount hd) (payloadLength s.bpp (decodeHeader hd)) (headerPixel hd s.bpp) s).mem.read x =
      s.mem.read x := by
  unfold decodeHeader headerPixel
  split
  · exact (runWritten_read hm (headerCount hd)).2 x hx
  · exact (rawWritten_read hm (headerCount hd)).2 x hx

theorem writesRegion_packetAt {s : State} (h : Running .decode s) (hd : Byte) :
    WritesRegion .decode s (packetAt hd s) := by
  rw [packetAt_eq]
  rcases decodePacket_cases (headerCount hd) (payloadLength s.bpp (decodeHeader hd)) (headerPixel hd s.bpp) s
    with ⟨-, q⟩ | ⟨-, -, q⟩ | ⟨hcount, -, q⟩ <;> rw [q]
  · exact writesRegion_complete .decode _ _ s
  · exact writesRegion_complete .decode _ _ s
  · refine writesRegion_move fun a ha => read_packetWritten_out h.mem.1 hd ?_
    have hout := mt (packet_in_image (a := a) hcount) ha
    omega

theorem writesRegion_decodeIter {s : State} (h : Running .decode s) : WritesRegion .decode s (decodeIter s) := by
  rcases decodeIter_cases s with ⟨-, q⟩ | ⟨-, -, q⟩ | ⟨-, -, q⟩ <;> rw [q]
  · exact writesRegion_complete .decode _ _ s
  · exact writesRegion_complete .decode _ _ s
  · exact (writesRegion_move fun _ _ => rfl).trans (writesRegion_packetAt h.fetchHeader _)

theorem writesRegion_decodeLoop (n : Nat) {s : State} (h : EndedOrRunning .decode s) :
    WritesRegion .decode s (decodeLoop n s) := by
  induction n generalizing s with
  | zero => exact .refl .decode s
  | succ n ih =>
    rcases h with ⟨hp, -⟩ | hr
    · rw [decodeLoop_idle hp]
      exact .refl .decode s
    · rw [decodeLoop_busy hr.phase]
      exact (writesRegion_decodeIter hr).trans (ih (endedOrRunning_decodeIter hr))

/-! ### ENCODE -/

/-- R174: a packet that is written fits in the destination buffer. -/
theorem writesRegion_encodeIter {s : State} (h : Running .encode s) : WritesRegion .encode s (encodeIter s) := by
  rcases encodeIter_cases s with ⟨-, q⟩ | ⟨-, -, q⟩ | ⟨-, hfit, q⟩ <;> rw [q]
  · exact writesRegion_complete .encode _ _ s
  · exact writesRegion_complete .encode _ _ s
  · refine writesRegion_move fun a ha => Memory.read_writeBytes_out h.mem.1 ?_
    simp only [inRegion, writeRegion] at ha
    omega

theorem writesRegion_encodeLoop (n : Nat) {s : State} (h : EndedOrRunning .encode s) :
    WritesRegion .encode s (encodeLoop n s) := by
  induction n generalizing s with
  | zero => exact .refl .encode s
  | succ n ih =>
    rcases h with ⟨hp, -⟩ | hr
    · rw [encodeLoop_idle hp]
      exact .refl .encode s
    · rw [encodeLoop_busy hr.phase]
      exact (writesRegion_encodeIter hr).trans (ih (endedOrRunning_encodeIter hr))

/-! ### SCALE -/

/-- R201, R206: a column's copies lie in the destination image. -/
theorem writesRegion_scaleColumn {s : State} (h : Running .scale s) (hi : s.work.i < s.height.toNat)
    (hcol : s.work.c < s.width.toNat) : WritesRegion .scale s (scaleColumn s) := by
  have htarget := column_in_target h.checked h.bounds hi hcol
  have hbase : s.dstBase.toNat ≤ s.dstAddr := Nat.le_add_right _ _
  obtain ⟨m, q, -, -, hout, -⟩ :=
    scaleColumn_spec h.checked.width.1 h.mem.1 (column_apart h.checked h.bounds hi hcol)
  rw [q]
  refine writesRegion_move fun a ha => hout a ?_
  simp only [inRegion, writeRegion] at ha
  omega

/-- R202, R207: the rows a row's end writes lie in the destination image. -/
theorem writesRegion_scaleRowEnd {s : State} (h : Running .scale s) (hi : s.work.i < s.height.toNat) :
    WritesRegion .scale s (scaleRowEnd s) := by
  have htarget := rows_in_target h.checked h.bounds hi
  have hbase : s.dstBase.toNat ≤ s.dstRowAddr (s.work.drow + 1) := Nat.le_add_right _ _
  obtain ⟨m, q, -, -, hout, -⟩ := scaleRowEnd_spec h.checked.height.1 h.mem.1
  rw [q]
  refine writesRegion_move fun a ha => hout a ?_
  simp only [inRegion, writeRegion] at ha
  omega

theorem writesRegion_scaleColumns (n : Nat) {s : State} (h : Running .scale s) (hi : s.work.i < s.height.toNat)
    (hn : s.work.c + n ≤ s.width.toNat) : WritesRegion .scale s (scaleColumns n s) := by
  induction n generalizing s with
  | zero => exact .refl .scale s
  | succ n ih =>
    have hcol : s.work.c < s.width.toNat := by omega
    obtain ⟨hr, ei, ec, ew, eh⟩ := running_scaleColumn h hi hcol
    exact (writesRegion_scaleColumn h hi hcol).trans
      (ih hr (by rw [ei, eh]; exact hi) (by rw [ec, ew]; omega))

theorem writesRegion_scaleRows (n : Nat) {s : State} (h : Running .scale s) (hc : s.work.c = 0)
    (hn : s.work.i + n ≤ s.height.toNat) : WritesRegion .scale s (scaleRows n s) := by
  induction n generalizing s with
  | zero => exact .refl .scale s
  | succ n ih =>
    have hi : s.work.i < s.height.toNat := by omega
    have hcols : s.work.c + s.width.toNat ≤ s.width.toNat := by omega
    obtain ⟨hr, ei, eh⟩ := running_scaleColumns s.width.toNat h hi hcols
    have hi' : (scaleColumns s.width.toNat s).work.i < (scaleColumns s.width.toNat s).height.toNat := by
      rw [ei, eh]
      exact hi
    obtain ⟨hr', ei', ec', eh'⟩ := running_scaleRowEnd hr hi'
    exact ((writesRegion_scaleColumns _ h hi hcols).trans (writesRegion_scaleRowEnd hr hi')).trans
      (ih hr' ec' (by rw [ei', eh', ei, eh]; omega))

/-! ### The engine

SCALE's completion exchanges the two buffers (R205), so at a command's end only the frame is left, around the region the
command had at its start. -/

theorem read_bodyRound_out {op : Op} {s : State} (h : Running op s) {a : Nat} (ha : ¬ inRegion (writeRegion op s) a) :
    (bodyRound op s).mem.read a = s.mem.read a := by
  cases op with
  | decode => exact (writesRegion_decodeIter h).frame a ha
  | encode => exact (writesRegion_encodeIter h).frame a ha
  | illegal => exact absurd rfl h.checked.legal
  | scale =>
    show (scaleIter s).mem.read a = _
    rcases scaleIter_cases s with ⟨-, q⟩ | ⟨hi, hcol, q⟩ | ⟨hi, -, q⟩ <;> rw [q]
    · rfl
    · exact (writesRegion_scaleColumn h hi hcol).frame a ha
    · exact (writesRegion_scaleRowEnd h hi).frame a ha

theorem read_bodyStep_out {op : Op} {s t : State} (h : Running op s) (ht : bodyStep op s = .next t) {a : Nat}
    (ha : ¬ inRegion (writeRegion op s) a) : t.mem.read a = s.mem.read a := by
  rw [bodyStep_eq h.phase h.stage ((checked_iff op s).2 h.checked)] at ht
  cases ht
  exact read_bodyRound_out h ha

/-- A command run whole writes only its write region. -/
theorem read_runCommand_out {op : Op} {s t : State} (h : memInv s) (hs : StartHolds op s)
    (ht : runCommand s = .next t) {a : Nat} (ha : ¬ inRegion (writeRegion op s) a) :
    t.mem.read a = s.mem.read a := by
  obtain rfl := hs.cmd
  rcases runCommand_cases s with ⟨e, q⟩ | ⟨e, q⟩ | ⟨e, q⟩ | ⟨-, q⟩ <;> rw [q] at ht
  · rw [e] at hs ha
    cases ht
    exact ((writesRegion_enterBody .decode s).trans
      (writesRegion_decodeLoop _ (endedOrRunning_enterBody h hs))).frame a ha
  · rw [e] at hs ha
    cases ht
    exact ((writesRegion_enterBody .encode s).trans
      (writesRegion_encodeLoop _ (endedOrRunning_enterBody h hs))).frame a ha
  · rw [e] at hs ha
    rcases execScale_cases s with ⟨err, -, q'⟩ | ⟨hc, q'⟩ <;> cases q'.symm.trans ht
    · rfl
    · have hrows := writesRegion_scaleRows s.height.toNat (running_beginBody h hs hc) rfl (by simp [Work.initial])
      exact ((writesRegion_beginBody .scale s).trans hrows).frame a ha
  · cases ht
    rfl

theorem read_engineStep_out {op : Op} {s t : State} (h : Inv s) (hp : s.phase = .busy op)
    (ht : engineStep s = .next t) {a : Nat} (ha : ¬ inRegion (writeRegion op s) a) :
    t.mem.read a = s.mem.read a := by
  cases hs : s.work.stage with
  | checks =>
    rw [engineStep_of_checks hp hs] at ht
    exact read_runCommand_out h.1 (h.start hp) ht ha
  | body =>
    rw [engineStep_of_body hp hs] at ht
    exact read_bodyStep_out (h.running hp hs) ht ha

theorem read_engineStepPart_out {op : Op} {s t : State} (h : Inv s) (hp : s.phase = .busy op)
    (ht : engineStepPart s = .next t) {a : Nat} (ha : ¬ inRegion (writeRegion op s) a) :
    t.mem.read a = s.mem.read a := by
  cases hs : s.work.stage with
  | checks =>
    rw [engineStepPart_of_checks hp hs, ← (h.start hp).cmd] at ht
    cases ht
    exact (writesRegion_enterBody op s).frame a ha
  | body =>
    rw [engineStepPart_of_body hp hs] at ht
    exact read_bodyStep_out (h.running hp hs) ht ha

/-! ### The outside world -/

@[simp] theorem writeReg_mem (r : Reg) (v : Word) (s : State) : (writeReg r v s).mem = s.mem := by
  cases r <;> simp [writeReg, apply_ite State.mem]

@[simp] theorem hostRegRead_mem (addr width : Nat) (s : State) : (hostRegRead addr width s).mem = s.mem := by
  obtain ⟨p, d, h⟩ := hostRegRead_cases addr width s
  rw [h]

@[simp] theorem hostRegWrite_mem (addr width : Nat) (v : Word) (s : State) :
    (hostRegWrite addr width v s).mem = s.mem := by
  rcases hostRegWrite_cases addr width v s with h | ⟨r, -, -, h⟩ <;> simp [h]

theorem Region.inSpace_le (r : Region) : r.inSpace ≤ r.len := Nat.min_le_left _ _

/-- R262: RST during a command frees only bytes of its write region. -/
theorem read_resetBlock_out {op : Op} {s : State} (hm : Memory.wf s.mem) (hp : s.phase = .busy op) {a : Nat}
    (ha : ¬ inRegion (writeRegion op s) a) : (resetBlock s).mem.read a = s.mem.read a := by
  have hle := (writeRegion op s).inSpace_le
  unfold inRegion at ha
  simp only [resetBlock_mem, resetMemory, hp]
  rw [(read_scramble hm ..).2, if_neg (by omega)]

theorem read_takeInput_out {op : Op} {x : Input} {s t : State} (h : Inv s) (hp : s.phase = .busy op)
    (hx : ∀ a b, x ≠ .memWrite a b) (ht : takeInput x s = .next t) {a : Nat}
    (ha : ¬ inRegion (writeRegion op s) a) : t.mem.read a = s.mem.read a := by
  cases x with
  | regRead addr width => cases ht; rw [hostRegRead_mem]
  | regWrite addr width v => cases ht; rw [hostRegWrite_mem]
  | memRead c => rw [eq_of_hostMemRead ht]
  | memWrite c b => exact absurd rfl (hx c b)
  | rst => cases ht; exact read_resetBlock_out h.1.1 hp ha
  | engine => exact read_engineStep_out h hp ht ha
  | enginePart => exact read_engineStepPart_out h hp ht ha

/-- Settles O52: the engine's rounds write inside the write region, RST frees only bytes of it, and the other events that
are no memory write leave memory as it is. -/
theorem onlyTheWriteRegionIsWritten : Obligations.OnlyTheWriteRegionIsWritten := by
  intro s t op h hp hin ht a ha
  have hout : ¬ inRegion (writeRegion op s) a := mt (Region.contains_iff _ a).2 (Bool.eq_false_iff.1 ha)
  cases hi : s.inputs with
  | nil =>
    rw [step_of_noInput hi] at ht
    exact read_engineStep_out h hp ht hout
  | cons x rest =>
    rw [step_of_input hi] at ht
    exact read_takeInput_out (s := { s with inputs := rest }) (inv_congr h s.wign s.ie rest s.reply s.draws) hp
      (fun c b hx => hin c b rest (hx ▸ hi)) ht hout

end Sys2Proof.Machine
end

section
/-! ## The two formats: decoder and encoder (R91 to R98), and the packets of any stream (R90, R96) -/

namespace Sys2Proof.Machine

/-! ### Headers (R91, R92, R94) -/

theorem decodeHeader_of_lt {h : Byte} (hh : h.toNat < 128) : decodeHeader h = .raw (h.toNat + 1) := by
  have hraw : ¬ headerIsRun h = true := fun hr => Nat.not_le.2 hh ((headerIsRun_iff h).1 hr)
  rw [decodeHeader, if_neg hraw, headerCount_eq, Nat.mod_eq_of_lt hh]

theorem decodeHeader_of_ge {h : Byte} (hh : 128 ≤ h.toNat) : decodeHeader h = .run (h.toNat - 127) := by
  have hcount : headerCount h = h.toNat - 127 := by have := headerCount_eq h; omega
  rw [decodeHeader, if_pos ((headerIsRun_iff h).2 hh), hcount]

theorem decodeHeader_rawHeader {n : Nat} (h1 : 1 ≤ n) (h2 : n ≤ 128) : decodeHeader (rawHeader n) = .raw n := by
  have hn := rawHeader_toNat h1 h2
  rw [decodeHeader_of_lt (by omega), hn, Nat.sub_add_cancel h1]

theorem decodeHeader_runHeader {n : Nat} (h1 : 1 ≤ n) (h2 : n ≤ 128) : decodeHeader (runHeader n) = .run n := by
  have hn := runHeader_toNat h1 h2
  rw [decodeHeader_of_ge (by omega), hn, show 128 + (n - 1) - 127 = n by omega]

theorem wf_raw_iff (n : Nat) : (Instr.raw n).wf = true ↔ 1 ≤ n ∧ n ≤ 128 := by simp [Instr.wf]

theorem wf_run_iff (n : Nat) : (Instr.run n).wf = true ↔ 1 ≤ n ∧ n ≤ 128 := by simp [Instr.wf]

theorem wf_decodeHeader (h : Byte) : (decodeHeader h).wf = true := by
  rcases Nat.lt_or_ge h.toNat 128 with hh | hh
  · rw [decodeHeader_of_lt hh, wf_raw_iff]
    omega
  · rw [decodeHeader_of_ge hh, wf_run_iff]
    omega

theorem encode_decodeHeader (h : Byte) : encode (decodeHeader h) = .header h := by
  rcases Nat.lt_or_ge h.toNat 128 with hh | hh
  · have hback : rawHeader (h.toNat + 1) = h :=
      BitVec.eq_of_toNat_eq (rawHeader_toNat (Nat.le_add_left 1 _) hh)
    rw [decodeHeader_of_lt hh, encode, hback]
  · have hback : runHeader (h.toNat - 127) = h := by
      apply BitVec.eq_of_toNat_eq
      rw [runHeader_toNat (by omega) (by omega)]
      omega
    rw [decodeHeader_of_ge hh, encode, hback]

/-! ### Command words (R97, R98) -/

theorem decodeCommand_ok_iff (w : Word) (i : Instr) :
    decodeCommand w = .ok i ↔ (w = 1 ∧ i = .decode) ∨ (w = 2 ∧ i = .encode) ∨ (w = 3 ∧ i = .scale) := by
  unfold decodeCommand
  split_ifs with h1 h2 h3 <;> simp_all [eq_comm]

theorem decodeCommand_error_iff (w : Word) :
    (∃ r, decodeCommand w = .error r) ↔ (w ≠ 1 ∧ w ≠ 2 ∧ w ≠ 3) := by
  unfold decodeCommand
  split_ifs with h1 h2 h3 <;> simp_all

/-! ### The obligations on the two formats -/

/-- Settles O3, by the packets' counts read back from their headers; a command word has no operand. -/
theorem decodeInvertsEncode : Obligations.DecodeInvertsEncode := by
  intro i hi
  cases i with
  | raw n =>
    obtain ⟨h1, h2⟩ := (wf_raw_iff n).1 hi
    exact congrArg Except.ok (decodeHeader_rawHeader h1 h2)
  | run n =>
    obtain ⟨h1, h2⟩ := (wf_run_iff n).1 hi
    exact congrArg Except.ok (decodeHeader_runHeader h1 h2)
  | decode => exact (decodeCommand_ok_iff _ _).2 (.inl ⟨rfl, rfl⟩)
  | encode => exact (decodeCommand_ok_iff _ _).2 (.inr (.inl ⟨rfl, rfl⟩))
  | scale => exact (decodeCommand_ok_iff _ _).2 (.inr (.inr ⟨rfl, rfl⟩))

/-- Settles O4: a header goes back to itself from either packet, and three command words are accepted. -/
theorem encodeInvertsDecode : Obligations.EncodeInvertsDecode := by
  refine ⟨fun u i hu => ?_, decodeCommand_error_iff⟩
  cases u with
  | header h =>
    cases hu
    exact ⟨wf_decodeHeader h, encode_decodeHeader h⟩
  | command w =>
    rcases (decodeCommand_ok_iff w i).1 hu with ⟨rfl, rfl⟩ | ⟨rfl, rfl⟩ | ⟨rfl, rfl⟩ <;> exact ⟨rfl, rfl⟩

/-- Settles O1, by running the decoder on each word. -/
theorem writtenWordsDecode : Obligations.WrittenWordsDecode := by
  unfold Obligations.WrittenWordsDecode
  decide

/-- Settles O2, by the two forms of a header. -/
theorem everyHeaderIsAPacket : Obligations.EveryHeaderIsAPacket := fun h =>
  ⟨fun hh => congrArg Except.ok (decodeHeader_of_lt hh), fun hh => congrArg Except.ok (decodeHeader_of_ge hh),
    headerCount_eq h⟩

/-! ### The packet at an offset of the stream (R90 to R93) -/

theorem packetOk_decodeHeader {h : Byte} {b : Nat} {pb : List Byte}
    (hl : pb.length = payloadLength b (decodeHeader h)) : packetOk b (decodeHeader h, pb) := by
  rcases Nat.lt_or_ge h.toNat 128 with hh | hh
  · rw [decodeHeader_of_lt hh] at hl ⊢
    exact ⟨by omega, by omega, hl⟩
  · rw [decodeHeader_of_ge hh] at hl ⊢
    exact ⟨by omega, by omega, hl⟩

theorem packetCount_decodeHeader (h : Byte) (pb : List Byte) :
    packetCount (decodeHeader h, pb) = h.toNat % 128 + 1 := by
  rw [← headerCount_eq]
  unfold decodeHeader
  split <;> rfl

theorem packetWire_decodeHeader (h : Byte) (pb : List Byte) : packetWire (decodeHeader h, pb) = h :: pb := by
  rcases Nat.lt_or_ge h.toNat 128 with hh | hh
  · have hback : BitVec.ofNat 8 (h.toNat + 1 - 1) = h := by simp
    rw [decodeHeader_of_lt hh]
    exact congrArg (· :: pb) hback
  · have hback : BitVec.ofNat 8 (128 + (h.toNat - 127 - 1)) = h := by
      rw [show 128 + (h.toNat - 127 - 1) = h.toNat by omega, BitVec.ofNat_toNat, BitVec.setWidth_eq]
    rw [decodeHeader_of_ge hh]
    exact congrArg (· :: pb) hback

/-- The header byte at offset `len` of DECODE's stream. -/
def streamHeader (s : State) (len : Nat) : Byte := s.mem.read (s.srcBase.toNat + len)

/-- The length of the payload that header announces (R93). -/
def streamPayload (s : State) (len : Nat) : Nat := payloadLength s.bpp (decodeHeader (streamHeader s len))

/-- The packet at offset `len` of DECODE's stream, with the payload behind its header. -/
def streamPacket (s : State) (len : Nat) : Instr × List Byte :=
  (decodeHeader (streamHeader s len), s.mem.readBytes (s.srcBase.toNat + len + 1) (streamPayload s len))

theorem packetOk_streamPacket (s : State) (len : Nat) : packetOk s.bpp (streamPacket s len) :=
  packetOk_decodeHeader (Memory.length_readBytes ..)

theorem packetWire_streamPacket (s : State) (len : Nat) :
    packetWire (streamPacket s len) = s.mem.readBytes (s.srcBase.toNat + len) (streamPayload s len + 1) :=
  packetWire_decodeHeader ..

/-- DECODE's endings (R141, R142, R146) in terms of the packet at the offset. -/
theorem decodeEnd_eq (s : State) (len cnt : Nat) :
    decodeEnd s len cnt =
      if cnt = s.total then some .success
      else if s.srcLen.toNat ≤ len then some .unexpectedEndOfStream
      else if s.total < cnt + packetCount (streamPacket s len) then some .pixelCountOverflow
      else if s.srcLen.toNat < len + 1 + streamPayload s len then some .unexpectedEndOfStream
      else none := by
  rw [streamPacket, packetCount_decodeHeader, streamPayload, payloadLength_header]
  rfl

theorem fits_of_decodeEnd_none {s : State} {len cnt : Nat} (h : decodeEnd s len cnt = none) :
    cnt + packetCount (streamPacket s len) ≤ s.total ∧ len + (streamPayload s len + 1) ≤ s.srcLen.toNat := by
  rw [decodeEnd_eq] at h
  split_ifs at h
  omega

/-! ### Every stream is packets up to an ending (R96, R141, R142, R146) -/

/-- From offset `len` of the stream, with `cnt` pixels written, the well-formed packets `ps` follow, whole within SRC_LEN
and within the image, and DECODE ends behind them with `e`. -/
structure PacketsUntil (s : State) (len cnt : Nat) (ps : List (Instr × List Byte)) (e : ErrorCode) : Prop where
  ok    : ∀ p ∈ ps, packetOk s.bpp p
  wire  : s.mem.readBytes (s.srcBase.toNat + len) (wireOf ps).length = wireOf ps
  fits  : len + (wireOf ps).length ≤ s.srcLen.toNat
  count : cnt + countOf ps ≤ s.total
  ends  : decodeEnd s (len + (wireOf ps).length) (cnt + countOf ps) = some e

theorem PacketsUntil.nil {s : State} {len cnt : Nat} {e : ErrorCode} (hl : len ≤ s.srcLen.toNat) (hc : cnt ≤ s.total)
    (he : decodeEnd s len cnt = some e) : PacketsUntil s len cnt [] e :=
  ⟨by simp, rfl, hl, hc, he⟩

theorem PacketsUntil.cons {s : State} {len cnt : Nat} {ps : List (Instr × List Byte)} {e : ErrorCode}
    (h : PacketsUntil s (len + (streamPayload s len + 1)) (cnt + packetCount (streamPacket s len)) ps e) :
    PacketsUntil s len cnt (streamPacket s len :: ps) e := by
  have hwire : wireOf (streamPacket s len :: ps) =
      s.mem.readBytes (s.srcBase.toNat + len) (streamPayload s len + 1) ++ wireOf ps := by
    rw [← packetWire_streamPacket]
    rfl
  have hlen : (wireOf (streamPacket s len :: ps)).length = streamPayload s len + 1 + (wireOf ps).length := by
    rw [hwire, List.length_append, Memory.length_readBytes]
  have hcount : countOf (streamPacket s len :: ps) = packetCount (streamPacket s len) + countOf ps := by
    simp [countOf]
  constructor
  · exact List.forall_mem_cons.2 ⟨packetOk_streamPacket s len, h.ok⟩
  · rw [hlen, hwire, Memory.readBytes_add, Nat.add_assoc s.srcBase.toNat, h.wire]
  · rw [hlen, ← Nat.add_assoc]
    exact h.fits
  · rw [hcount, ← Nat.add_assoc]
    exact h.count
  · rw [hlen, hcount, ← Nat.add_assoc len, ← Nat.add_assoc cnt]
    exact h.ends

/-- Where DECODE does not end, a whole packet stands in the stream: each one shortens what is left of SRC_LEN. -/
theorem exists_packetsUntil (s : State) {len cnt : Nat} (hl : len ≤ s.srcLen.toNat) (hc : cnt ≤ s.total) :
    ∃ ps e, PacketsUntil s len cnt ps e := by
  cases he : decodeEnd s len cnt with
  | some e => exact ⟨[], e, .nil hl hc he⟩
  | none =>
    obtain ⟨hcount, hfits⟩ := fits_of_decodeEnd_none he
    obtain ⟨ps, e, h⟩ := exists_packetsUntil s (len := len + (streamPayload s len + 1)) hfits hcount
    exact ⟨streamPacket s len :: ps, e, h.cons⟩
termination_by s.srcLen.toNat - len

/-- Settles O36: the packets from the stream's first byte on, with no pixel written. -/
theorem everyStreamHasAnEnding : Obligations.EveryStreamHasAnEnding := by
  intro s _
  obtain ⟨ps, e, h⟩ := exists_packetsUntil s (Nat.zero_le s.srcLen.toNat) (Nat.zero_le s.total)
  obtain ⟨hok, hwire, hfits, hcount, hends⟩ := h
  simp only [Nat.zero_add, Nat.add_zero] at hwire hfits hcount hends
  exact ⟨ps, e, hok, hwire, hfits, hcount, hends⟩

end Sys2Proof.Machine
end

section
/-! ## A whole command is its parts (R111, R140, R170, R200) -/

namespace Sys2Proof.Machine

/-! ### The engine does not look at the pending events -/

/-- The state with other events pending. -/
def withInputs (r : List Input) (s : State) : State := { s with inputs := r }

theorem checkError_withInputs (op : Op) (r : List Input) (s : State) :
    checkError op (withInputs r s) = checkError op s :=
  checkError_congr op rfl rfl rfl rfl rfl rfl rfl rfl rfl rfl rfl

theorem enterBody_withInputs (op : Op) (r : List Input) (s : State) :
    enterBody op (withInputs r s) = withInputs r (enterBody op s) := by
  rcases enterBody_cases op s with ⟨e, he, q⟩ | ⟨hc, q⟩ <;> rw [q]
  · exact enterBody_of_some ((checkError_withInputs op r s).trans he)
  · exact enterBody_of_none ((checkError_withInputs op r s).trans hc)

theorem packetAt_withInputs (h : Byte) (r : List Input) (s : State) :
    packetAt h (withInputs r s) = withInputs r (packetAt h s) := by
  rw [packetAt_eq, packetAt_eq]
  rcases decodePacket_cases (headerCount h) (payloadLength s.bpp (decodeHeader h)) (headerPixel h s.bpp) s
    with ⟨hcount, q⟩ | ⟨hcount, hlen, q⟩ | ⟨hcount, hlen, q⟩ <;> rw [q]
  · exact if_pos hcount
  · exact (if_neg hcount.not_gt).trans (if_pos hlen)
  · exact (if_neg hcount.not_gt).trans (if_neg hlen.not_gt)

theorem decodeIter_withInputs (r : List Input) (s : State) :
    decodeIter (withInputs r s) = withInputs r (decodeIter s) := by
  rcases decodeIter_cases s with ⟨hpix, q⟩ | ⟨hpix, hpos, q⟩ | ⟨hpix, hpos, q⟩ <;> rw [q]
  · exact if_pos hpix
  · exact (if_neg hpix.not_ge).trans (if_pos hpos)
  · exact ((if_neg hpix.not_ge).trans (if_neg hpos.not_ge)).trans (packetAt_withInputs _ r (fetchHeader s))

theorem packetBytes_withInputs (r : List Input) {s : State} {p : Nat} (hp : p < s.total) :
    packetBytes (withInputs r s) p = packetBytes s p ∧ packetExtent (withInputs r s) p = packetExtent s p :=
  packet_congr (u := s) (v := withInputs r s) rfl (fun _ _ => rfl) hp

theorem packetPacked_withInputs (r : List Input) {s : State} (hs : s.work.s < s.total) :
    packetPacked (withInputs r s) = withInputs r (packetPacked s) := by
  obtain ⟨hbytes, hextent⟩ := packetBytes_withInputs r hs
  simp only [packetPacked, show (withInputs r s).work = s.work from rfl, hbytes, hextent]
  rfl

theorem encodeIter_withInputs (r : List Input) (s : State) :
    encodeIter (withInputs r s) = withInputs r (encodeIter s) := by
  have hlen (hs : s.work.s < s.total) :
      (packetBytes (withInputs r s) s.work.s).length = (packetBytes s s.work.s).length :=
    congrArg List.length (packetBytes_withInputs r hs).1
  rcases encodeIter_cases s with ⟨hs, q⟩ | ⟨hs, hfit, q⟩ | ⟨hs, hfit, q⟩ <;> rw [q]
  · exact if_pos hs
  · rw [← hlen hs] at hfit
    exact (if_neg hs.not_ge).trans (if_pos hfit)
  · rw [← hlen hs] at hfit
    exact ((if_neg hs.not_ge).trans (if_neg hfit.not_gt)).trans (packetPacked_withInputs r hs)

theorem copyColumns_withInputs (n : Nat) (r : List Input) (s : State) :
    copyColumns n (withInputs r s) = withInputs r (copyColumns n s) := by
  induction n generalizing s with
  | zero => rfl
  | succ n ih =>
    rw [copyColumns, copyColumns, apply_ite (withInputs r), ← ih]
    rfl

theorem finishRow_withInputs (r : List Input) (s : State) :
    finishRow (withInputs r s) = withInputs r (finishRow s) := by
  have hdup : (if 2 * s.height.toNat ≤ s.work.errY then duplicateRow (withInputs r s) else withInputs r s) =
      withInputs r (if 2 * s.height.toNat ≤ s.work.errY then duplicateRow s else s) := by
    split <;> rfl
  exact congrArg (fun a : State => { a with work := { a.work with
    errY := a.work.errY - s.height.toNat, drow := a.work.drow + 1 } }) hdup

theorem finishRows_withInputs (n : Nat) (r : List Input) (s : State) :
    finishRows n (withInputs r s) = withInputs r (finishRows n s) := by
  induction n generalizing s with
  | zero => rfl
  | succ n ih =>
    rw [finishRows, finishRows, apply_ite (withInputs r), ← ih, ← finishRow_withInputs]
    rfl

theorem scaleColumn_withInputs (r : List Input) (s : State) :
    scaleColumn (withInputs r s) = withInputs r (scaleColumn s) :=
  congrArg (fun b : State => { b with work := { b.work with c := b.work.c + 1 } })
    (copyColumns_withInputs (s.work.errX + s.newWidth.toNat) r
      { s with work := { s.work with errX := s.work.errX + s.newWidth.toNat } })

theorem scaleRowEnd_withInputs (r : List Input) (s : State) :
    scaleRowEnd (withInputs r s) = withInputs r (scaleRowEnd s) :=
  congrArg (fun b : State => { b with work := { b.work with i := b.work.i + 1, c := 0, errX := 0, dcol := 0 } })
    (finishRows_withInputs (s.work.errY + s.newHeight.toNat) r
      { s with work := { s.work with errY := s.work.errY + s.newHeight.toNat } })

theorem scaleIter_withInputs (r : List Input) (s : State) :
    scaleIter (withInputs r s) = withInputs r (scaleIter s) := by
  rcases scaleIter_cases s with ⟨hi, q⟩ | ⟨hi, hcol, q⟩ | ⟨hi, hcol, q⟩ <;> rw [q]
  · exact if_pos hi
  · exact ((if_neg hi.not_ge).trans (if_pos hcol)).trans (scaleColumn_withInputs r s)
  · exact ((if_neg hi.not_ge).trans (if_neg hcol.not_gt)).trans (scaleRowEnd_withInputs r s)

theorem bodyRound_withInputs (op : Op) (r : List Input) (s : State) :
    bodyRound op (withInputs r s) = withInputs r (bodyRound op s) := by
  cases op with
  | decode => exact decodeIter_withInputs r s
  | encode => exact encodeIter_withInputs r s
  | scale => exact scaleIter_withInputs r s
  | illegal => rfl

/-! ### Runs of engine parts -/

/-- One part of the engine leads from `s` to `t`, whatever events are pending. -/
def PartStep (s t : State) : Prop := ∀ r, engineStepPart (withInputs r s) = .next (withInputs r t)

/-- Finitely many parts of the engine lead from `s` to `t`. -/
def PartsReach : State → State → Prop := Relation.ReflTransGen PartStep

theorem partStep_enterBody {op : Op} {s : State} (hp : s.phase = .busy op) (hs : s.work.stage = .checks) :
    PartStep s (enterBody (opOf s.cmd) s) := fun r =>
  (engineStepPart_of_checks (s := withInputs r s) hp hs).trans (congrArg _ (enterBody_withInputs _ r s))

theorem partStep_bodyRound {op : Op} {s : State} (h : Running op s) : PartStep s (bodyRound op s) := fun r =>
  have hc : checkError op (withInputs r s) = none :=
    (checkError_withInputs op r s).trans ((checked_iff op s).2 h.checked)
  (engineStepPart_of_body (s := withInputs r s) h.phase h.stage).trans
    ((bodyStep_eq (s := withInputs r s) h.phase h.stage hc).trans (congrArg _ (bodyRound_withInputs op r s)))

theorem step_enginePart {s t : State} (h : PartStep s t) (rest : List Input) :
    step (withInputs (.enginePart :: rest) s) = .next (withInputs rest t) :=
  h rest

/-- A run of parts is what as many `enginePart` events do. -/
theorem steps_of_partsReach {s t : State} (h : PartsReach s t) :
    ∃ k, ∀ rest, steps k (withInputs (List.replicate k .enginePart ++ rest) s) = .next (withInputs rest t) := by
  induction h using Relation.ReflTransGen.head_induction_on with
  | refl => exact ⟨0, fun _ => rfl⟩
  | head hstep _ ih =>
    obtain ⟨k, hk⟩ := ih
    refine ⟨k + 1, fun rest => ?_⟩
    rw [List.replicate_succ, List.cons_append, steps, step_enginePart hstep]
    exact hk rest

/-! ### DECODE and ENCODE: every round of the loop is a part -/

theorem partsReach_decodeLoop (n : Nat) {s : State} (h : EndedOrRunning .decode s) :
    PartsReach s (decodeLoop n s) := by
  induction n generalizing s with
  | zero => exact .refl
  | succ n ih =>
    rcases h with ⟨hp, -⟩ | hr
    · rw [decodeLoop_idle hp]
      exact .refl
    · rw [decodeLoop_busy hr.phase]
      exact (ih (endedOrRunning_decodeIter hr)).head (partStep_bodyRound hr)

theorem partsReach_encodeLoop (n : Nat) {s : State} (h : EndedOrRunning .encode s) :
    PartsReach s (encodeLoop n s) := by
  induction n generalizing s with
  | zero => exact .refl
  | succ n ih =>
    rcases h with ⟨hp, -⟩ | hr
    · rw [encodeLoop_idle hp]
      exact .refl
    · rw [encodeLoop_busy hr.phase]
      exact (ih (endedOrRunning_encodeIter hr)).head (partStep_bodyRound hr)

/-! ### SCALE: its parts are the columns, the rows' ends and the completion -/

theorem partStep_scaleColumn {s : State} (h : Running .scale s) (hi : s.work.i < s.height.toNat)
    (hcol : s.work.c < s.width.toNat) : PartStep s (scaleColumn s) := by
  have hpart := partStep_bodyRound h
  rwa [bodyRound, scaleIter, if_neg hi.not_ge, if_pos hcol] at hpart

theorem partStep_scaleRowEnd {s : State} (h : Running .scale s) (hi : s.work.i < s.height.toNat)
    (hcol : s.width.toNat ≤ s.work.c) : PartStep s (scaleRowEnd s) := by
  have hpart := partStep_bodyRound h
  rwa [bodyRound, scaleIter, if_neg hi.not_ge, if_neg hcol.not_gt] at hpart

theorem partStep_scaleComplete {s : State} (h : Running .scale s) (hi : s.height.toNat ≤ s.work.i) :
    PartStep s (scaleComplete s) := by
  have hpart := partStep_bodyRound h
  rwa [bodyRound, scaleIter, if_pos hi] at hpart

theorem partsReach_scaleColumns (n : Nat) {s : State} (h : Running .scale s) (hi : s.work.i < s.height.toNat)
    (hn : s.work.c + n ≤ s.width.toNat) :
    PartsReach s (scaleColumns n s) ∧ (scaleColumns n s).work.c = s.work.c + n ∧
      (scaleColumns n s).width = s.width := by
  induction n generalizing s with
  | zero => exact ⟨.refl, rfl, rfl⟩
  | succ n ih =>
    have hcol : s.work.c < s.width.toNat := by omega
    obtain ⟨hr, ei, ec, ew, eh⟩ := running_scaleColumn h hi hcol
    obtain ⟨hreach, ec', ew'⟩ := ih hr (by rw [ei, eh]; exact hi) (by rw [ec, ew]; omega)
    exact ⟨hreach.head (partStep_scaleColumn h hi hcol), ec'.trans (by omega), ew'.trans ew⟩

/-- The columns of a row and its end are parts, and lead to the next row. -/
theorem partsReach_row {s : State} (h : Running .scale s) (hi : s.work.i < s.height.toNat) (hc : s.work.c = 0) :
    PartsReach s (scaleRowEnd (scaleColumns s.width.toNat s)) := by
  have hcols : s.work.c + s.width.toNat ≤ s.width.toNat := by omega
  obtain ⟨hreach, ec, ew⟩ := partsReach_scaleColumns s.width.toNat h hi hcols
  obtain ⟨hr, ei, eh⟩ := running_scaleColumns s.width.toNat h hi hcols
  exact hreach.tail (partStep_scaleRowEnd hr (by rw [ei, eh]; exact hi) (by rw [ec, ew]; omega))

theorem partsReach_scaleRows (n : Nat) {s : State} (h : Running .scale s) (hc : s.work.c = 0)
    (hn : s.work.i + n ≤ s.height.toNat) :
    PartsReach s (scaleRows n s) ∧ (scaleRows n s).work.i = s.work.i + n ∧ (scaleRows n s).height = s.height := by
  induction n generalizing s with
  | zero => exact ⟨.refl, rfl, rfl⟩
  | succ n ih =>
    have hi : s.work.i < s.height.toNat := by omega
    obtain ⟨hr, ei, eh⟩ := running_scaleColumns s.width.toNat h hi (by omega)
    obtain ⟨hr', ei', ec', eh'⟩ := running_scaleRowEnd hr (by rw [ei, eh]; exact hi)
    obtain ⟨hreach, ei'', eh''⟩ := ih hr' ec' (by rw [ei', eh', ei, eh]; omega)
    exact ⟨(partsReach_row h hi hc).trans hreach, ei''.trans (by omega), eh''.trans (eh'.trans eh)⟩

theorem partsReach_scaleBody {s : State} (h : Running .scale s) (hi : s.work.i = 0) (hc : s.work.c = 0) :
    PartsReach s (scaleComplete (scaleRows s.height.toNat s)) := by
  have hn : s.work.i + s.height.toNat ≤ s.height.toNat := by omega
  obtain ⟨hreach, ei, eh⟩ := partsReach_scaleRows s.height.toNat h hc hn
  exact hreach.tail (partStep_scaleComplete (running_scaleRows _ h hc hn) (by rw [ei, eh]; omega))

/-! ### The whole command -/

/-- R111: the parts of a command from its start on, the checks first, lead to where the one step leads. -/
theorem partsReach_runCommand {op : Op} {s : State} (h : Inv s) (hp : s.phase = .busy op)
    (hs : s.work.stage = .checks) : ∃ t, runCommand s = .next t ∧ PartsReach s t := by
  have hstart := h.start hp
  obtain rfl := hstart.cmd
  have henter := partStep_enterBody hp hs
  rcases runCommand_cases s with ⟨e, q⟩ | ⟨e, q⟩ | ⟨e, q⟩ | ⟨e, q⟩ <;> rw [e] at hstart henter <;> rw [q]
  · exact ⟨_, rfl, (partsReach_decodeLoop _ (endedOrRunning_enterBody h.1 hstart)).head henter⟩
  · exact ⟨_, rfl, (partsReach_encodeLoop _ (endedOrRunning_enterBody h.1 hstart)).head henter⟩
  · rcases execScale_cases s with ⟨err, hc, q'⟩ | ⟨hc, q'⟩ <;> refine ⟨_, q', ?_⟩
    · rw [enterBody_of_some hc] at henter
      exact .single henter
    · rw [enterBody_of_none hc] at henter
      exact (partsReach_scaleBody (running_beginBody h.1 hstart hc) rfl rfl).head henter
  · exact ⟨_, rfl, .single henter⟩

/-- Settles O57: each round of the one step is a part of the engine. -/
theorem wholeCommandIsItsParts : Obligations.WholeCommandIsItsParts := by
  intro s op rest h hp hs
  obtain ⟨t, ht, hreach⟩ := partsReach_runCommand h hp hs
  obtain ⟨k, hk⟩ := steps_of_partsReach hreach
  exact ⟨k, t, (engineStep_of_checks hp hs).trans ht, hk rest⟩

end Sys2Proof.Machine
end

section
/-! ## A command's start and its checks (R110, R111, R113 to R118, R236) -/

namespace Sys2Proof.Machine

/-! ### The start -/

/-- R110, R98: the operation of a command word. -/
theorem opOf_iff (v : Word) :
    (opOf v = .decode ↔ v = 1) ∧ (opOf v = .encode ↔ v = 2) ∧ (opOf v = .scale ↔ v = 3) ∧
      (opOf v = .illegal ↔ v ≠ 1 ∧ v ≠ 2 ∧ v ≠ 3) := by
  unfold opOf decodeCommand
  split_ifs with h1 h2 h3
  · simp [h1]
  · simp [h2]
  · simp [h3]
  · exact ⟨by simpa using h1, by simpa using h2, by simpa using h3, by simpa using ⟨h1, h2, h3⟩⟩

/-- Settles O18: Idle, a write of CMD is the command's start; busy, it is only marked. -/
theorem commandWriteStartsTheCommand : Obligations.CommandWriteStartsTheCommand := by
  intro s rest v
  refine ⟨fun hp => ?_, fun op hp => ?_⟩
  · obtain ⟨hdecode, hencode, hscale, hillegal⟩ := opOf_iff v
    exact ⟨opOf v, hdecode, hencode, hscale, hillegal, commandStart v { s with inputs := rest, reply := .none }, rfl,
      (step_writeOf s rest .cmd v).trans (congrArg Host.Outcome.next
        (writeReg_cmd_of_idle (s := { s with inputs := rest, reply := .none }) hp v)), rfl⟩
  · exact (step_writeOf s rest .cmd v).trans (congrArg Host.Outcome.next
      (writeReg_of_busy (s := { s with inputs := rest, reply := .none }) hp (.inl rfl) v))

theorem runCommand_of_ok {s : State} {i : Instr} (h : decodeCommand s.cmd = .ok i) : runCommand s = exec i s := by
  simp only [runCommand, h]

theorem runCommand_of_error {s : State} {r : DecodeReject} (h : decodeCommand s.cmd = .error r) :
    runCommand s = .next (complete .illegalCommand Progress.zero s) := by
  simp only [runCommand, h]

/-- Settles O5: with no event pending the engine has the turn, and a command at its start is run whole. -/
theorem stepRunsTheCommand : Obligations.StepRunsTheCommand := by
  intro s op i hin hp hs hi
  rw [step_of_noInput hin, engineStep_of_checks hp hs]
  exact runCommand_of_ok hi

/-- What a completion that reports no progress leaves. -/
theorem completes_zero (e : ErrorCode) (s : State) :
    completes (.next (complete e Progress.zero s)) e 0 0 0 s.mem s :=
  ⟨Work.initial, rfl⟩

/-- Settles O7: the decoder refuses such a word, and the command completes at once. -/
theorem illegalCommandEndsAtOnce : Obligations.IllegalCommandEndsAtOnce := by
  intro s op hin hp hs hcmd
  obtain ⟨r, hr⟩ := (decodeCommand_error_iff s.cmd).2 hcmd
  rw [step_of_noInput hin, engineStep_of_checks hp hs, runCommand_of_error hr]
  exact completes_zero _ s

/-! ### A failed check ends the command -/

theorem completes_of_checkError {c : Instr × Op} (hc : c ∈ commands) {s : State} {e : ErrorCode}
    (h : checkError c.2 s = some e) : completes (exec c.1 s) e 0 0 0 s.mem s := by
  rw [exec_of_checkError hc h]
  exact completes_zero e s

theorem legal_of_mem_commands {c : Instr × Op} (hc : c ∈ commands) : c.2 ≠ .illegal := by
  revert c
  decide

theorem checkError_of_paramError {op : Op} {s : State} {e : ErrorCode} (hop : op ≠ .illegal)
    (h : paramError op s = some e) : checkError op s = some e := by
  simp [checkError, hop, h]

theorem checkError_of_paramError_none {op : Op} {s : State} (hop : op ≠ .illegal) (h : paramError op s = none) :
    checkError op s = regionError op s := by
  simp [checkError, hop, h]

theorem checkError_eq_none_iff {op : Op} (hop : op ≠ .illegal) (s : State) :
    checkError op s = none ↔ paramError op s = none ∧ regionError op s = none := by
  cases hp : paramError op s with
  | some e => simp [checkError_of_paramError hop hp]
  | none => simp [checkError_of_paramError_none hop hp]

/-! ### The parameters (R114) -/

theorem formatTest_iff (s : State) : (!(formatOk s.bytesPP)) = true ↔ ¬ legalFormat s := by
  rw [Bool.not_eq_true', ← Bool.not_eq_true, formatOk_iff]
  rfl

theorem dimsTest_iff (v w : Word) : (!(dimOk v && dimOk w)) = true ↔ ¬ (inDim v ∧ inDim w) := by
  rw [Bool.not_eq_true', ← Bool.not_eq_true, Bool.and_eq_true, dimOk_iff, dimOk_iff]
  rfl

open Classical in
/-- The parameter checks with their tests in the spec's words. -/
theorem paramError_eq (op : Op) (s : State) :
    paramError op s =
      if ¬ legalFormat s then some .invalidFormat
      else if ¬ (inDim s.width ∧ inDim s.height) then some .invalidDimensions
      else if op = .scale ∧ ¬ (inDim s.newWidth ∧ inDim s.newHeight) then some .invalidDimensions
      else if op = .scale ∧ s.dstLen.toNat < s.newWidth.toNat * s.newHeight.toNat * s.bpp then some .outputOverflow
      else none := by
  unfold paramError State.newTotal
  simp only [formatTest_iff, dimsTest_iff, Bool.and_eq_true, decide_eq_true_eq]

theorem paramError_eq_none_iff (op : Op) (s : State) : paramError op s = none ↔ paramsPass op s := by
  rw [paramError_eq, paramsPass]
  split_ifs <;> simp_all

/-- Settles O25: each clause is one branch of the parameter checks. -/
theorem parameterChecksInOrder : Obligations.ParameterChecksInOrder := by
  intro s c hc
  have hend {e : ErrorCode} (h : paramError c.2 s = some e) : completes (exec c.1 s) e 0 0 0 s.mem s :=
    completes_of_checkError hc (checkError_of_paramError (legal_of_mem_commands hc) h)
  refine ⟨fun hf => hend ?_, fun hf hd => hend ?_, fun hf hw hh hop ht => hend ?_,
    fun hf hw hh hop hnw hnh hlen => hend ?_⟩ <;> rw [paramError_eq]
  · rw [if_pos hf]
  · rw [if_neg (not_not.2 hf), if_pos hd]
  · rw [if_neg (not_not.2 hf), if_neg (not_not.2 ⟨hw, hh⟩), if_pos ⟨hop, ht⟩]
  · rw [if_neg (not_not.2 hf), if_neg (not_not.2 ⟨hw, hh⟩), if_neg (fun h => h.2 ⟨hnw, hnh⟩), if_pos ⟨hop, hlen⟩]

/-! ### The regions (R116, R117) -/

theorem holeMeets_iff (h : Hole) (r : Region) :
    holeMeets h r = true ↔ ∃ a, inRegion r a ∧ h.base ≤ a ∧ a < h.base + h.size := by
  simp only [holeMeets, Bool.and_eq_true, decide_eq_true_eq, inRegion]
  constructor
  · intro hm
    exact ⟨max r.base h.base, by omega⟩
  · rintro ⟨a, hr, hh⟩
    omega

/-- R116: the comparison of ranges says that every byte of the region is memory. -/
theorem regionOk_iff_backed (cfg : Config) (r : Region) : regionOk cfg r = true ↔ backed cfg r := by
  constructor
  · intro h
    refine ⟨?_, fun a hlo hhi => memOk_of_regionOk h ⟨hlo, hhi⟩⟩
    have hend := end_le_of_regionOk h
    omega
  · rintro ⟨hend, hbytes⟩
    simp only [regionOk, Bool.or_eq_true, Bool.and_eq_true, decide_eq_true_eq, List.all_eq_true, Bool.not_eq_true',
      ← Bool.not_eq_true, holeMeets_iff]
    refine hend.imp_right fun hend => ⟨hend, fun hole hh => ?_⟩
    rintro ⟨a, ⟨hlo, hhi⟩, hin⟩
    exact ((memOk_iff cfg a).1 (hbytes a hlo hhi)).2 hole hh hin

theorem regionsOverlap_iff (r w : Region) : regionsOverlap r w = true ↔ overlapping r w := by
  simp [regionsOverlap, overlapping, and_assoc]

/-- R117: regions that overlap share the later of their first bytes. -/
theorem overlapping_iff_shareByte (r w : Region) : overlapping r w ↔ shareByte r w := by
  unfold overlapping shareByte
  constructor
  · intro h
    exact ⟨max r.base w.base, by omega⟩
  · rintro ⟨a, hr, hw⟩
    omega

/-- Settles O26. -/
theorem regionTestsAreBytewise : Obligations.RegionTestsAreBytewise :=
  ⟨regionOk_iff_backed, fun r w => (regionsOverlap_iff r w).trans (overlapping_iff_shareByte r w)⟩

theorem regionTest_iff (cfg : Config) (r : Region) : (!(regionOk cfg r)) = true ↔ ¬ backed cfg r := by
  rw [Bool.not_eq_true', ← Bool.not_eq_true, regionOk_iff_backed]

open Classical in
/-- The region checks with their tests in the spec's words. -/
theorem regionError_eq (op : Op) (s : State) :
    regionError op s =
      if ¬ backed s.config (readRegion op s) then some .ioFailure
      else if ¬ backed s.config (writeRegion op s) then some .ioFailure
      else if overlapping (readRegion op s) (writeRegion op s) then some .regionOverlap
      else none := by
  simp only [regionError, regionTest_iff, regionsOverlap_iff]

theorem regionError_eq_none_iff (op : Op) (s : State) :
    regionError op s = none ↔ backed s.config (readRegion op s) ∧ backed s.config (writeRegion op s) ∧
      ¬ overlapping (readRegion op s) (writeRegion op s) := by
  rw [regionError_eq]
  split_ifs <;> simp_all

/-- Settles O27: once the parameters pass, each clause is one branch of the region checks. -/
theorem regionChecksInOrder : Obligations.RegionChecksInOrder := by
  intro s c hc hp
  have hcheck : checkError c.2 s = regionError c.2 s :=
    checkError_of_paramError_none (legal_of_mem_commands hc) ((paramError_eq_none_iff c.2 s).2 hp)
  have hend {e : ErrorCode} (h : regionError c.2 s = some e) : completes (exec c.1 s) e 0 0 0 s.mem s :=
    completes_of_checkError hc (hcheck.trans h)
  refine ⟨fun hr => hend ?_, fun hr hw => hend ?_, fun hr hw ho => hend ?_,
    fun hr hw ho => hcheck.trans ((regionError_eq_none_iff c.2 s).2 ⟨hr, hw, ho⟩)⟩ <;> rw [regionError_eq]
  · rw [if_pos hr]
  · rw [if_neg (not_not.2 hr), if_pos hw]
  · rw [if_neg (not_not.2 hr), if_neg (not_not.2 hw), if_pos ho]

/-- Settles O28: no check fails exactly when neither the parameter checks nor the region checks do. -/
theorem checksPassExactlyWhen : Obligations.ChecksPassExactlyWhen := by
  intro s c hc
  rw [checkError_eq_none_iff (legal_of_mem_commands hc), paramError_eq_none_iff, regionError_eq_none_iff,
    overlapping_iff_shareByte]

end Sys2Proof.Machine
end

section
/-! ## The register port while Idle (R24, R119, R120), and the parameters while a command runs (R112) -/

namespace Sys2Proof.Machine

/-! ### Reads (R119) -/

/-- The step that takes an aligned 32-bit read of a register. -/
theorem step_readOf (s : State) (rest : List Input) (r : Reg) :
    step { s with inputs := readOf s r :: rest } = .next (readReg r { s with inputs := rest }) :=
  congrArg Host.Outcome.next (hostRegRead_reg { s with inputs := rest } r)

/-- A read that R35 leaves no freedom answers the register's value. -/
theorem readReg_plain {r : Reg} {s : State} (h : isProgress r = false ∨ s.phase = .idle) :
    readReg r s = { s with reply := .word (regValue r s) } := by
  rcases h with h | h <;> simp [readReg, State.isBusy, h]

/-- R35: a progress register read while BUSY = 1 answers a free value. -/
theorem readReg_progress_of_busy {r : Reg} {s : State} {op : Op} (hr : isProgress r = true) (hp : s.phase = .busy op) :
    readReg r s = { s with reply := .word (Config.freeWord s.draws), draws := s.draws + 1 } := by
  simp [readReg, State.isBusy, hr, hp]

/-- The registers say nothing of the pending events and the last answer. -/
theorem regValue_congr (r : Reg) (s : State) (inputs : List Input) (reply : Reply) :
    regValue r { s with inputs := inputs, reply := reply } = regValue r s := by
  cases r <;> rfl

theorem hostRegRead_unused {off : Nat} (h : ∀ r, off ≠ regOffset r) (hoff : off < 0x80) (s : State) (width : Nat) :
    hostRegRead (regBase s.config + off) width s = { s with reply := .word 0 } := by
  simp [hostRegRead, windowOffset_in _ hoff, regAt_unused h]

/-- Settles O12: each plain register is its field, and a read only answers. -/
theorem hostReadAnswersTheRegister : Obligations.HostReadAnswersTheRegister := by
  intro s rest
  refine ⟨rfl, fun r h => ?_, fun r op hr hp => ?_, fun off hoff _ hu =>
    congrArg Host.Outcome.next (hostRegRead_unused hu hoff { s with inputs := rest } 32)⟩
  · rw [step_readOf, readReg_plain (s := { s with inputs := rest }) h, regValue_congr r s rest s.reply]
  · exact (step_readOf s rest r).trans
      (congrArg Host.Outcome.next (readReg_progress_of_busy (s := { s with inputs := rest }) hr hp))

/-! ### Writes while Idle (R120) -/

/-- A write of a parameter register is seen in that register alone. -/
theorem regValue_writeParam (r r' : Reg) (v : Word) (s : State) :
    regValue r' (writeParam r v s) = if r' = r ∧ isParam r = true then v else regValue r' s := by
  cases r <;> cases r' <;> rfl

theorem writeParam_model (r : Reg) (v : Word) (s : State) :
    (writeParam r v s).inputs = s.inputs ∧ (writeParam r v s).reply = s.reply ∧
      (writeParam r v s).draws = s.draws := by
  cases r <;> exact ⟨rfl, rfl, rfl⟩

/-- Settles O15, by what each register reads as after the write. -/
theorem parameterWriteWhileIdle : Obligations.ParameterWriteWhileIdle := by
  intro s rest r v hr hp
  obtain ⟨hinputs, hreply, hdraws⟩ := writeParam_model r v { s with inputs := rest, reply := .none }
  refine ⟨writeParam r v { s with inputs := rest, reply := .none }, ?_, ?_, fun r' hne => ?_, ?_, ?_, ?_, ?_, hdraws,
    hinputs, hreply⟩
  · exact (step_writeOf s rest r v).trans (congrArg Host.Outcome.next
      (writeReg_param_of_idle (s := { s with inputs := rest, reply := .none }) hp hr v))
  · rw [regValue_writeParam, if_pos ⟨rfl, hr⟩]
  · rw [regValue_writeParam, if_neg (fun h => hne h.1), regValue_congr]
  · rw [writeParam_phase, hp]
  · rw [writeParam_work]
  · rw [writeParam_mem]
  · rw [writeParam_config]

/-- Settles O17, by the kind of the register that is written. -/
theorem flagWritesWhileIdle : Obligations.FlagWritesWhileIdle := by
  intro s rest v _
  refine ⟨step_writeOf s rest .status v, step_writeOf s rest .irqEn v, fun r hr => ?_,
    fun off hoff _ hu => congrArg Host.Outcome.next (hostRegWrite_unused hu hoff { s with inputs := rest } 32 v)⟩
  exact (step_writeOf s rest r v).trans (congrArg Host.Outcome.next (writeReg_of_readOnly hr v _))

/-! ### The parameters while a command runs (R112) -/

/-- CMD and the ten parameter registers (R37's list). -/
def hostParams (s : State) : List Word :=
  [s.cmd, s.width, s.height, s.bytesPP, s.newWidth, s.newHeight, s.pixBase, s.srcBase, s.srcLen, s.dstBase, s.dstLen]

theorem hostParams_enterBody (op : Op) (s : State) : hostParams (enterBody op s) = hostParams s := by
  rcases enterBody_cases op s with ⟨e, -, q⟩ | ⟨-, q⟩ <;> rw [q] <;> rfl

/-- Only the completion of a SCALE moves parameters (R205). -/
theorem hostParams_bodyRound {op : Op} {s : State} (h : op ≠ .scale ∨ (bodyRound op s).phase ≠ .idle) :
    hostParams (bodyRound op s) = hostParams s := by
  rcases bodyRound_cases op s with ⟨e, p, q⟩ | ⟨hop, q⟩ | ⟨m, w, q⟩ <;> rw [q] at h ⊢
  · rfl
  · exact absurd rfl (h.resolve_left (not_not.2 hop))
  · rfl

theorem hostParams_decodeLoop (n : Nat) (s : State) : hostParams (decodeLoop n s) = hostParams s := by
  induction n generalizing s with
  | zero => rfl
  | succ n ih =>
    rw [decodeLoop_succ]
    split
    · rfl
    · exact (ih _).trans (hostParams_bodyRound (.inl (by decide)))

theorem hostParams_encodeLoop (n : Nat) (s : State) : hostParams (encodeLoop n s) = hostParams s := by
  induction n generalizing s with
  | zero => rfl
  | succ n ih =>
    rw [encodeLoop_succ]
    split
    · rfl
    · exact (ih _).trans (hostParams_bodyRound (.inl (by decide)))

theorem hostParams_runCommand {s t : State} (ht : runCommand s = .next t) (hb : t.phase ≠ .idle) :
    hostParams t = hostParams s := by
  rcases runCommand_cases s with ⟨-, q⟩ | ⟨-, q⟩ | ⟨-, q⟩ | ⟨-, q⟩ <;> rw [q] at ht
  · cases ht
    exact (hostParams_decodeLoop _ _).trans (hostParams_enterBody .decode s)
  · cases ht
    exact (hostParams_encodeLoop _ _).trans (hostParams_enterBody .encode s)
  · rcases execScale_cases s with ⟨e, -, q'⟩ | ⟨-, q'⟩ <;> cases q'.symm.trans ht <;> exact absurd rfl hb
  · cases ht
    rfl

section
variable {op : Op} {s t : State} (hp : s.phase = .busy op) (hb : t.phase ≠ .idle)
include hp hb

theorem hostParams_bodyStep (hs : s.work.stage = .body) (ht : bodyStep op s = .next t) :
    hostParams t = hostParams s := by
  by_cases hc : checkError op s = none
  · rw [bodyStep_eq hp hs hc] at ht
    cases ht
    exact hostParams_bodyRound (.inr hb)
  · simp [bodyStep, hc] at ht

theorem hostParams_engineStep (ht : engineStep s = .next t) : hostParams t = hostParams s := by
  cases hs : s.work.stage with
  | checks =>
    rw [engineStep_of_checks hp hs] at ht
    exact hostParams_runCommand ht hb
  | body =>
    rw [engineStep_of_body hp hs] at ht
    exact hostParams_bodyStep hp hb hs ht

theorem hostParams_engineStepPart (ht : engineStepPart s = .next t) : hostParams t = hostParams s := by
  cases hs : s.work.stage with
  | checks =>
    rw [engineStepPart_of_checks hp hs] at ht
    cases ht
    exact hostParams_enterBody _ s
  | body =>
    rw [engineStepPart_of_body hp hs] at ht
    exact hostParams_bodyStep hp hb hs ht

omit hb in
/-- R37: while BUSY = 1 no write of a register reaches a parameter. -/
theorem hostParams_writeReg (r : Reg) (v : Word) : hostParams (writeReg r v s) = hostParams s := by
  rcases reg_kind r with hr | hr | rfl | rfl | hr
  · rw [writeReg_of_busy hp (.inl hr)]
    rfl
  · rw [writeReg_of_busy hp (.inr hr)]
    rfl
  · rfl
  · rfl
  · rw [writeReg_of_readOnly hr]

theorem hostParams_takeInput {x : Input} (ht : takeInput x s = .next t) : hostParams t = hostParams s := by
  cases x with
  | regRead addr width =>
    cases ht
    obtain ⟨p, d, q⟩ := hostRegRead_cases addr width s
    rw [q]
    rfl
  | regWrite addr width v =>
    cases ht
    rcases hostRegWrite_cases addr width v s with q | ⟨r, -, -, q⟩ <;> rw [q]
    · rfl
    · exact hostParams_writeReg (s := { s with reply := .none }) hp r v
  | memRead a =>
    rw [eq_of_hostMemRead ht]
    rfl
  | memWrite a b =>
    rw [eq_of_hostMemWrite ht]
    rfl
  | rst =>
    cases ht
    exact absurd rfl hb
  | engine => exact hostParams_engineStep hp hb ht
  | enginePart => exact hostParams_engineStepPart hp hb ht

theorem hostParams_step (ht : step s = .next t) : hostParams t = hostParams s := by
  cases hi : s.inputs with
  | nil =>
    rw [step_of_noInput hi] at ht
    exact hostParams_engineStep hp hb ht
  | cons x rest =>
    rw [step_of_input hi] at ht
    exact hostParams_takeInput (s := { s with inputs := rest }) hp hb ht

end

/-- Settles O53: the regions of R66 are computed from the parameters. -/
theorem parametersAreFixedWhileBusy : Obligations.ParametersAreFixedWhileBusy := by
  intro s t op hp ht hb
  have h := hostParams_step hp hb ht
  simp only [hostParams, List.cons.injEq, and_true] at h
  obtain ⟨hcmd, hW, hH, hB, hNW, hNH, hpix, hsrc, hlen, hdst, hcap⟩ := h
  exact ⟨hcmd, hW, hH, hB, hNW, hNH, hpix, hsrc, hlen, hdst, hcap,
    fun op' => regions_congr op' hB hW hH hNW hNH hpix hsrc hlen hdst hcap⟩

end Sys2Proof.Machine
end

section
/-! ## DECODE (R140 to R148): one packet, the endings, and the pixels of a whole stream -/

namespace Sys2Proof.Machine

/-! ### The packets as instructions (R143, R144) -/

theorem exec_raw_of_inBody {s : State} (hb : inBody .decode s) (n : Nat) : exec (.raw n) s = .next (rawPacket n s) :=
  if_pos ((decodeRunning_iff s).2 hb)

theorem exec_run_of_inBody {s : State} (hb : inBody .decode s) (n : Nat) : exec (.run n) s = .next (runPacket n s) :=
  if_pos ((decodeRunning_iff s).2 hb)

/-- Settles O34, by the test both packets make. -/
theorem packetsNeedARunningDecode : Obligations.PacketsNeedARunningDecode := fun _ s hb =>
  have hrun : ¬ decodeRunning s = true := mt (decodeRunning_iff s).1 hb
  ⟨if_neg hrun, if_neg hrun⟩

/-! ### The three ways of a packet, each from its test (R141, R142, R145) -/

section
variable {count plen : Nat} {pixel : List Byte → Nat → List Byte} {s : State}

theorem decodePacket_of_overflow (h : s.total < s.work.pix + count) :
    decodePacket count plen pixel s = complete .pixelCountOverflow (decodeProgress s) s :=
  if_pos h

theorem decodePacket_of_short (hc : s.work.pix + count ≤ s.total) (h : s.srcLen.toNat < s.work.inpos + 1 + plen) :
    decodePacket count plen pixel s = complete .unexpectedEndOfStream (decodeProgress s) s :=
  (if_neg (Nat.not_lt.2 hc)).trans (if_pos h)

theorem decodePacket_of_fits (hc : s.work.pix + count ≤ s.total) (h : s.work.inpos + 1 + plen ≤ s.srcLen.toNat) :
    decodePacket count plen pixel s = packetWritten count plen pixel s :=
  (if_neg (Nat.not_lt.2 hc)).trans (if_neg (Nat.not_lt.2 h))

end

/-- What a completion that reports DECODE's progress leaves (R140). -/
theorem completes_decodeProgress (e : ErrorCode) (s : State) :
    completes (.next (complete e (decodeProgress s) s)) e s.work.inpos 0 s.work.pix s.mem s :=
  ⟨Work.initial, rfl⟩

/-- Settles O31: the overflow test comes first in either packet. -/
theorem overflowingPacketEndsDecode : Obligations.OverflowingPacketEndsDecode := by
  intro n s hb hover
  rw [exec_raw_of_inBody hb, exec_run_of_inBody hb, rawPacket, runPacket, decodePacket_of_overflow hover,
    decodePacket_of_overflow hover]
  exact ⟨completes_decodeProgress _ s, completes_decodeProgress _ s⟩

/-- The address of a byte of the packet's pixel `j` (R63). -/
theorem pixelAddr_pix_add (s : State) (j k : Nat) :
    s.pixBase.toNat + (s.work.pix + j) * s.bpp + k = s.pixelAddr s.work.pix + j * s.bpp + k := by
  rw [State.pixelAddr, Nat.add_mul]
  omega

/-- Settles O29, by the bytes that a raw packet that fits writes. -/
theorem rawPacketCopiesItsPixels : Obligations.RawPacketCopiesItsPixels := by
  intro n s _ hb hm hcount hlen
  obtain ⟨hin, hout⟩ := rawWritten_read hm n
  refine ⟨_, (exec_raw_of_inBody hb n).trans (congrArg Host.Outcome.next (decodePacket_of_fits hcount hlen)),
    fun j hj k hk => ?_, hout⟩
  rw [pixelAddr_pix_add]
  exact hin j hj k hk

/-- Settles O30, by the bytes that a run packet that fits writes. -/
theorem runPacketRepeatsItsPixel : Obligations.RunPacketRepeatsItsPixel := by
  intro n s _ hb hm hcount hlen
  obtain ⟨hin, hout⟩ := runWritten_read hm n
  refine ⟨_, (exec_run_of_inBody hb n).trans (congrArg Host.Outcome.next (decodePacket_of_fits hcount hlen)),
    fun j hj k hk => ?_, hout⟩
  rw [pixelAddr_pix_add]
  exact hin j hj k hk

/-! ### One round of the loop, from its tests (R140, R141, R146) -/

theorem decodeIter_of_full {s : State} (h : s.total ≤ s.work.pix) :
    decodeIter s = complete .success (decodeProgress s) s :=
  if_pos h

theorem decodeIter_of_exhausted {s : State} (hp : s.work.pix < s.total) (h : s.srcLen.toNat ≤ s.work.inpos) :
    decodeIter s = complete .unexpectedEndOfStream (decodeProgress s) s :=
  (if_neg (Nat.not_le.2 hp)).trans (if_pos h)

theorem packetCount_streamPacket (s : State) (len : Nat) :
    packetCount (streamPacket s len) = headerCount (streamHeader s len) := by
  rw [streamPacket, packetCount_decodeHeader, headerCount_eq]

/-- Pixels missing and a header left, the round is the packet at the stream position. -/
theorem decodeIter_of_headerDue {s : State} (hp : s.work.pix < s.total) (h : s.work.inpos < s.srcLen.toNat) :
    decodeIter s = decodePacket (packetCount (streamPacket s s.work.inpos)) (streamPayload s s.work.inpos)
      (headerPixel (streamHeader s s.work.inpos) s.bpp) (fetchHeader s) := by
  rw [packetCount_streamPacket]
  exact ((if_neg (Nat.not_le.2 hp)).trans (if_neg (Nat.not_le.2 h))).trans (packetAt_eq _ (fetchHeader s))

/-- With no event pending, a DECODE body goes one round (R111). -/
theorem step_eq_decodeIter {s : State} (hin : s.inputs = []) (hb : inBody .decode s) :
    step s = .next (decodeIter s) := by
  obtain ⟨hphase, hstage, hcheck⟩ := hb
  rw [step_of_noInput hin, engineStep_of_body hphase hstage]
  exact bodyStep_eq hphase hstage hcheck

/-- Settles O33: the loop's first test. -/
theorem fullImageEndsDecode : Obligations.FullImageEndsDecode := by
  intro s hin hb hfull
  rw [step_eq_decodeIter hin hb, decodeIter_of_full hfull.ge, ← hfull]
  exact completes_decodeProgress _ s

/-- Settles O32: the loop's second test, and the second test of either packet. -/
theorem exhaustedStreamEndsDecode : Obligations.ExhaustedStreamEndsDecode := by
  refine ⟨fun s hin hb hpix hempty => ?_, fun n s hb hcount => ⟨fun hshort => ?_, fun hshort => ?_⟩⟩
  · rw [step_eq_decodeIter hin hb, decodeIter_of_exhausted hpix hempty]
    exact completes_decodeProgress _ s
  · rw [exec_raw_of_inBody hb, rawPacket, payloadLength, decodePacket_of_short hcount hshort]
    exact completes_decodeProgress _ s
  · rw [exec_run_of_inBody hb, runPacket, payloadLength, decodePacket_of_short hcount hshort]
    exact completes_decodeProgress _ s

/-- The checks look at nothing that a running body moves. -/
theorem checkError_move (op : Op) (s : State) (m : Memory) (w : Work) (phase : Phase) :
    checkError op { s with mem := m, work := w, phase := phase } = checkError op s :=
  checkError_congr op (s := s) rfl rfl rfl rfl rfl rfl rfl rfl rfl rfl rfl

/-! ### A packet's pixels as one wide write (R143, R144) -/

theorem Memory.writeBytes_append (m : Memory) (a : Nat) (xs ys : List Byte) :
    m.writeBytes a (xs ++ ys) = (m.writeBytes a xs).writeBytes (a + xs.length) ys := by
  induction xs generalizing m a with
  | nil => rfl
  | cons x xs ih =>
    rw [List.cons_append, Memory.writeBytes, ih, List.length_cons, Nat.add_comm xs.length 1, ← Nat.add_assoc]
    rfl

/-- R143: the pixels of a raw payload are its bytes in order. -/
theorem writePixels_rawPixel (m : Memory) (a b : Nat) {pb : List Byte} {n : Nat} (hl : n * b ≤ pb.length) :
    writePixels m a b (rawPixel b pb) n = m.writeBytes a (pb.take (n * b)) := by
  induction n with
  | zero => simp [writePixels, Memory.writeBytes]
  | succ n ih =>
    rw [Nat.succ_mul] at hl ⊢
    have hfront : (pb.take (n * b)).length = n * b := List.length_take_of_le (by omega)
    rw [writePixels, ih (by omega), List.take_add, Memory.writeBytes_append, hfront, rawPixel]

/-- R144: the pixels of a run are its payload, count times. -/
theorem writePixels_runPixel (m : Memory) (a : Nat) (pb : List Byte) (n : Nat) :
    writePixels m a pb.length (runPixel pb.length pb) n = m.writeBytes a (List.replicate n pb).flatten := by
  induction n with
  | zero => rfl
  | succ n ih =>
    have hfront : (List.replicate n pb).flatten.length = n * pb.length := by simp
    rw [writePixels, ih, List.replicate_succ', List.flatten_concat, Memory.writeBytes_append, hfront, runPixel,
      List.take_length]

theorem writePixels_headerPixel (m : Memory) (a b : Nat) {h : Byte} {pb : List Byte}
    (hl : pb.length = payloadLength b (decodeHeader h)) :
    writePixels m a b (headerPixel h b pb) (headerCount h) = m.writeBytes a (packetPixels (decodeHeader h, pb)) := by
  unfold decodeHeader at hl ⊢
  unfold headerPixel
  split_ifs at hl ⊢
  · obtain rfl : pb.length = b := hl
    exact writePixels_runPixel m a pb _
  · have hl' : pb.length = headerCount h * b := hl
    rw [writePixels_rawPixel m a b hl'.ge, List.take_of_length_le hl'.le]
    rfl

theorem length_packetPixels {b : Nat} {p : Instr × List Byte} (hp : packetOk b p) :
    (packetPixels p).length = packetCount p * b := by
  obtain ⟨i, pb⟩ := p
  cases i with
  | raw n => exact hp.2.2
  | run n =>
    obtain ⟨-, -, hl⟩ := hp
    have hl' : pb.length = b := hl
    simp [packetPixels, packetCount, hl']
  | decode | encode | scale => exact hp.elim

theorem packetCount_pos {b : Nat} {p : Instr × List Byte} (hp : packetOk b p) : 1 ≤ packetCount p := by
  obtain ⟨i, pb⟩ := p
  cases i with
  | raw n | run n => exact hp.1
  | decode | encode | scale => exact hp.elim

theorem wireOf_cons (p : Instr × List Byte) (ps : List (Instr × List Byte)) :
    wireOf (p :: ps) = packetWire p ++ wireOf ps := rfl

theorem pixelsOf_cons (p : Instr × List Byte) (ps : List (Instr × List Byte)) :
    pixelsOf (p :: ps) = packetPixels p ++ pixelsOf ps := rfl

theorem countOf_cons (p : Instr × List Byte) (ps : List (Instr × List Byte)) :
    countOf (p :: ps) = packetCount p + countOf ps := List.sum_cons

theorem length_pixelsOf {b : Nat} {ps : List (Instr × List Byte)} (hps : ∀ p ∈ ps, packetOk b p) :
    (pixelsOf ps).length = countOf ps * b := by
  induction ps with
  | nil => simp [pixelsOf, countOf]
  | cons p ps ih =>
    obtain ⟨hp, hps⟩ := List.forall_mem_cons.1 hps
    rw [pixelsOf_cons, countOf_cons, List.length_append, length_packetPixels hp, ih hps, Nat.add_mul]

/-! ### The packet a stream begins with -/

/-- A well-formed packet is what some header stands for (R91 to R93). -/
theorem exists_header_of_packetOk {b : Nat} {p : Instr × List Byte} (hp : packetOk b p) :
    ∃ h : Byte, decodeHeader h = p.1 ∧ packetWire p = h :: p.2 ∧ p.2.length = payloadLength b p.1 := by
  obtain ⟨i, pb⟩ := p
  cases i with
  | raw n =>
    obtain ⟨h1, h2, hl⟩ := hp
    exact ⟨rawHeader n, decodeHeader_rawHeader h1 h2, rfl, hl⟩
  | run n =>
    obtain ⟨h1, h2, hl⟩ := hp
    exact ⟨runHeader n, decodeHeader_runHeader h1 h2, congrArg (· :: pb) (BitVec.ofNat_add 128 (n - 1)), hl⟩
  | decode | encode | scale => exact hp.elim

theorem streamPacket_of_wire {s : State} {len : Nat} {p : Instr × List Byte} (hp : packetOk s.bpp p)
    (hw : s.mem.readBytes (s.srcBase.toNat + len) (packetWire p).length = packetWire p) : streamPacket s len = p := by
  obtain ⟨h, hi, hwire, hl⟩ := exists_header_of_packetOk hp
  rw [hwire, List.length_cons, Memory.readBytes, List.cons.injEq] at hw
  obtain ⟨hh, hpb⟩ := hw
  have hplen : streamPayload s len = p.2.length := by rw [streamPayload, streamHeader, hh, hi, hl]
  rw [streamPacket, hplen, hpb, streamHeader, hh, hi]

/-- The first of the packets stands at the offset, and the others behind it. -/
theorem PacketsUntil.uncons {s : State} {len cnt : Nat} {p : Instr × List Byte} {ps : List (Instr × List Byte)}
    {e : ErrorCode} (h : PacketsUntil s len cnt (p :: ps) e) :
    streamPacket s len = p ∧
      PacketsUntil s (len + (streamPayload s len + 1)) (cnt + packetCount (streamPacket s len)) ps e := by
  obtain ⟨hok, hwire, hfits, hcount, hends⟩ := h
  obtain ⟨hp, hps⟩ := List.forall_mem_cons.1 hok
  rw [wireOf_cons, List.length_append] at hwire hfits hends
  rw [countOf_cons] at hcount hends
  rw [Memory.readBytes_add] at hwire
  obtain ⟨hfirst, hrest⟩ := List.append_inj hwire (Memory.length_readBytes ..)
  have heq := streamPacket_of_wire hp hfirst
  have hlen : (packetWire p).length = streamPayload s len + 1 := by
    rw [← heq, packetWire_streamPacket, Memory.length_readBytes]
  rw [hlen] at hrest hfits hends
  rw [heq]
  exact ⟨rfl, hps, by rw [← Nat.add_assoc]; exact hrest, by omega, by omega,
    by rw [Nat.add_assoc len, Nat.add_assoc cnt]; exact hends⟩

/-- The packet at the offset is whole and within the image. -/
theorem PacketsUntil.head_fits {s : State} {len cnt : Nat} {ps : List (Instr × List Byte)} {e : ErrorCode}
    (h : PacketsUntil s (len + (streamPayload s len + 1)) (cnt + packetCount (streamPacket s len)) ps e) :
    cnt + packetCount (streamPacket s len) ≤ s.total ∧ len + (streamPayload s len + 1) ≤ s.srcLen.toNat :=
  ⟨(Nat.le_add_right ..).trans h.count, (Nat.le_add_right ..).trans h.fits⟩

/-! ### The rest of the stream, after a change of memory elsewhere -/

section
variable {s : State} {m : Memory} (hm : ∀ a, inRegion (readRegion .decode s) a → m.read a = s.mem.read a) (w : Work)
include hm

theorem decodeEnd_move (len cnt : Nat) : decodeEnd { s with mem := m, work := w } len cnt = decodeEnd s len cnt := by
  rcases Nat.lt_or_ge len s.srcLen.toNat with hlen | hlen
  · have hread : m.read (s.srcBase.toNat + len) = s.mem.read (s.srcBase.toNat + len) :=
      hm _ ⟨Nat.le_add_right .., Nat.add_lt_add_left hlen _⟩
    simp only [decodeEnd, hread]
    rfl
  · simp only [decodeEnd, if_pos hlen]
    rfl

theorem PacketsUntil.move {len cnt : Nat} {ps : List (Instr × List Byte)} {e : ErrorCode}
    (h : PacketsUntil s len cnt ps e) : PacketsUntil { s with mem := m, work := w } len cnt ps e where
  ok    := h.ok
  wire  := by
    refine Eq.trans (Memory.readBytes_eq_iff.2 fun i hi => hm _ ?_) h.wire
    have hfits := h.fits
    exact ⟨by simp only [readRegion]; omega, by simp only [readRegion]; omega⟩
  fits  := h.fits
  count := h.count
  ends  := (decodeEnd_move hm w _ _).trans h.ends

end

/-! ### A round with a whole packet -/

/-- `s` after the packet at its stream position, when that packet fits (R143 to R145). -/
def packetExpanded (s : State) : State :=
  packetWritten (packetCount (streamPacket s s.work.inpos)) (streamPayload s s.work.inpos)
    (headerPixel (streamHeader s s.work.inpos) s.bpp) (fetchHeader s)

theorem packetExpanded_mem (s : State) : (packetExpanded s).mem =
    s.mem.writeBytes (s.pixelAddr s.work.pix) (packetPixels (streamPacket s s.work.inpos)) := by
  rw [packetExpanded, packetCount_streamPacket]
  exact writePixels_headerPixel s.mem _ s.bpp (Memory.length_readBytes ..)

theorem packetExpanded_inpos (s : State) :
    (packetExpanded s).work.inpos = s.work.inpos + (streamPayload s s.work.inpos + 1) := by
  rw [Nat.add_comm _ 1, ← Nat.add_assoc]
  rfl

theorem packetExpanded_pix (s : State) :
    (packetExpanded s).work.pix = s.work.pix + packetCount (streamPacket s s.work.inpos) := rfl

theorem packetExpanded_pixelAddr (s : State) : (packetExpanded s).pixelAddr (packetExpanded s).work.pix =
    s.pixelAddr s.work.pix + (packetPixels (streamPacket s s.work.inpos)).length := by
  rw [length_packetPixels (packetOk_streamPacket s _)]
  exact pixelAddr_pix_add s _ 0

theorem inBody_packetExpanded {s : State} (hb : inBody .decode s) : inBody .decode (packetExpanded s) := by
  obtain ⟨hphase, hstage, hc⟩ := hb
  exact ⟨hphase, hstage, (checkError_move .decode s _ _ _).trans hc⟩

theorem wf_packetExpanded {s : State} (hm : Memory.wf s.mem) : Memory.wf (packetExpanded s).mem :=
  wf_packetWritten hm _ _ _

theorem decodeIter_of_fits {s : State} (hcount : s.work.pix + packetCount (streamPacket s s.work.inpos) ≤ s.total)
    (hlen : s.work.inpos + (streamPayload s s.work.inpos + 1) ≤ s.srcLen.toNat) :
    decodeIter s = packetExpanded s := by
  have hpos := packetCount_pos (packetOk_streamPacket s s.work.inpos)
  have hlen' : s.work.inpos + 1 + streamPayload s s.work.inpos ≤ s.srcLen.toNat := by omega
  rw [decodeIter_of_headerDue (by omega) (by omega)]
  exact decodePacket_of_fits (s := fetchHeader s) hcount hlen'

/-- A packet in the image leaves the stream alone (R117). -/
theorem read_packetExpanded_stream {s : State} (hb : inBody .decode s) (hm : Memory.wf s.mem)
    (hcount : s.work.pix + packetCount (streamPacket s s.work.inpos) ≤ s.total) {a : Nat}
    (ha : inRegion (readRegion .decode s) a) : (packetExpanded s).mem.read a = s.mem.read a := by
  obtain ⟨-, -, hc⟩ := hb
  have hout := mt (packet_in_image (a := a) hcount) (((checked_iff .decode s).1 hc).disjoint ha)
  rw [packetExpanded_mem]
  refine Memory.read_writeBytes_out hm ?_
  rw [length_packetPixels (packetOk_streamPacket s _)]
  omega

/-- Behind the packet stand the packets that stood there before it. -/
theorem PacketsUntil.expand {s : State} {ps : List (Instr × List Byte)} {e : ErrorCode}
    (hb : inBody .decode s) (hm : Memory.wf s.mem)
    (h : PacketsUntil s (s.work.inpos + (streamPayload s s.work.inpos + 1))
      (s.work.pix + packetCount (streamPacket s s.work.inpos)) ps e) :
    PacketsUntil (packetExpanded s) (packetExpanded s).work.inpos (packetExpanded s).work.pix ps e := by
  rw [packetExpanded_inpos, packetExpanded_pix]
  exact h.move (fun _ => read_packetExpanded_stream hb hm h.head_fits.1) (packetExpanded s).work

/-! ### The whole loop -/

/-- Where `decodeEnd` names an ending, the round completes with it (R141, R142, R146). -/
theorem decodeIter_of_decodeEnd {s : State} {e : ErrorCode} (hc : s.work.pix ≤ s.total)
    (he : decodeEnd s s.work.inpos s.work.pix = some e) : decodeIter s = complete e (decodeProgress s) s := by
  rw [decodeEnd_eq] at he
  split_ifs at he with hfull hempty hover hshort <;> obtain rfl := Option.some.inj he
  · exact decodeIter_of_full hfull.ge
  · exact decodeIter_of_exhausted (by omega) hempty
  · rw [decodeIter_of_headerDue (by omega) (by omega), decodePacket_of_overflow (s := fetchHeader s) hover]
    rfl
  · rw [decodeIter_of_headerDue (by omega) (by omega),
      decodePacket_of_short (s := fetchHeader s) (Nat.not_lt.1 hover) hshort]
    rfl

/-- DECODE's loop writes the pixels of the packets it meets in one stretch, and completes behind them. -/
theorem decodeLoop_of_packetsUntil {s : State} {ps : List (Instr × List Byte)} {e : ErrorCode} {n : Nat}
    (hb : inBody .decode s) (hm : Memory.wf s.mem) (h : PacketsUntil s s.work.inpos s.work.pix ps e)
    (hn : countOf ps < n) :
    decodeLoop n s = complete e ⟨s.work.inpos + (wireOf ps).length, 0, s.work.pix + countOf ps⟩
      { s with mem := s.mem.writeBytes (s.pixelAddr s.work.pix) (pixelsOf ps) } := by
  induction ps generalizing s n with
  | nil =>
    obtain ⟨n, rfl⟩ := Nat.exists_eq_succ_of_ne_zero (Nat.ne_of_gt hn)
    rw [decodeLoop_busy hb.1, decodeIter_of_decodeEnd h.count h.ends, decodeLoop_idle rfl]
    rfl
  | cons p ps ih =>
    obtain ⟨rfl, hrest⟩ := h.uncons
    obtain ⟨hcount, hlen⟩ := hrest.head_fits
    have hpos := packetCount_pos (packetOk_streamPacket s s.work.inpos)
    have hwire : (packetWire (streamPacket s s.work.inpos)).length = streamPayload s s.work.inpos + 1 := by
      rw [packetWire_streamPacket, Memory.length_readBytes]
    rw [countOf_cons] at hn ⊢
    obtain ⟨n, rfl⟩ := Nat.exists_eq_succ_of_ne_zero (Nat.ne_zero_of_lt hn)
    rw [decodeLoop_busy hb.1, decodeIter_of_fits hcount hlen,
      ih (inBody_packetExpanded hb) (wf_packetExpanded hm) (hrest.expand hb hm) (by omega),
      packetExpanded_inpos, packetExpanded_pixelAddr, packetExpanded_mem, packetExpanded_pix, wireOf_cons,
      pixelsOf_cons, List.length_append, hwire, Memory.writeBytes_append, Nat.add_assoc, Nat.add_assoc s.work.pix]
    rfl

/-- R140: DECODE run whole, from the first byte of its stream. -/
theorem exec_decode_of_packetsUntil {s : State} {ps : List (Instr × List Byte)} {e : ErrorCode}
    (hc : checkError .decode s = none) (hm : Memory.wf s.mem) (h : PacketsUntil s 0 0 ps e) :
    exec .decode s = .next (complete e ⟨(wireOf ps).length, 0, countOf ps⟩
      { s with mem := s.mem.writeBytes s.pixBase.toNat (pixelsOf ps) }) := by
  have hb : inBody .decode (beginBody .decode s) := ⟨rfl, rfl, (checkError_move .decode s _ _ _).trans hc⟩
  have hps : PacketsUntil (beginBody .decode s) 0 0 ps e := ⟨h.ok, h.wire, h.fits, h.count, h.ends⟩
  have hn : countOf ps < s.total + 1 := Nat.lt_succ_of_le ((Nat.le_add_left ..).trans h.count)
  have haddr : (beginBody .decode s).pixelAddr 0 = s.pixBase.toNat := by
    rw [State.pixelAddr, Nat.zero_mul, Nat.add_zero, beginBody_pixBase]
  have hloop := decodeLoop_of_packetsUntil hb hm hps hn
  simp only [beginBody_work, Work.initial, Nat.zero_add, haddr] at hloop
  exact congrArg Host.Outcome.next ((congrArg (decodeLoop _) (enterBody_of_none hc)).trans hloop)

/-- Settles O35: memory after DECODE is memory before it with the packets' pixels written from PIX_BASE on. -/
theorem decodeExpandsItsPackets : Obligations.DecodeExpandsItsPackets := by
  intro s ps e hc hm hok hwire hfits hcount hends
  have hps : PacketsUntil s 0 0 ps e := by
    refine ⟨hok, hwire, ?_, ?_, ?_⟩
    · rwa [Nat.zero_add]
    · rwa [Nat.zero_add]
    · rwa [Nat.zero_add, Nat.zero_add]
  rw [← length_pixelsOf hok]
  exact ⟨_, ⟨Work.initial, exec_decode_of_packetsUntil hc hm hps⟩, Memory.readBytes_writeBytes_same hm _ _,
    fun _ => Memory.read_writeBytes_out hm⟩

end Sys2Proof.Machine
end

section
/-! ## ENCODE (R170 to R178): one packet, the stream of a whole image, and the round trip (R177) -/

namespace Sys2Proof.Machine

/-! ### One round of the loop, from its tests (R170, R174) -/

theorem encodeIter_of_done {s : State} (h : s.total ≤ s.work.s) :
    encodeIter s = complete .success (encodeProgress s) s :=
  if_pos h

theorem encodeIter_of_overflow {s : State} (hs : s.work.s < s.total)
    (h : s.dstLen.toNat < s.work.outpos + (packetBytes s s.work.s).length) :
    encodeIter s = complete .outputOverflow (encodeProgress s) s :=
  (if_neg (Nat.not_le.2 hs)).trans (if_pos h)

theorem encodeIter_of_fits {s : State} (hs : s.work.s < s.total)
    (h : s.work.outpos + (packetBytes s s.work.s).length ≤ s.dstLen.toNat) : encodeIter s = packetPacked s :=
  (if_neg (Nat.not_le.2 hs)).trans (if_neg (Nat.not_lt.2 h))

/-- With no event pending, an ENCODE body goes one round (R111). -/
theorem step_eq_encodeIter {s : State} (hin : s.inputs = []) (hb : inBody .encode s) :
    step s = .next (encodeIter s) := by
  obtain ⟨hphase, hstage, hcheck⟩ := hb
  rw [step_of_noInput hin, engineStep_of_body hphase hstage]
  exact bodyStep_eq hphase hstage hcheck

/-- What a completion that reports ENCODE's progress leaves (R170). -/
theorem completes_encodeProgress (e : ErrorCode) (s : State) :
    completes (.next (complete e (encodeProgress s) s)) e 0 s.work.outpos s.work.s s.mem s :=
  ⟨Work.initial, rfl⟩

/-- Settles O39: the loop's two tests. -/
theorem fullOutputEndsEncode : Obligations.FullOutputEndsEncode := by
  refine fun s hin hb => ⟨fun hs hover => ?_, fun hdone => ?_⟩
  · rw [step_eq_encodeIter hin hb, encodeIter_of_overflow hs hover]
    exact completes_encodeProgress _ s
  · rw [step_eq_encodeIter hin hb, encodeIter_of_done hdone.ge, ← hdone]
    exact completes_encodeProgress _ s

/-! ### The step of one packet (R172 to R174) -/

/-- The bytes `bs` of the next packet are written at outpos if they fit, else the command completes. -/
theorem step_packet {s : State} {bs : List Byte} {len : Nat} (hin : s.inputs = []) (hb : inBody .encode s)
    (hm : Memory.wf s.mem) (hs : s.work.s < s.total) (hbs : packetBytes s s.work.s = bs)
    (hlen : (packetBytes s s.work.s).length = len) :
    (s.work.outpos + len ≤ s.dstLen.toNat →
      ∃ m : Memory,
        step s = .next { s with mem := m, work := { s.work with
          s := s.work.s + packetExtent s s.work.s, k := packetExtent s s.work.s, outpos := s.work.outpos + len } } ∧
        m.readBytes (s.dstBase.toNat + s.work.outpos) len = bs ∧
        sameOutside s.mem m (s.dstBase.toNat + s.work.outpos) len) ∧
    (s.dstLen.toNat < s.work.outpos + len →
      completes (step s) .outputOverflow 0 s.work.outpos s.work.s s.mem s) := by
  subst hlen hbs
  rw [step_eq_encodeIter hin hb]
  refine ⟨fun hfit => ⟨_, congrArg Host.Outcome.next (encodeIter_of_fits hs hfit),
    Memory.readBytes_writeBytes_same hm _ _, fun _ => Memory.read_writeBytes_out hm⟩, fun hover => ?_⟩
  rw [encodeIter_of_overflow hs hover]
  exact completes_encodeProgress _ s

/-! ### RUN packets (R172) -/

section
variable {s : State} {p : Nat} (hrun : startsRun s p = true)
include hrun

theorem packetBytes_of_run : packetBytes s p = BitVec.ofNat 8 (128 + (packetExtent s p - 1)) :: s.pixel p :=
  (if_pos hrun).trans (congrArg (· :: s.pixel p) (BitVec.ofNat_add 128 (packetExtent s p - 1)).symm)

/-- A run is as long as the cap, the image and the pixels after the first two allow. -/
theorem packetExtent_of_run : 2 ≤ packetExtent s p ∧ packetExtent s p ≤ 128 ∧ p + packetExtent s p ≤ s.total ∧
    (∀ j < packetExtent s p, s.pixel (p + j) = s.pixel p) ∧
    (packetExtent s p = 128 ∨ p + packetExtent s p = s.total ∨ s.pixel (p + packetExtent s p) ≠ s.pixel p) := by
  obtain ⟨hnext, hpixel⟩ := (startsRun_iff s p).1 hrun
  rw [show packetExtent s p = runExtent s p 128 2 from if_pos hrun]
  obtain ⟨htwo, hcap, hend, hequal, hstop⟩ := runExtent_spec s p 128 2 (by omega) (by omega) (by omega)
  refine ⟨htwo, hcap, hend, fun j hj => ?_, hstop⟩
  match j with
  | 0 => rfl
  | 1 => exact hpixel
  | j + 2 => exact hequal (j + 2) (by omega) hj

end

/-- Settles O37: the run's extent, and the step of its packet. -/
theorem runExtentIsTheLargest : Obligations.RunExtentIsTheLargest := by
  intro s hin hb hm hnext hpixel
  have hrun := (startsRun_iff s s.work.s).2 ⟨hnext, hpixel⟩
  obtain ⟨htwo, hcap, hend, hequal, hstop⟩ := packetExtent_of_run hrun
  have hlen := (length_packetBytes s s.work.s).trans (if_pos hrun)
  exact ⟨_, htwo, hcap, hend, hequal, hstop,
    step_packet hin hb hm (Nat.lt_of_succ_lt hnext) (packetBytes_of_run hrun) hlen⟩

/-! ### RAW packets (R171, R173) -/

section
variable {s : State} {p : Nat} (hraw : ¬ startsRun s p = true)
include hraw

theorem packetBytes_of_raw : packetBytes s p = BitVec.ofNat 8 (packetExtent s p - 1) ::
    s.mem.readBytes (s.pixBase.toNat + p * s.bpp) (packetExtent s p * s.bpp) := by
  rw [← pixelsFrom_eq]
  exact if_neg hraw

/-- A raw packet goes on until the cap, the image's end, or a pixel that starts a run. -/
theorem packetExtent_of_raw (hp : p < s.total) : 1 ≤ packetExtent s p ∧ packetExtent s p ≤ 128 ∧
    p + packetExtent s p ≤ s.total ∧ (∀ j, p < j → j < p + packetExtent s p → ¬ startsRun s j = true) ∧
    (packetExtent s p = 128 ∨ p + packetExtent s p = s.total ∨ startsRun s (p + packetExtent s p) = true) := by
  rw [show packetExtent s p = rawExtent s p 128 1 from if_neg hraw]
  obtain ⟨hone, hcap, hend, hplain, hstop⟩ := rawExtent_spec s p 128 1 (by omega) (by omega) (by omega)
  refine ⟨hone, hcap, hend, fun j hj hj' => ?_, hstop⟩
  have hstart := hplain (j - p) (by omega) (by omega)
  rw [Nat.add_sub_cancel' hj.le] at hstart
  exact Bool.eq_false_iff.1 hstart

end

/-- Settles O38: the raw packet's extent, and its step. -/
theorem rawExtentStopsBeforeARun : Obligations.RawExtentStopsBeforeARun := by
  intro s hin hb hm hs hfirst
  simp only [← startsRun_iff] at hfirst ⊢
  obtain ⟨hone, hcap, hend, hplain, hstop⟩ := packetExtent_of_raw hfirst hs
  have hlen := (length_packetBytes s s.work.s).trans (if_neg hfirst)
  exact ⟨_, hone, hcap, hend, hplain, hstop, step_packet hin hb hm hs (packetBytes_of_raw hfirst) hlen⟩

/-! ### The packet at a pixel -/

/-- ENCODE's packet at pixel `p`, with the payload behind its header. -/
def nextPacket (s : State) (p : Nat) : Instr × List Byte :=
  (if startsRun s p then .run (packetExtent s p) else .raw (packetExtent s p), (packetBytes s p).tail)

theorem nextPacket_of_run {s : State} {p : Nat} (h : startsRun s p = true) :
    nextPacket s p = (.run (packetExtent s p), s.pixel p) := by
  rw [nextPacket, if_pos h, packetBytes_of_run h, List.tail_cons]

theorem nextPacket_of_raw {s : State} {p : Nat} (h : ¬ startsRun s p = true) : nextPacket s p =
    (.raw (packetExtent s p), s.mem.readBytes (s.pixBase.toNat + p * s.bpp) (packetExtent s p * s.bpp)) := by
  rw [nextPacket, if_neg h, packetBytes_of_raw h, List.tail_cons]

theorem packetOk_nextPacket {s : State} {p : Nat} (hp : p < s.total) : packetOk s.bpp (nextPacket s p) := by
  obtain ⟨hone, hcap, -, -⟩ := packetExtent_bounds s hp
  by_cases h : startsRun s p = true
  · rw [nextPacket_of_run h]
    exact ⟨hone, hcap, length_pixel s p⟩
  · rw [nextPacket_of_raw h]
    exact ⟨hone, hcap, Memory.length_readBytes ..⟩

theorem packetWire_nextPacket (s : State) (p : Nat) : packetWire (nextPacket s p) = packetBytes s p := by
  by_cases h : startsRun s p = true
  · rw [nextPacket_of_run h, packetBytes_of_run h]
    rfl
  · rw [nextPacket_of_raw h, packetBytes_of_raw h]
    rfl

theorem packetCount_nextPacket (s : State) (p : Nat) : packetCount (nextPacket s p) = packetExtent s p := by
  unfold nextPacket
  split <;> rfl

theorem two_le_of_nextPacket_run {s : State} {p n : Nat} {pb : List Byte} (h : (.run n, pb) = nextPacket s p) :
    2 ≤ n := by
  by_cases hrun : startsRun s p = true
  · rw [nextPacket_of_run hrun] at h
    cases h
    exact (packetExtent_of_run hrun).1
  · rw [nextPacket_of_raw hrun] at h
    cases h

/-- Equal pixels are one pixel, repeated. -/
theorem pixelsFrom_of_equal {s : State} {p k : Nat} {c : List Byte} (h : ∀ j < k, s.pixel (p + j) = c) :
    pixelsFrom s p k = (List.replicate k c).flatten := by
  induction k generalizing p with
  | zero => rfl
  | succ k ih =>
    have hrest : ∀ j < k, s.pixel (p + 1 + j) = c := fun j hj => by
      rw [Nat.add_assoc, Nat.add_comm 1 j]
      exact h (j + 1) (by omega)
    rw [pixelsFrom, ih hrest, List.replicate_succ, List.flatten_cons, ← h 0 k.succ_pos, Nat.add_zero]

/-- R172, R173: the pixels a packet stands for are the image's. -/
theorem packetPixels_nextPacket (s : State) (p : Nat) : packetPixels (nextPacket s p) =
    s.mem.readBytes (s.pixBase.toNat + p * s.bpp) (packetExtent s p * s.bpp) := by
  by_cases h : startsRun s p = true
  · obtain ⟨-, -, -, hequal, -⟩ := packetExtent_of_run h
    rw [nextPacket_of_run h, ← pixelsFrom_eq, pixelsFrom_of_equal hequal]
    rfl
  · rw [nextPacket_of_raw h]
    rfl

/-- The packet at a pixel is a function of the number of pixels and the pixels (R175). -/
theorem nextPacket_congr {u v : State} (ht : v.total = u.total) (hpix : ∀ k < u.total, v.pixel k = u.pixel k) {p : Nat}
    (hp : p < u.total) : nextPacket v p = nextPacket u p := by
  have hstart : startsRun v p = startsRun u p := by
    rw [Bool.eq_iff_iff, startsRun_iff, startsRun_iff, ht]
    exact and_congr_right fun h => by rw [hpix _ h, hpix p hp]
  obtain ⟨hbytes, hextent⟩ := packet_congr ht hpix hp
  rw [nextPacket, nextPacket, hstart, hbytes, hextent]

/-! ### The packets of an image -/

/-- From pixel `p` on, with `o` bytes written, ENCODE writes the packets `ps` and ends behind them with `e`, the image
staying as it is in `s` (R170, R174). -/
inductive PacksFrom (s : State) : Nat → Nat → List (Instr × List Byte) → ErrorCode → Prop
  | done {p o : Nat} (hp : s.total ≤ p) : PacksFrom s p o [] .success
  | full {p o : Nat} (hp : p < s.total) (ho : s.dstLen.toNat < o + (packetBytes s p).length) :
      PacksFrom s p o [] .outputOverflow
  | packet {p o : Nat} {ps : List (Instr × List Byte)} {e : ErrorCode} (hp : p < s.total)
      (ho : o + (packetBytes s p).length ≤ s.dstLen.toNat)
      (h : PacksFrom s (p + packetExtent s p) (o + (packetBytes s p).length) ps e) :
      PacksFrom s p o (nextPacket s p :: ps) e

/-- Each packet leaves fewer pixels, so there is an end. -/
theorem exists_packsFrom (s : State) (p o : Nat) : ∃ ps e, PacksFrom s p o ps e := by
  rcases Nat.lt_or_ge p s.total with hp | hp
  · rcases Nat.lt_or_ge s.dstLen.toNat (o + (packetBytes s p).length) with ho | ho
    · exact ⟨_, _, .full hp ho⟩
    · obtain ⟨hpos, -, -, -⟩ := packetExtent_bounds s hp
      obtain ⟨ps, e, h⟩ := exists_packsFrom s (p + packetExtent s p) (o + (packetBytes s p).length)
      exact ⟨_, _, .packet hp ho h⟩
  · exact ⟨_, _, .done hp⟩
termination_by s.total - p

/-- R175: the packets and the ending are a function of the pixels and the capacity. -/
theorem PacksFrom.congr {u v : State} (ht : v.total = u.total) (hd : v.dstLen = u.dstLen)
    (hpix : ∀ k < u.total, v.pixel k = u.pixel k) {p o : Nat} {ps : List (Instr × List Byte)} {e : ErrorCode}
    (h : PacksFrom u p o ps e) : PacksFrom v p o ps e := by
  induction h with
  | done hp => exact .done (ht.trans_le hp)
  | full hp ho =>
    obtain ⟨hbytes, -⟩ := packet_congr ht hpix hp
    exact .full (hp.trans_eq ht.symm) (by rwa [hd, hbytes])
  | packet hp ho _ ih =>
    obtain ⟨hbytes, hextent⟩ := packet_congr ht hpix hp
    rw [← nextPacket_congr ht hpix hp]
    rw [← hbytes, ← hextent] at ih
    exact .packet (hp.trans_eq ht.symm) (by rwa [hd, hbytes]) ih

namespace PacksFrom

variable {s : State} {p o : Nat} {ps : List (Instr × List Byte)} {e : ErrorCode}

theorem ok (h : PacksFrom s p o ps e) : ∀ q ∈ ps, packetOk s.bpp q := by
  induction h with
  | done | full => exact fun _ hq => nomatch hq
  | packet hp _ _ ih => exact List.forall_mem_cons.2 ⟨packetOk_nextPacket hp, ih⟩

theorem two_le_of_run (h : PacksFrom s p o ps e) {n : Nat} {pb : List Byte} (hq : (Instr.run n, pb) ∈ ps) : 2 ≤ n := by
  induction h with
  | done | full => exact nomatch hq
  | packet _ _ _ ih => exact (List.mem_cons.1 hq).elim two_le_of_nextPacket_run ih

theorem fits (h : PacksFrom s p o ps e) (ho : o ≤ s.dstLen.toNat) : o + (wireOf ps).length ≤ s.dstLen.toNat := by
  induction h with
  | done | full => exact ho
  | packet _ hfit _ ih =>
    rw [wireOf_cons, packetWire_nextPacket, List.length_append, ← Nat.add_assoc]
    exact ih hfit

/-- R176 (e): k pixels cost at most k × (1 + B) bytes. -/
theorem length_le (h : PacksFrom s p o ps e) : (wireOf ps).length ≤ countOf ps * (1 + s.bpp) := by
  induction h with
  | done | full => exact Nat.zero_le _
  | packet hp _ _ ih =>
    rw [wireOf_cons, packetWire_nextPacket, List.length_append, countOf_cons, packetCount_nextPacket, Nat.add_mul]
    exact Nat.add_le_add (length_packetBytes_le s hp) ih

theorem pixels (h : PacksFrom s p o ps e) :
    s.mem.readBytes (s.pixBase.toNat + p * s.bpp) (countOf ps * s.bpp) = pixelsOf ps := by
  induction h with
  | done | full => simp [countOf, pixelsOf, Memory.readBytes]
  | packet _ _ _ ih =>
    rw [countOf_cons, packetCount_nextPacket, Nat.add_mul, Memory.readBytes_add, pixelsOf_cons, packetPixels_nextPacket,
      ← ih, Nat.add_mul, Nat.add_assoc]

/-- R170, R174: the ending tells whether every pixel is packed. -/
theorem ending (h : PacksFrom s p o ps e) (hp : p ≤ s.total) :
    (e = .success ∧ p + countOf ps = s.total) ∨ (e = .outputOverflow ∧ p + countOf ps < s.total) := by
  induction h with
  | done hdone => exact .inl ⟨rfl, hp.antisymm hdone⟩
  | full hlt _ => exact .inr ⟨rfl, hlt⟩
  | packet hlt _ _ ih =>
    obtain ⟨-, -, hend, -⟩ := packetExtent_bounds s hlt
    rw [countOf_cons, packetCount_nextPacket, ← Nat.add_assoc]
    exact ih hend

end PacksFrom

/-! ### The whole loop -/

theorem inBody_packetPacked {s : State} (hb : inBody .encode s) : inBody .encode (packetPacked s) := by
  obtain ⟨hphase, hstage, hc⟩ := hb
  exact ⟨hphase, hstage, (checkError_move .encode s _ _ _).trans hc⟩

/-- A packet in the destination buffer leaves the image alone (R117). -/
theorem pixel_packetPacked {s : State} (hc : checkError .encode s = none) (hm : Memory.wf s.mem)
    (hfit : s.work.outpos + (packetBytes s s.work.s).length ≤ s.dstLen.toNat) {k : Nat} (hk : k < s.total) :
    (packetPacked s).pixel k = s.pixel k := by
  have hend : (k + 1) * s.bpp ≤ s.imageBytes := Nat.mul_le_mul_right _ hk
  rw [Nat.succ_mul] at hend
  refine Memory.readBytes_eq_iff.2 fun i (hi : i < s.bpp) => Memory.read_writeBytes_out hm ?_
  have hread : inRegion (readRegion .encode s) (s.pixelAddr k + i) := by
    simp only [inRegion, readRegion, State.pixelAddr]
    omega
  have hout : ¬ inRegion (writeRegion .encode s) (s.pixelAddr k + i) := ((checked_iff .encode s).1 hc).disjoint hread
  simp only [inRegion, writeRegion] at hout
  change s.pixelAddr k + i < _ ∨ _ ≤ s.pixelAddr k + i
  omega

/-- ENCODE's loop writes its packets in one stretch, and completes behind them. -/
theorem encodeLoop_of_packsFrom {s : State} {ps : List (Instr × List Byte)} {e : ErrorCode} {n : Nat}
    (hb : inBody .encode s) (hm : Memory.wf s.mem) (h : PacksFrom s s.work.s s.work.outpos ps e)
    (hn : countOf ps < n) :
    encodeLoop n s = complete e ⟨0, s.work.outpos + (wireOf ps).length, s.work.s + countOf ps⟩
      { s with mem := s.mem.writeBytes (s.dstBase.toNat + s.work.outpos) (wireOf ps) } := by
  induction ps generalizing s n with
  | nil =>
    obtain ⟨n, rfl⟩ := Nat.exists_eq_succ_of_ne_zero (Nat.ne_of_gt hn)
    rw [encodeLoop_busy hb.1]
    cases h with
    | done hp =>
      rw [encodeIter_of_done hp, encodeLoop_idle rfl]
      rfl
    | full hp ho =>
      rw [encodeIter_of_overflow hp ho, encodeLoop_idle rfl]
      rfl
  | cons q ps ih =>
    cases h with
    | packet hp ho h =>
      have ⟨hphase, _, hc⟩ := hb
      obtain ⟨hpos, -, -, -⟩ := packetExtent_bounds s hp
      rw [countOf_cons, packetCount_nextPacket] at hn ⊢
      obtain ⟨n, rfl⟩ := Nat.exists_eq_succ_of_ne_zero (Nat.ne_zero_of_lt hn)
      have hrest : PacksFrom (packetPacked s) (packetPacked s).work.s (packetPacked s).work.outpos ps e :=
        h.congr (u := s) (v := packetPacked s) rfl rfl fun _ => pixel_packetPacked hc hm ho
      rw [encodeLoop_busy hphase, encodeIter_of_fits hp ho,
        ih (inBody_packetPacked hb) (Memory.wf_writeBytes hm _ _) hrest (by omega), wireOf_cons, packetWire_nextPacket,
        Memory.writeBytes_append, List.length_append, ← Nat.add_assoc, ← Nat.add_assoc, Nat.add_assoc s.dstBase.toNat]
      rfl

theorem exec_encode_eq {s : State} (hc : checkError .encode s = none) :
    exec .encode s = .next (encodeLoop (s.total + 1) (beginBody .encode s)) :=
  congrArg (fun t => Host.Outcome.next (encodeLoop (s.total + 1) t)) (enterBody_of_none hc)

/-- R170: ENCODE run whole, from the image's first pixel. -/
theorem exec_encode_of_packsFrom {s : State} {ps : List (Instr × List Byte)} {e : ErrorCode}
    (hc : checkError .encode s = none) (hm : Memory.wf s.mem) (h : PacksFrom s 0 0 ps e) :
    exec .encode s = .next (complete e ⟨0, (wireOf ps).length, countOf ps⟩
      { s with mem := s.mem.writeBytes s.dstBase.toNat (wireOf ps) }) := by
  have hb : inBody .encode (beginBody .encode s) := ⟨rfl, rfl, (checkError_move .encode s _ _ _).trans hc⟩
  have hps : PacksFrom (beginBody .encode s) 0 0 ps e :=
    h.congr (u := s) (v := beginBody .encode s) rfl rfl fun _ _ => rfl
  have hn : countOf ps < s.total + 1 := by
    have := h.ending (Nat.zero_le _)
    omega
  have hloop := encodeLoop_of_packsFrom hb hm hps hn
  simp only [beginBody_work, Work.initial, Nat.zero_add, Nat.add_zero] at hloop
  exact (exec_encode_eq hc).trans (congrArg Host.Outcome.next hloop)

/-- Settles O40: memory after ENCODE is memory before it with the packets of the image written from DST_BASE on. -/
theorem encodeWritesAPacketStream : Obligations.EncodeWritesAPacketStream := by
  intro s hc hm
  obtain ⟨ps, e, h⟩ := exists_packsFrom s 0 0
  have hfits := h.fits (Nat.zero_le _)
  have hending := h.ending (Nat.zero_le _)
  have hpixels := h.pixels
  simp only [Nat.zero_add, Nat.zero_mul, Nat.add_zero] at hfits hending hpixels
  exact ⟨ps, e, _, ⟨Work.initial, exec_encode_of_packsFrom hc hm h⟩, hending, h.ok, fun _ _ => h.two_le_of_run, hfits,
    h.length_le, Memory.readBytes_writeBytes_same hm _ _, hpixels, fun _ => Memory.read_writeBytes_out hm⟩

/-- Settles O42: both states pack the same packets, each from its own DST_BASE on. -/
theorem encodeDependsOnThePixelsOnly : Obligations.EncodeDependsOnThePixelsOnly := by
  intro s₁ s₂ hc₁ hc₂ hm₁ hm₂ htotal _ hdst hpix
  obtain ⟨ps, e, h₁⟩ := exists_packsFrom s₁ 0 0
  have h₂ : PacksFrom s₂ 0 0 ps e := h₁.congr htotal.symm hdst.symm fun k hk => (hpix k hk).symm
  refine ⟨e, _, _, _, _, ⟨Work.initial, exec_encode_of_packsFrom hc₁ hm₁ h₁⟩,
    ⟨Work.initial, exec_encode_of_packsFrom hc₂ hm₂ h₂⟩, ?_⟩
  rw [Memory.readBytes_writeBytes_same hm₁, Memory.readBytes_writeBytes_same hm₂]

/-! ### A capacity that is enough (R176) -/

/-- R176 (e): a packet uses no more than 1 + B bytes of room for each pixel it covers. -/
theorem room_packetPacked {s : State} (hs : s.work.s < s.total) :
    (packetPacked s).work.outpos + (s.total - (packetPacked s).work.s) * (1 + s.bpp) ≤
      s.work.outpos + (s.total - s.work.s) * (1 + s.bpp) := by
  obtain ⟨-, -, hend, -⟩ := packetExtent_bounds s hs
  have hsplit : s.total - s.work.s = packetExtent s s.work.s + (s.total - (packetPacked s).work.s) := by
    simp only [packetPacked]
    omega
  rw [hsplit, Nat.add_mul, ← Nat.add_assoc]
  exact Nat.add_le_add_right (Nat.add_le_add_left (length_packetBytes_le s hs) _) _

/-- With 1 + B bytes of room for each pixel left, every packet fits, whatever memory holds when it is made. -/
theorem encodeLoop_of_room {s : State} {n : Nat} (hphase : s.phase = .busy .encode) (hs : s.work.s ≤ s.total)
    (hroom : s.work.outpos + (s.total - s.work.s) * (1 + s.bpp) ≤ s.dstLen.toNat) (hn : s.total < s.work.s + n) :
    ∃ (len : Nat) (m : Memory), encodeLoop n s = complete .success ⟨0, len, s.total⟩ { s with mem := m } ∧
      len ≤ s.work.outpos + (s.total - s.work.s) * (1 + s.bpp) := by
  induction n generalizing s with
  | zero => omega
  | succ n ih =>
    rw [encodeLoop_busy hphase]
    rcases Nat.lt_or_eq_of_le hs with hlt | hdone
    · obtain ⟨hpos, -, hend, -⟩ := packetExtent_bounds s hlt
      have hrest := room_packetPacked hlt
      have hn' : s.total < s.work.s + packetExtent s s.work.s + n := by omega
      obtain ⟨len, m, hloop, hlen⟩ := ih (s := packetPacked s) hphase hend (hrest.trans hroom) hn'
      rw [encodeIter_of_fits hlt ((Nat.le_add_right ..).trans (hrest.trans hroom))]
      exact ⟨len, m, hloop, hlen.trans hrest⟩
    · rw [encodeIter_of_done hdone.ge, encodeLoop_idle rfl, ← hdone]
      exact ⟨s.work.outpos, s.mem, rfl, Nat.le_add_right ..⟩

/-- Settles O41: at the start all n × (1 + B) bytes are left. -/
theorem enoughCapacityEncodesTheImage : Obligations.EnoughCapacityEncodesTheImage := by
  intro s hc hroom
  have hstart : 0 + (s.total - 0) * (1 + s.bpp) = s.total * (1 + s.bpp) := by rw [Nat.zero_add, Nat.sub_zero]
  obtain ⟨len, m, hloop, hlen⟩ := encodeLoop_of_room (s := beginBody .encode s) rfl (Nat.zero_le _)
    (hstart.trans_le hroom) (show s.total < 0 + (s.total + 1) by omega)
  exact ⟨len, m, ⟨Work.initial, (exec_encode_eq hc).trans (congrArg Host.Outcome.next hloop)⟩, hlen.trans_eq hstart⟩

/-! ### The round trip (R177) -/

/-- A command completes in one way: the ending, the memory and the registers the counts are reported in (R233). -/
theorem completes_unique {o : Host.Outcome State Fault Refusal} {s : State} {e e' : ErrorCode}
    {inU outU pixD inU' outU' pixD' : Nat} {m m' : Memory} (h : completes o e inU outU pixD m s)
    (h' : completes o e' inU' outU' pixD' m' s) :
    e = e' ∧ m = m' ∧ BitVec.ofNat 32 outU = BitVec.ofNat 32 outU' := by
  obtain ⟨w, rfl⟩ := h
  obtain ⟨w', heq⟩ := h'
  have hstate := Host.Outcome.next.inj heq
  exact ⟨congrArg State.error hstate, congrArg State.mem hstate, congrArg State.outUsed hstate⟩

/-- Settles O43: the stream ENCODE wrote (O40) is one whose packets DECODE expands (O35), and fills the image. -/
theorem decodeOfEncodeIsTheImage : Obligations.DecodeOfEncodeIsTheImage := by
  intro s s' len m hc hm hencode hwidth hheight hbytes hc' hm' hlen hstream
  obtain ⟨ps, e, m₁, hdone, hending, hok, -, hfits, -, hwire, hpixels, -⟩ := encodeWritesAPacketStream s hc hm
  obtain ⟨rfl, rfl, hout⟩ := completes_unique hdone hencode
  have hwlen : (wireOf ps).length = len := by
    have hbound := s.dstLen.isLt
    have hbound' := s'.srcLen.isLt
    have hout' := congrArg BitVec.toNat hout
    rwa [BitVec.toNat_ofNat, BitVec.toNat_ofNat, Nat.mod_eq_of_lt (by omega), Nat.mod_eq_of_lt (by omega)] at hout'
  have hcount : countOf ps = s.total := hending.elim And.right fun h => nomatch h.1
  have hbpp : s'.bpp = s.bpp := congrArg BitVec.toNat hbytes
  have htotal : s'.total = s.total := by rw [State.total, State.total, hwidth, hheight]
  have himage : countOf ps * s'.bpp = s'.imageBytes := by rw [State.imageBytes, hcount, htotal]
  subst hwlen
  obtain ⟨m', hdecode, hread, hframe⟩ := decodeExpandsItsPackets s' ps .success hc' hm' (hbpp ▸ hok)
    (hstream.trans hwire) hlen.ge (hcount.trans htotal.symm).le (if_pos (hcount.trans htotal.symm))
  rw [himage] at hread hframe
  rw [hcount, ← htotal] at hdecode
  refine ⟨m', hdecode, hread.trans ?_, hframe⟩
  rw [State.imageBytes, ← hcount]
  exact hpixels.symm

end Sys2Proof.Machine
end

section
/-! ## SCALE (R200 to R208): one column, one row's end, and the closed form of a whole command -/

namespace Sys2Proof.Machine

/-! ### One part of a running SCALE (R201 to R203) -/

/-- With no event pending, a SCALE body makes one part (R111). -/
theorem step_eq_scaleIter {s : State} (hin : s.inputs = []) (hb : inBody .scale s) : step s = .next (scaleIter s) := by
  obtain ⟨hphase, hstage, hcheck⟩ := hb
  rw [step_of_noInput hin, engineStep_of_body hphase hstage]
  exact bodyStep_eq hphase hstage hcheck

theorem scaleIter_of_column {s : State} (hi : s.work.i < s.height.toNat) (hcol : s.work.c < s.width.toNat) :
    scaleIter s = scaleColumn s :=
  (if_neg hi.not_ge).trans (if_pos hcol)

theorem scaleIter_of_rowEnd {s : State} (hi : s.work.i < s.height.toNat) (hcol : s.work.c = s.width.toNat) :
    scaleIter s = scaleRowEnd s :=
  (if_neg hi.not_ge).trans (if_neg hcol.not_lt)

theorem dstPixelAddr_add (s : State) (x j y : Nat) : dstPixelAddr s (x + j) y = dstPixelAddr s x y + j * s.bpp := by
  rw [dstPixelAddr, ← Nat.add_assoc, Nat.add_mul, ← Nat.add_assoc, dstPixelAddr]

theorem dstPixelAddr_zero (s : State) (y : Nat) : dstPixelAddr s 0 y = s.dstRowAddr y := rfl

theorem dstPixelAddr_eq (s : State) (x y : Nat) : dstPixelAddr s x y = s.dstRowAddr y + x * s.bpp := by
  rw [← dstPixelAddr_zero, ← dstPixelAddr_add, Nat.zero_add]

/-- Settles O47: the source pixel lies apart from its copies (R117), so the column is one move. -/
theorem scaleColumnCopiesItsPixel : Obligations.ScaleColumnCopiesItsPixel := by
  intro s hin hbody hbounds hm hcol hi
  have hc := (checked_iff .scale s).1 hbody.2.2
  obtain ⟨m, hmove, -, hcopies, hframe, -⟩ := scaleColumn_spec hc.width.1 hm (column_apart hc hbounds hi hcol)
  refine ⟨m, ?_, fun j hj => ?_, hframe⟩
  · rw [step_eq_scaleIter hin hbody, scaleIter_of_column hi hcol, hmove]
  · rw [dstPixelAddr_add]
    exact hcopies j hj

/-- Settles O48: the rows written begin at the one after the row just written, which stays as it is. -/
theorem scaleRowEndRepeatsTheRow : Obligations.ScaleRowEndRepeatsTheRow := by
  intro s hin hbody _ hm hcol hi
  have hc := (checked_iff .scale s).1 hbody.2.2
  obtain ⟨m, hmove, -, hcopies, hframe, -⟩ := scaleRowEnd_spec hc.height.1 hm
  refine ⟨m, ?_, hcopies, fun a ha => hframe a ?_⟩
  · rw [step_eq_scaleIter hin hbody, scaleIter_of_rowEnd hi hcol, hmove]
  · rw [dstPixelAddr_zero] at ha
    rw [dstRowAddr_succ, dstRowAddr_add]
    omega

/-! ### The source index of the closed form (R204) -/

/-- The source column of destination column `x`, or the source row of row `x`, when `W` are resampled to `N` (R204). -/
def sourceIndex (x W N : Nat) : Nat := ceilDiv ((x + 1) * W) N - 1

/-- Destination column `x` comes from the source column during whose copies the cursor passes `x`. -/
theorem sourceIndex_eq {x c W N : Nat} (hW : 1 ≤ W) (hlo : c * N / W ≤ x) (hhi : x < (c + 1) * N / W) :
    sourceIndex x W N = c := by
  have hlt : c * N < (x + 1) * W := (Nat.div_lt_iff_lt_mul hW).1 (Nat.lt_succ_of_le hlo)
  have hle : (x + 1) * W ≤ (c + 1) * N := (Nat.le_div_iff_mul_le hW).1 hhi
  have hceil : ceilDiv ((x + 1) * W) N = c + 1 := by
    rw [Nat.succ_mul] at hle
    refine Nat.div_eq_of_lt_le ?_ ?_
    · rw [Nat.succ_mul]
      omega
    · rw [Nat.succ_mul, Nat.succ_mul]
      omega
  rw [sourceIndex, hceil, Nat.add_sub_cancel]

section
variable {c N W err cur : Nat} (hW : 1 ≤ W) (herr : err = c * N % W) (hcur : cur = c * N / W)
include hW herr hcur

/-- The accumulator and the cursor after one more addition of `N` (R201, R202). -/
theorem accumulate_next : cur + (err + N) / W = (c + 1) * N / W ∧ (err + N) % W = (c + 1) * N % W := by
  rw [herr, hcur, Nat.add_comm]
  exact accumulate c N W hW

theorem sourceIndex_of_passed {x : Nat} (hlo : cur ≤ x) (hhi : x < cur + (err + N) / W) : sourceIndex x W N = c :=
  sourceIndex_eq hW (hcur.ge.trans hlo) (hhi.trans_eq (accumulate_next hW herr hcur).1)

end

/-- The source index lies in the source image. -/
theorem sourceIndex_lt {x W N : Nat} (hW : 1 ≤ W) (hx : x < N) : sourceIndex x W N < W := by
  have hceil : ceilDiv ((x + 1) * W) N < W + 1 := by
    have hle : (x + 1) * W ≤ N * W := Nat.mul_le_mul_right W hx
    rw [ceilDiv, Nat.div_lt_iff_lt_mul (by omega), Nat.succ_mul W, Nat.mul_comm W N]
    omega
  rw [sourceIndex]
  omega

theorem sourceIndex_self {x N : Nat} (hN : 1 ≤ N) : sourceIndex x N N = x :=
  sourceIndex_eq hN (Nat.mul_div_cancel x hN).le (by rw [Nat.mul_div_cancel _ hN]; exact x.lt_succ_self)

/-- The source column of destination column `x`. -/
def State.sourceCol (s : State) (x : Nat) : Nat := sourceIndex x s.width.toNat s.newWidth.toNat

/-- The source row of destination row `y`. -/
def State.sourceRow (s : State) (y : Nat) : Nat := sourceIndex y s.height.toNat s.newHeight.toNat

/-! ### The destination while a SCALE runs -/

/-- In memory `m` destination pixel (x, y) is a copy of source pixel (c, i) as it was in `m₀`. -/
def CopyOf (s : State) (m₀ m : Memory) (x y c i : Nat) : Prop :=
  m.readBytes (dstPixelAddr s x y) s.bpp = m₀.readBytes (srcPixelAddr s c i) s.bpp

/-- A copy stays one while its bytes do. -/
theorem CopyOf.congr {s : State} {m₀ m m' : Memory} {x y c i : Nat} (h : CopyOf s m₀ m x y c i)
    (hm : ∀ k < s.bpp, m'.read (dstPixelAddr s x y + k) = m.read (dstPixelAddr s x y + k)) :
    CopyOf s m₀ m' x y c i :=
  (Memory.readBytes_eq_iff.2 hm).trans h

theorem dstRowAddr_le_dstPixelAddr (s : State) (x y : Nat) : s.dstRowAddr y ≤ dstPixelAddr s x y := by
  rw [dstPixelAddr_eq]
  exact Nat.le_add_right _ _

/-- Rows that hold the same bytes hold the same pixels. -/
theorem readBytes_of_row {s : State} {m m' : Memory} {x y y' : Nat}
    (h : m'.readBytes (s.dstRowAddr y') (s.newWidth.toNat * s.bpp) =
      m.readBytes (s.dstRowAddr y) (s.newWidth.toNat * s.bpp)) (hx : x < s.newWidth.toNat) :
    m'.readBytes (dstPixelAddr s x y') s.bpp = m.readBytes (dstPixelAddr s x y) s.bpp := by
  have hrow : (x + 1) * s.bpp ≤ s.newWidth.toNat * s.bpp := Nat.mul_le_mul_right _ hx
  rw [Nat.succ_mul] at hrow
  refine Memory.readBytes_eq_iff.2 fun k hk => ?_
  rw [dstPixelAddr_eq, dstPixelAddr_eq, Nat.add_assoc, Nat.add_assoc]
  exact Memory.readBytes_eq_iff.1 h _ (by omega)

/-- A pixel ends before those after it in its row. -/
theorem dstPixelAddr_lt_of_col (s : State) {x x' y : Nat} (hx : x < x') :
    dstPixelAddr s x y + s.bpp ≤ dstPixelAddr s x' y := by
  obtain ⟨j, rfl⟩ := Nat.exists_eq_add_of_lt hx
  rw [Nat.add_assoc, dstPixelAddr_add, Nat.succ_mul]
  omega

/-- A pixel ends before the rows after its own. -/
theorem dstPixelAddr_lt_of_row (s : State) {x y y' : Nat} (hx : x < s.newWidth.toNat) (hy : y < y') :
    dstPixelAddr s x y + s.bpp ≤ s.dstRowAddr y' := by
  obtain ⟨j, rfl⟩ := Nat.exists_eq_add_of_lt hy
  have hrow : dstPixelAddr s x y + s.bpp ≤ s.dstRowAddr (y + 1) := by
    have hrest : (x + 1) * s.bpp ≤ s.newWidth.toNat * s.bpp := Nat.mul_le_mul_right _ hx
    rw [Nat.succ_mul] at hrest
    rw [dstPixelAddr_eq, dstRowAddr_succ]
    omega
  rw [Nat.add_right_comm, dstRowAddr_add]
  omega

/-- What holds of a SCALE body that began with memory `m₀`: nothing is written outside the destination, the rows before
the row cursor are those of the closed form (R204), and the row cursor's own row is, up to the column cursor, that of
the source row being visited. -/
structure Resampling (m₀ : Memory) (s : State) : Prop where
  checked : Checked .scale s
  bounds  : scaleBounds s
  wf      : Memory.wf s.mem
  frame   : sameOutside m₀ s.mem s.dstBase.toNat (s.newTotal * s.bpp)
  rows    : ∀ y < s.work.drow, ∀ x < s.newWidth.toNat, CopyOf s m₀ s.mem x y (s.sourceCol x) (s.sourceRow y)
  row     : ∀ x < s.work.dcol, CopyOf s m₀ s.mem x s.work.drow (s.sourceCol x) s.work.i

/-- The checks look at nothing that a running body moves. -/
theorem Checked.move {op : Op} {s : State} (h : Checked op s) (m : Memory) (w : Work) :
    Checked op { s with mem := m, work := w } :=
  (checked_iff op _).1 ((checkError_move op s m w s.phase).trans ((checked_iff op s).2 h))

/-- The source image keeps the bytes it had, as it lies outside the destination (R117). -/
theorem read_source {s : State} {m₀ m : Memory} (hc : Checked .scale s)
    (hframe : sameOutside m₀ m s.dstBase.toNat (s.newTotal * s.bpp)) {a : Nat} (hlo : s.pixBase.toNat ≤ a)
    (hhi : a < s.pixBase.toNat + s.imageBytes) : m.read a = m₀.read a := by
  have hout : ¬ inRegion (writeRegion .scale s) a := hc.disjoint ⟨hlo, hhi⟩
  simp only [inRegion, writeRegion] at hout
  exact hframe a (by omega)

theorem srcPixel_in_image (s : State) {c i : Nat} (hcol : c < s.width.toNat) (hi : i < s.height.toNat) :
    srcPixelAddr s c i + s.bpp ≤ s.pixBase.toNat + s.imageBytes := by
  have h : (i * s.width.toNat + c + 1) * s.bpp ≤ s.imageBytes := Nat.mul_le_mul_right _ (raster_le hi hcol)
  rw [Nat.succ_mul] at h
  rw [srcPixelAddr]
  omega

theorem readBytes_source {s : State} {m₀ m : Memory} (hc : Checked .scale s)
    (hframe : sameOutside m₀ m s.dstBase.toNat (s.newTotal * s.bpp)) {c i : Nat} (hcol : c < s.width.toNat)
    (hi : i < s.height.toNat) : m.readBytes (srcPixelAddr s c i) s.bpp = m₀.readBytes (srcPixelAddr s c i) s.bpp := by
  have hend := srcPixel_in_image s hcol hi
  have hbase : s.pixBase.toNat ≤ srcPixelAddr s c i := Nat.le_add_right _ _
  exact Memory.readBytes_eq_iff.2 fun k hk => read_source hc hframe (by omega) (by omega)

namespace Resampling

variable {m₀ : Memory} {s : State}

/-- R201: a source column copies its pixel to the destination columns that the closed form gives it. -/
theorem column (h : Resampling m₀ s) (hi : s.work.i < s.height.toNat) (hcol : s.work.c < s.width.toNat) :
    ∃ m w, scaleColumn s = { s with mem := m, work := w } ∧ Resampling m₀ { s with mem := m, work := w } ∧
      w.i = s.work.i ∧ w.c = s.work.c + 1 := by
  have htarget := column_in_target h.checked h.bounds hi hcol
  have hbase : s.dstBase.toNat ≤ s.dstAddr := Nat.le_add_right _ _
  obtain ⟨m, hmove, hwf, hcopies, hout, -⟩ :=
    scaleColumn_spec h.checked.width.1 h.wf (column_apart h.checked h.bounds hi hcol)
  obtain ⟨-, -, -, herrX, hdcol, herrY, hdrow⟩ := h.bounds
  obtain ⟨hdiv, hmod⟩ := accumulate_next h.checked.width.1 herrX hdcol
  have hbefore {x y i : Nat} (hold : CopyOf s m₀ s.mem x y (s.sourceCol x) i)
      (hend : dstPixelAddr s x y + s.bpp ≤ s.dstAddr) : CopyOf s m₀ m x y (s.sourceCol x) i :=
    hold.congr fun k hk => hout _ (.inl (by omega))
  have hframe : sameOutside m₀ m s.dstBase.toNat (s.newTotal * s.bpp) := fun a ha =>
    (hout a (by omega)).trans (h.frame a ha)
  have hrows : ∀ y < s.work.drow, ∀ x < s.newWidth.toNat,
      CopyOf s m₀ m x y (s.sourceCol x) (s.sourceRow y) := fun y hy x hx =>
    hbefore (h.rows y hy x hx) ((dstPixelAddr_lt_of_row s hx hy).trans (dstRowAddr_le_dstPixelAddr s _ _))
  have hrow : ∀ x < s.work.dcol + (s.work.errX + s.newWidth.toNat) / s.width.toNat,
      CopyOf s m₀ m x s.work.drow (s.sourceCol x) s.work.i := fun x hx => by
    rcases Nat.lt_or_ge x s.work.dcol with hold | hnew
    · exact hbefore (h.row x hold) (dstPixelAddr_lt_of_col s hold)
    · obtain ⟨j, rfl⟩ := Nat.exists_eq_add_of_le hnew
      have hsource : s.sourceCol (s.work.dcol + j) = s.work.c :=
        sourceIndex_of_passed h.checked.width.1 herrX hdcol hnew hx
      rw [CopyOf, hsource, dstPixelAddr_add]
      exact (hcopies j (by omega)).trans (readBytes_source h.checked h.frame hcol hi)
  exact ⟨m, _, hmove, ⟨h.checked.move _ _, ⟨hi.le, hcol, fun he => absurd he hi.ne, hmod, hdiv, herrY, hdrow⟩, hwf,
    hframe, hrows, hrow⟩, rfl, rfl⟩

/-- R202, R203: a row's end makes every destination row the closed form gives to the source row a copy of the row just
written. -/
theorem rowEnd (h : Resampling m₀ s) (hi : s.work.i < s.height.toNat) (hcol : s.work.c = s.width.toNat) :
    ∃ m w, scaleRowEnd s = { s with mem := m, work := w } ∧ Resampling m₀ { s with mem := m, work := w } ∧
      w.i = s.work.i + 1 ∧ w.c = 0 := by
  have htarget := rows_in_target h.checked h.bounds hi
  have hbase : s.dstBase.toNat ≤ s.dstRowAddr (s.work.drow + 1) := Nat.le_add_right _ _
  obtain ⟨m, hmove, hwf, hcopies, hout, -⟩ := scaleRowEnd_spec h.checked.height.1 h.wf
  obtain ⟨-, -, -, -, hdcol, herrY, hdrow⟩ := h.bounds
  obtain ⟨hdiv, hmod⟩ := accumulate_next h.checked.height.1 herrY hdrow
  rw [hcol, Nat.mul_div_cancel_left _ h.checked.width.1] at hdcol
  have hframe : sameOutside m₀ m s.dstBase.toNat (s.newTotal * s.bpp) := fun a ha =>
    (hout a (by omega)).trans (h.frame a ha)
  have hrows : ∀ y < s.work.drow + (s.work.errY + s.newHeight.toNat) / s.height.toNat, ∀ x < s.newWidth.toNat,
      CopyOf s m₀ m x y (s.sourceCol x) (s.sourceRow y) := fun y hy x hx => by
    rcases Nat.lt_or_ge y s.work.drow with hold | hnew
    · have hend : dstPixelAddr s x y + s.bpp ≤ s.dstRowAddr (s.work.drow + 1) :=
        dstPixelAddr_lt_of_row s hx (Nat.lt_succ_of_lt hold)
      exact (h.rows y hold x hx).congr fun k hk => hout _ (.inl (by omega))
    · obtain ⟨j, rfl⟩ := Nat.exists_eq_add_of_le hnew
      have hsource : s.sourceRow (s.work.drow + j) = s.work.i :=
        sourceIndex_of_passed h.checked.height.1 herrY hdrow hnew hy
      rw [hsource]
      exact (readBytes_of_row (hcopies j (by omega)) hx).trans (h.row x (hdcol ▸ hx))
  have hnone : ∀ x < 0, CopyOf s m₀ m x (s.work.drow + (s.work.errY + s.newHeight.toNat) / s.height.toNat)
      (s.sourceCol x) (s.work.i + 1) := fun x hx => absurd hx x.not_lt_zero
  exact ⟨m, _, hmove, ⟨h.checked.move _ _, ⟨hi, Nat.zero_le _, fun _ => rfl, by simp, by simp, hmod, hdiv⟩, hwf,
    hframe, hrows, hnone⟩, rfl, rfl⟩

theorem throughColumns (n : Nat) (h : Resampling m₀ s) (hi : s.work.i < s.height.toNat)
    (hn : s.work.c + n ≤ s.width.toNat) :
    ∃ m w, scaleColumns n s = { s with mem := m, work := w } ∧ Resampling m₀ { s with mem := m, work := w } ∧
      w.i = s.work.i ∧ w.c = s.work.c + n := by
  induction n generalizing s with
  | zero => exact ⟨s.mem, s.work, rfl, h, rfl, rfl⟩
  | succ n ih =>
    obtain ⟨m, w, hcolumn, h', ei, ec⟩ := h.column hi (by omega)
    obtain ⟨m', w', hrest, h'', (ei' : w'.i = w.i), (ec' : w'.c = w.c + n)⟩ :=
      ih h' (ei.trans_lt hi) (show w.c + n ≤ s.width.toNat by omega)
    rw [scaleColumns, hcolumn, hrest]
    exact ⟨m', w', rfl, h'', ei'.trans ei, by omega⟩

theorem throughRows (n : Nat) (h : Resampling m₀ s) (hc : s.work.c = 0) (hn : s.work.i + n ≤ s.height.toNat) :
    ∃ m w, scaleRows n s = { s with mem := m, work := w } ∧ Resampling m₀ { s with mem := m, work := w } ∧
      w.i = s.work.i + n := by
  induction n generalizing s with
  | zero => exact ⟨s.mem, s.work, rfl, h, rfl⟩
  | succ n ih =>
    have hi : s.work.i < s.height.toNat := by omega
    obtain ⟨m, w, hcolumns, h', ei, ec⟩ := h.throughColumns s.width.toNat hi (by omega)
    obtain ⟨m', w', hend, h'', (ei' : w'.i = w.i + 1), (ec' : w'.c = 0)⟩ :=
      h'.rowEnd (ei.trans_lt hi) (show w.c = s.width.toNat by omega)
    obtain ⟨m'', w'', hrest, hfinal, (ei'' : w''.i = w'.i + n)⟩ := ih h'' ec' (show w'.i + n ≤ s.height.toNat by omega)
    rw [scaleRows, hcolumns, hend, hrest]
    exact ⟨m'', w'', rfl, hfinal, by omega⟩

end Resampling

/-! ### The whole command (R204, R205) -/

@[simp] theorem scaleComplete_mem (s : State) : (scaleComplete s).mem = s.mem := rfl

/-- The body begins with no row and no pixel written. -/
theorem resampling_beginBody {s : State} (hc : checkError .scale s = none) (hm : Memory.wf s.mem) :
    Resampling s.mem (beginBody .scale s) where
  checked := (checked_iff .scale _).1 ((checkError_move .scale s _ _ _).trans hc)
  bounds  := by simp [scaleBounds, Work.initial]
  wf      := hm
  frame   := fun _ _ => rfl
  rows    := fun y hy => absurd hy y.not_lt_zero
  row     := fun x hx => absurd hx x.not_lt_zero

/-- A SCALE whose checks pass, run whole: it completes with success, and its memory is the old one with the closed form
in the destination. -/
theorem exec_scale_of_checked {s : State} (hc : checkError .scale s = none) (hm : Memory.wf s.mem) :
    ∃ m : Memory, exec .scale s = .next (scaleComplete { s with mem := m }) ∧
      sameOutside s.mem m s.dstBase.toNat (s.newTotal * s.bpp) ∧
      ∀ x < s.newWidth.toNat, ∀ y < s.newHeight.toNat, CopyOf s s.mem m x y (s.sourceCol x) (s.sourceRow y) := by
  have hheight := ((checked_iff .scale s).1 hc).height.1
  obtain ⟨m, w, hrows, h, (hi : w.i = 0 + s.height.toNat)⟩ :=
    (resampling_beginBody hc hm).throughRows s.height.toNat rfl (Nat.zero_add s.height.toNat).le
  obtain ⟨-, -, -, -, -, -, (hdrow : w.drow = w.i * s.newHeight.toNat / s.height.toNat)⟩ := h.bounds
  rw [hi, Nat.zero_add, Nat.mul_div_cancel_left _ hheight] at hdrow
  refine ⟨m, ?_, h.frame, fun x hx y hy => h.rows y (hy.trans_eq hdrow.symm) x hx⟩
  rcases execScale_cases s with ⟨e, he, -⟩ | ⟨-, hexec⟩
  · cases hc.symm.trans he
  · change execScale s = _
    rw [hexec, hrows]
    rfl

/-- Settles O45: a copy of a pixel is a copy of each of its bytes. -/
theorem scaleClosedForm : Obligations.ScaleClosedForm := by
  intro s hc hm
  obtain ⟨m, hexec, -, hcopies⟩ := exec_scale_of_checked hc hm
  exact ⟨_, hexec, fun x hx y hy => Memory.readBytes_eq_iff.1 (hcopies x hx y hy)⟩

/-! ### The image registers (R205) -/

/-- A check that fails records an error (R118). -/
theorem checkError_ne_success (op : Op) (s : State) : checkError op s ≠ some .success := by
  intro h
  by_cases hop : op = .illegal
  · subst hop
    cases h
  · cases hp : paramError op s with
    | some e =>
      rw [← checkError_of_paramError hop hp, h, paramError_eq] at hp
      split_ifs at hp <;> cases hp
    | none =>
      rw [checkError_of_paramError_none hop hp, regionError_eq] at h
      split_ifs at h <;> cases h

/-- The source image is smaller than the address space, in which the destination lies beside it (R116, R117). -/
theorem imageBytes_lt {s : State} (hc : Checked .scale s) : s.imageBytes < 4294967296 := by
  obtain ⟨hNW, hNH, -⟩ := hc.target rfl
  have hsrc : 0 < s.imageBytes := Nat.mul_pos hc.total_pos hc.bpp_pos
  have hdst : 0 < s.newTotal * s.bpp := Nat.mul_pos (Nat.mul_pos hNW.1 hNH.1) hc.bpp_pos
  have hread := end_le_of_regionOk hc.readOk hsrc
  have hwrite := end_le_of_regionOk hc.writeOk hdst
  have hapart := apart_of_not_overlap hc.noOverlap
  simp only [readRegion, writeRegion] at hread hwrite hapart
  omega

/-- Settles O44: the failing side is one completion; the other writes only the destination, beside the source (R117). -/
theorem scaleSwapsTheImage : Obligations.ScaleSwapsTheImage := by
  refine ⟨fun s hfail => ?_, fun s hc hm => ?_⟩
  · rcases execScale_cases s with ⟨e, he, hexec⟩ | ⟨hc, -⟩
    · exact ⟨_, hexec, fun hs => checkError_ne_success .scale s (he.trans (congrArg some hs)),
        rfl, rfl, rfl, rfl, rfl, rfl⟩
    · exact absurd hc hfail
  · have hchecked := (checked_iff .scale s).1 hc
    obtain ⟨m, hexec, hframe, -⟩ := exec_scale_of_checked hc hm
    exact ⟨m, ⟨Work.initial, hexec⟩, imageBytes_lt hchecked, hframe, Memory.readBytes_eq_iff.2 fun k hk =>
      read_source hchecked hframe (Nat.le_add_right _ _) (Nat.add_lt_add_left hk _)⟩

/-! ### The same size, and one colour (R208) -/

/-- Memory that agrees pixel by pixel agrees on the whole stretch. -/
theorem Memory.readBytes_eq_of_pixels {m m' : Memory} {a a' b n : Nat}
    (h : ∀ k < n, m.readBytes (a + k * b) b = m'.readBytes (a' + k * b) b) :
    m.readBytes a (n * b) = m'.readBytes a' (n * b) := by
  induction n with
  | zero => rw [Nat.zero_mul, Memory.readBytes, Memory.readBytes]
  | succ n ih =>
    rw [Nat.succ_mul, Memory.readBytes_add, Memory.readBytes_add, h n n.lt_succ_self,
      ih fun k hk => h k (Nat.lt_succ_of_lt hk)]

section
variable {s : State} {m : Memory} {k : Nat} (hc : Checked .scale s) (hk : k < s.newTotal)
include hk

theorem newWidth_pos_of_lt_newTotal : 0 < s.newWidth.toNat := Nat.pos_of_mul_pos_right (Nat.zero_lt_of_lt hk)

/-- The closed form by the destination pixels' places in their raster (R62, R204). -/
theorem readBytes_dst_of_copies
    (hcopies : ∀ x < s.newWidth.toNat, ∀ y < s.newHeight.toNat, CopyOf s s.mem m x y (s.sourceCol x) (s.sourceRow y)) :
    m.readBytes (s.dstBase.toNat + k * s.bpp) s.bpp =
      s.pixel (s.sourceRow (k / s.newWidth.toNat) * s.width.toNat + s.sourceCol (k % s.newWidth.toNat)) := by
  have hcopy := hcopies _ (Nat.mod_lt k (newWidth_pos_of_lt_newTotal hk)) _ (Nat.div_lt_of_lt_mul hk)
  rwa [CopyOf, dstPixelAddr, Nat.div_add_mod'] at hcopy

include hc in
/-- The source pixel of a destination pixel lies in the source image. -/
theorem sourcePixel_lt :
    s.sourceRow (k / s.newWidth.toNat) * s.width.toNat + s.sourceCol (k % s.newWidth.toNat) < s.total := by
  have hrow : s.sourceRow (k / s.newWidth.toNat) < s.height.toNat :=
    sourceIndex_lt hc.height.1 (Nat.div_lt_of_lt_mul hk)
  have hcol : s.sourceCol (k % s.newWidth.toNat) < s.width.toNat :=
    sourceIndex_lt hc.width.1 (Nat.mod_lt k (newWidth_pos_of_lt_newTotal hk))
  exact raster_le (n := 1) hrow hcol

end

/-- Settles O46: with NW = W and NH = H each pixel is its own source, and every source pixel lies in the image. -/
theorem scaleIdentityAndUniform : Obligations.ScaleIdentityAndUniform := by
  intro s hc hm
  have hchecked := (checked_iff .scale s).1 hc
  obtain ⟨m, hexec, -, hcopies⟩ := exec_scale_of_checked hc hm
  refine ⟨_, hexec, fun hwidth hheight => ?_, fun p hp k hk => ?_⟩
  · have htotal : s.newTotal = s.total := by rw [State.newTotal, State.total, hwidth, hheight]
    refine Memory.readBytes_eq_of_pixels fun k hk => ?_
    rw [scaleComplete_mem, readBytes_dst_of_copies (hk.trans_eq htotal.symm) hcopies, State.sourceRow, State.sourceCol,
      hwidth, hheight, sourceIndex_self hchecked.width.1, sourceIndex_self hchecked.height.1, Nat.div_add_mod']
    rfl
  · rw [scaleComplete_mem, readBytes_dst_of_copies hk hcopies]
    exact hp _ (sourcePixel_lt hchecked hk)

end Sys2Proof.Machine
end

section
/-! ## Idle between commands (R110, R237, R245), and the interrupt as a level (R235) -/

namespace Sys2Proof.Machine

/-! ### What a step from Idle can do -/

/-- R245: Idle, the engine waits. -/
theorem engineStep_of_idle {s : State} (hp : s.phase = .idle) : engineStep s = .next s := by
  simp only [engineStep, hp]

theorem engineStepPart_of_idle {s : State} (hp : s.phase = .idle) : engineStepPart s = .next s := by
  simp only [engineStepPart, hp]

/-- The four things that can happen to an Idle block: RST, a host write of a register, a host write of memory, or nothing
that a register or memory shows. -/
inductive IdleStep (s t : State) : Prop
  | rst {rest : List Input} (hin : s.inputs = .rst :: rest) (ht : t = resetBlock { s with inputs := rest })
  | regWrite {r : Reg} {v : Word} {rest : List Input} (hin : s.inputs = writeOf s r v :: rest)
      (ht : t = writeReg r v { s with inputs := rest, reply := .none })
  | memWrite {a : Word} {b : Byte} {rest : List Input} (hin : s.inputs = .memWrite a b :: rest)
      (ht : t = { s with mem := s.mem.write a.toNat b, inputs := rest, reply := .none })
  | quiet {inputs : List Input} {reply : Reply} {draws : Nat}
      (ht : t = { s with inputs := inputs, reply := reply, draws := draws })

theorem idleStep_of_takeInput {s t : State} {x : Input} {rest : List Input} (hp : s.phase = .idle)
    (hin : s.inputs = x :: rest) (ht : takeInput x { s with inputs := rest } = .next t) : IdleStep s t := by
  cases x with
  | regRead addr width =>
    cases ht
    obtain ⟨reply, draws, q⟩ := hostRegRead_cases addr width { s with inputs := rest }
    exact .quiet q
  | regWrite addr width v =>
    cases ht
    rcases hostRegWrite_cases addr width v { s with inputs := rest } with q | ⟨r, rfl, rfl, q⟩
    · exact .quiet q
    · exact .regWrite hin q
  | memRead a => exact .quiet (eq_of_hostMemRead (s := { s with inputs := rest }) ht)
  | memWrite a b => exact .memWrite hin (eq_of_hostMemWrite (s := { s with inputs := rest }) ht)
  | rst =>
    cases ht
    exact .rst hin rfl
  | engine =>
    cases (engineStep_of_idle (s := { s with inputs := rest }) hp).symm.trans ht
    exact .quiet rfl
  | enginePart =>
    cases (engineStepPart_of_idle (s := { s with inputs := rest }) hp).symm.trans ht
    exact .quiet rfl

theorem idleStep_of_step {s t : State} (hp : s.phase = .idle) (ht : step s = .next t) : IdleStep s t := by
  cases hin : s.inputs with
  | nil =>
    rw [step_of_noInput hin, engineStep_of_idle hp] at ht
    cases ht
    exact .quiet rfl
  | cons x rest =>
    rw [step_of_input hin] at ht
    exact idleStep_of_takeInput hp hin ht

/-! ### The results of the last command -/

/-- What R237 keeps after a completion, and the phase. -/
def results (s : State) : ErrorCode × Word × Word × Word × Phase :=
  (s.error, s.inUsed, s.outUsed, s.pixDone, s.phase)

theorem results_writeParam (r : Reg) (v : Word) (s : State) : results (writeParam r v s) = results s := by
  cases r <;> rfl

/-- R120: while Idle only a write of CMD touches the results or leaves Idle. -/
theorem results_writeReg {r : Reg} {s : State} (hp : s.phase = .idle) (hr : r ≠ .cmd) (v : Word) :
    results (writeReg r v s) = results s := by
  rcases reg_kind r with h | h | rfl | rfl | h
  · exact absurd h hr
  · rw [writeReg_param_of_idle hp h, results_writeParam]
  · rfl
  · rfl
  · rw [writeReg_of_readOnly h]

/-- From Idle the results change only by RST, or as a command starts. -/
theorem results_of_idleStep {s t : State} (hp : s.phase = .idle) (h : IdleStep s t) :
    (∃ rest, s.inputs = .rst :: rest ∧ t.phase = .idle) ∨
    (∃ v rest, s.inputs = writeOf s .cmd v :: rest ∧ t.cmd = v) ∨ results t = results s := by
  cases h with
  | rst hin ht =>
    subst ht
    exact .inl ⟨_, hin, rfl⟩
  | @regWrite r v rest hin ht =>
    subst ht
    have hp' : { s with inputs := rest, reply := .none }.phase = .idle := hp
    by_cases hr : r = .cmd
    · subst hr
      rw [writeReg_cmd_of_idle hp']
      exact .inr (.inl ⟨v, rest, hin, rfl⟩)
    · exact .inr (.inr (results_writeReg hp' hr v))
  | memWrite hin ht =>
    subst ht
    exact .inr (.inr rfl)
  | quiet ht =>
    subst ht
    exact .inr (.inr rfl)

/-- Settles O54: RST leads to Idle again, and all else but a command's start keeps the phase with the results. -/
theorem onlyACommandStartLeavesIdle : Obligations.OnlyACommandStartLeavesIdle := by
  intro s t hp ht hb
  rcases results_of_idleStep hp (idleStep_of_step hp ht) with ⟨_, -, hidle⟩ | ⟨v, rest, hstart⟩ | hres
  · exact absurd hidle hb
  · exact ⟨v, rest, hstart⟩
  · simp only [results, Prod.mk.injEq] at hres
    obtain ⟨-, -, -, -, hphase⟩ := hres
    exact absurd (hphase.trans hp) hb

/-! ### Registers and memory -/

theorem regValue_of_idleStep {s t : State} (h : IdleStep s t) (hrst : ∀ rest, s.inputs ≠ .rst :: rest)
    (hreg : ∀ addr width v rest, s.inputs ≠ .regWrite addr width v :: rest) (r : Reg) : regValue r t = regValue r s := by
  cases h with
  | rst hin _ => exact absurd hin (hrst _)
  | regWrite hin _ => exact absurd hin (hreg _ _ _ _)
  | memWrite hin ht =>
    subst ht
    cases r <;> rfl
  | quiet ht =>
    subst ht
    cases r <;> rfl

/-- R261: RST while Idle leaves memory. -/
theorem resetMemory_of_idle {s : State} (hp : s.phase = .idle) : resetMemory s = s.mem := by
  simp only [resetMemory, hp]

theorem mem_of_idleStep {s t : State} (hp : s.phase = .idle) (h : IdleStep s t)
    (hmem : ∀ a b rest, s.inputs ≠ .memWrite a b :: rest) : t.mem = s.mem := by
  cases h with
  | @rst rest _ ht =>
    subst ht
    exact resetMemory_of_idle (s := { s with inputs := rest }) hp
  | regWrite _ ht => rw [ht, writeReg_mem]
  | memWrite hin _ => exact absurd hin (hmem _ _ _)
  | quiet ht => rw [ht]

/-- Settles O55, by what a step from Idle can do. -/
theorem resultsStayUntilTheNextStart : Obligations.ResultsStayUntilTheNextStart := by
  refine ⟨fun s t hp ht hrst hcmd => ?_, fun s t hp ht => ?_, fun s hp => ⟨fun hin => ?_, fun rest hin => ?_⟩⟩
  · rcases results_of_idleStep hp (idleStep_of_step hp ht) with ⟨rest, hin, -⟩ | ⟨v, rest, hin, -⟩ | hres
    · exact absurd hin (hrst rest)
    · exact absurd hin (hcmd v rest)
    · simpa only [results, Prod.mk.injEq, hp] using hres
  · have h := idleStep_of_step hp ht
    exact ⟨regValue_of_idleStep h, mem_of_idleStep hp h⟩
  · rw [step_of_noInput hin, engineStep_of_idle hp]
  · rcases hin with hin | hin <;> rw [step_of_input hin]
    · exact engineStep_of_idle (s := { s with inputs := rest }) hp
    · exact engineStepPart_of_idle (s := { s with inputs := rest }) hp

/-! ### The interrupt -/

theorem irq_of_done_eq_false {s : State} (h : s.done = false) : s.irq = false := by
  rw [State.irq, h, Bool.false_and]

theorem irq_of_ie_eq_false {s : State} (h : s.ie = false) : s.irq = false := by
  rw [State.irq, h, Bool.and_false]

/-- Settles O19: a write of STATUS and a start clear DONE, a write of IRQ_EN clears IE. -/
theorem interruptIsALevel : Obligations.InterruptIsALevel := by
  intro s rest v
  refine ⟨Bool.and_eq_true_iff, fun hv => ⟨_, step_writeOf s rest .status v, irq_of_done_eq_false ?_⟩,
    fun hv => ⟨_, step_writeOf s rest .irqEn v, irq_of_ie_eq_false hv, rfl⟩,
    fun hp => ⟨_, step_writeOf s rest .cmd v, ?_⟩⟩
  · simp only [writeReg, writeStatus_done, hv, Bool.not_true, Bool.and_false]
  · rw [writeReg_cmd_of_idle (s := { s with inputs := rest, reply := .none }) hp, commandStart_irq]

end Sys2Proof.Machine
end

section
/-! ## Reset and hazards: RST at any time (R260 to R262), and the accesses R265 forbids -/

namespace Sys2Proof.Machine

/-! ### RST -/

/-- R260: every register reads 0 after RST. -/
theorem regValue_resetBlock (r : Reg) (s : State) : regValue r (resetBlock s) = 0 := by
  have hreset : regValue r (resetBlock s) = regValue r State.reset := by cases r <;> rfl
  obtain ⟨hzero, -⟩ := resetLeavesZero
  exact hreset.trans (hzero r)

theorem step_rst (s : State) (rest : List Input) :
    step { s with inputs := .rst :: rest } = .next (resetBlock { s with inputs := rest }) := rfl

/-- R260: RST keeps nothing of the working state. -/
theorem resetBlock_setWork (w : Work) (s : State) : resetBlock { s with work := w } = resetBlock s := rfl

/-- Settles O9: the state after RST is built from that after reset, with memory, which Idle keeps (R261). -/
theorem rstResetsTheBlock : Obligations.RstResetsTheBlock := fun s rest =>
  ⟨resetBlock { s with inputs := rest }, step_rst s rest, fun r => regValue_resetBlock r _, rfl, rfl,
    fun w => congrArg Host.Outcome.next (resetBlock_setWork w { s with inputs := rest }),
    resetMemory_of_idle (s := { s with inputs := rest })⟩

/-- A region's bytes of memory all lie in its part below 2^32. -/
theorem Region.lt_inSpace_iff {cfg : Config} {r : Region} {a : Nat} (hbase : r.base ≤ a) (hok : memOk cfg a = true) :
    a < r.base + r.inSpace ↔ a < r.base + r.len := by
  have hlt := memOk_lt hok
  simp only [Region.inSpace, Config.addrSpace]
  omega

/-- R262: the bytes that RST during a command leaves. -/
theorem read_resetBlock_of_busy {op : Op} {s : State} (hm : Memory.wf s.mem) (hp : s.phase = .busy op) (a : Nat) :
    (resetBlock s).mem.read a =
      if (writeRegion op s).base ≤ a ∧ a < (writeRegion op s).base + (writeRegion op s).len ∧ memOk s.config a = true
      then Config.freeByte (s.draws + (a - (writeRegion op s).base)) else s.mem.read a := by
  simp only [resetBlock_mem, resetMemory, hp]
  rw [(read_scramble hm ..).2]
  exact if_congr (and_congr_right fun hbase => and_congr_left fun hok => Region.lt_inSpace_iff hbase hok) rfl rfl

/-- Settles O10: DONE and ERROR are as at reset, and memory has free bytes in the write region alone. -/
theorem rstDuringACommandFreesItsWriteRegion : Obligations.RstDuringACommandFreesItsWriteRegion :=
  fun s _ rest hp hm => ⟨_, step_rst s rest, rfl, rfl, read_resetBlock_of_busy (s := { s with inputs := rest }) hm hp⟩

/-! ### Host accesses that race with the command -/

theorem hostMemRead_of_race {a : Word} {s : State} (hok : memOk s.config a.toNat = true)
    (hr : readRaces s a.toNat = true) : hostMemRead a s = .fault (.regionRace a) := by
  simp [hostMemRead, hok, hr]

theorem hostMemWrite_of_race {a : Word} {s : State} (hok : memOk s.config a.toNat = true)
    (hw : writeRaces s a.toNat = true) (b : Byte) : hostMemWrite a b s = .fault (.regionRace a) := by
  simp [hostMemWrite, hok, hw]

/-- A host read faults, or it is to a byte that exists and races with no command. -/
theorem hostMemRead_faults_or_allowed (a : Word) (s : State) :
    (∃ f, hostMemRead a s = .fault f) ∨ (memOk s.config a.toNat = true ∧ readRaces s a.toNat = false) := by
  cases hok : memOk s.config a.toNat with
  | false => exact .inl ⟨_, hostMemRead_of_hole hok⟩
  | true =>
    cases hr : readRaces s a.toNat with
    | true => exact .inl ⟨_, hostMemRead_of_race hok hr⟩
    | false => exact .inr ⟨rfl, rfl⟩

/-- A host write faults, or it is to a byte that exists and races with no command. -/
theorem hostMemWrite_faults_or_allowed (a : Word) (b : Byte) (s : State) :
    (∃ f, hostMemWrite a b s = .fault f) ∨ (memOk s.config a.toNat = true ∧ writeRaces s a.toNat = false) := by
  cases hok : memOk s.config a.toNat with
  | false => exact .inl ⟨_, hostMemWrite_of_hole hok b⟩
  | true =>
    cases hw : writeRaces s a.toNat with
    | true => exact .inl ⟨_, hostMemWrite_of_race hok hw b⟩
    | false => exact .inr ⟨rfl, rfl⟩

/-- Settles O22: a byte of a region R265 guards is a race, and a byte of the read region alone is none for a read. -/
theorem runningRegionsAreTheEngines : Obligations.RunningRegionsAreTheEngines := by
  intro s op rest a b hp
  obtain ⟨hread, hwrite⟩ := races_of_busy (s := { s with inputs := rest }) hp a.toNat
  refine ⟨fun h => ?_, fun h => ?_, fun _ hout hok => ?_⟩
  · refine (hostMemWrite_faults_or_allowed a b { s with inputs := rest }).resolve_right fun ⟨_, hfree⟩ => ?_
    exact Bool.false_ne_true (hfree.symm.trans (hwrite.trans (Bool.or_eq_true_iff.2 h)))
  · refine (hostMemRead_faults_or_allowed a { s with inputs := rest }).resolve_right fun ⟨_, hfree⟩ => ?_
    exact Bool.false_ne_true (hfree.symm.trans (hread.trans h))
  · exact hostMemRead_of_allowed (s := { s with inputs := rest }) hok (hread.trans hout)

end Sys2Proof.Machine
end

section
/-! ## From the invariant the machine goes on (R265), and every command completes (R270) -/

namespace Sys2Proof.Machine

/-! ### A command run whole completes -/

/-- The block after a completion (R233). -/
def Ended (s : State) : Prop := s.phase = .idle ∧ s.done = true

theorem ended_complete (e : ErrorCode) (p : Progress) (s : State) : Ended (complete e p s) := ⟨rfl, rfl⟩

theorem ended_scaleComplete (s : State) : Ended (scaleComplete s) := ⟨rfl, rfl⟩

theorem exists_ended_of_completes {o : Host.Outcome State Fault Refusal} {s : State} {e : ErrorCode}
    {inU outU pixD : Nat} {m : Memory} (h : completes o e inU outU pixD m s) : ∃ t, o = .next t ∧ Ended t := by
  obtain ⟨w, ht⟩ := h
  exact ⟨_, ht, rfl, rfl⟩

/-- DECODE expands the packets its stream begins with (O35, O36), ENCODE writes those of the image (O40), SCALE ends with
its rows (R205), and a failed check ends any of them (R118). -/
theorem exec_ends {c : Instr × Op} (hc : c ∈ commands) {s : State} (hm : Memory.wf s.mem) :
    ∃ t, exec c.1 s = .next t ∧ Ended t := by
  cases hcheck : checkError c.2 s with
  | some e => exact ⟨_, exec_of_checkError hc hcheck, ended_complete e _ s⟩
  | none =>
    simp only [commands, List.mem_cons, List.not_mem_nil, or_false] at hc
    rcases hc with rfl | rfl | rfl
    · obtain ⟨ps, e, hok, hwire, hfits, hcount, hend⟩ := everyStreamHasAnEnding s hcheck
      obtain ⟨m, hdone, -, -⟩ := decodeExpandsItsPackets s ps e hcheck hm hok hwire hfits hcount hend
      exact exists_ended_of_completes hdone
    · obtain ⟨ps, e, m, hdone, -⟩ := encodeWritesAPacketStream s hcheck hm
      exact exists_ended_of_completes hdone
    · obtain ⟨-, hscale⟩ := scaleSwapsTheImage
      obtain ⟨m, hdone, -⟩ := hscale s hcheck hm
      exact exists_ended_of_completes hdone

theorem runCommand_ends {s : State} (hm : Memory.wf s.mem) : ∃ t, runCommand s = .next t ∧ Ended t := by
  rcases runCommand_cases s with ⟨-, q⟩ | ⟨-, q⟩ | ⟨-, q⟩ | ⟨-, q⟩ <;> rw [q]
  · exact exec_ends (c := (.decode, .decode)) (by decide) hm
  · exact exec_ends (c := (.encode, .encode)) (by decide) hm
  · exact exec_ends (c := (.scale, .scale)) (by decide) hm
  · exact ⟨_, rfl, ended_complete _ _ s⟩

/-! ### Steps that go on -/

theorem Running.bodyStep_eq {op : Op} {s : State} (h : Running op s) : bodyStep op s = .next (bodyRound op s) :=
  Machine.bodyStep_eq h.phase h.stage ((checked_iff op s).2 h.checked)

/-- From the invariant the engine never stops: a body that runs has passed its checks (R118). -/
theorem exists_engineStep {s : State} (h : Inv s) : ∃ t, engineStep s = .next t := by
  cases hp : s.phase with
  | idle => exact ⟨s, engineStep_of_idle hp⟩
  | busy op =>
    cases hs : s.work.stage with
    | checks =>
      obtain ⟨t, ht, -⟩ := runCommand_ends h.1.1
      exact ⟨t, (engineStep_of_checks hp hs).trans ht⟩
    | body => exact ⟨_, (engineStep_of_body hp hs).trans (h.running hp hs).bodyStep_eq⟩

theorem exists_engineStepPart {s : State} (h : Inv s) : ∃ t, engineStepPart s = .next t := by
  cases hp : s.phase with
  | idle => exact ⟨s, engineStepPart_of_idle hp⟩
  | busy op =>
    cases hs : s.work.stage with
    | checks => exact ⟨_, engineStepPart_of_checks hp hs⟩
    | body => exact ⟨_, (engineStepPart_of_body hp hs).trans (h.running hp hs).bodyStep_eq⟩

theorem obeys_memRead_iff (a : Word) (s : State) :
    obeys (.memRead a) s = true ↔ memOk s.config a.toNat = true ∧ readRaces s a.toNat = false := by
  simp [obeys]

theorem obeys_memWrite_iff (a : Word) (b : Byte) (s : State) :
    obeys (.memWrite a b) s = true ↔ memOk s.config a.toNat = true ∧ writeRaces s a.toNat = false := by
  simp [obeys]

/-- An outcome that is a next state is no fault. -/
theorem not_fault_of_next {o : Host.Outcome State Fault Refusal} (h : ∃ t, o = .next t) : ¬ ∃ f, o = .fault f := by
  rintro ⟨f, hf⟩
  obtain ⟨t, ht⟩ := h
  cases hf.symm.trans ht

/-- An event is taken exactly when it is allowed: only a host access to memory can fault (R265). -/
theorem exists_takeInput_iff {s : State} (h : Inv s) (x : Input) :
    (∃ t, takeInput x s = .next t) ↔ obeys x s = true := by
  cases x with
  | regRead addr width => exact iff_of_true ⟨_, rfl⟩ rfl
  | regWrite addr width v => exact iff_of_true ⟨_, rfl⟩ rfl
  | memRead a =>
    rw [obeys_memRead_iff]
    exact ⟨fun ht => (hostMemRead_faults_or_allowed a s).resolve_left (not_fault_of_next ht),
      fun ⟨hok, hr⟩ => ⟨_, hostMemRead_of_allowed hok hr⟩⟩
  | memWrite a b =>
    rw [obeys_memWrite_iff]
    exact ⟨fun ht => (hostMemWrite_faults_or_allowed a b s).resolve_left (not_fault_of_next ht),
      fun ⟨hok, hw⟩ => ⟨_, hostMemWrite_of_allowed hok hw b⟩⟩
  | rst => exact iff_of_true ⟨_, rfl⟩ rfl
  | engine => exact iff_of_true (exists_engineStep h) rfl
  | enginePart => exact iff_of_true (exists_engineStepPart h) rfl

/-- Settles O51: with no event pending the engine goes on, and a pending event is taken exactly when it is allowed. -/
theorem obedientHostsNeverStopTheMachine : Obligations.ObedientHostsNeverStopTheMachine := by
  intro s h
  unfold StepSafe nextObeys
  cases hin : s.inputs with
  | nil =>
    rw [step_of_noInput hin]
    exact iff_of_true (exists_engineStep h) rfl
  | cons x rest =>
    rw [step_of_input hin]
    exact exists_takeInput_iff (s := { s with inputs := rest }) (inv_congr h s.wign s.ie rest s.reply s.draws) x

/-! ### A running body completes -/

/-- A bound on the rounds a body makes before it completes: DECODE and ENCODE have that many pixels left, SCALE goes once
over each source column left and each row's end. -/
def roundsLeft (op : Op) (s : State) : Nat :=
  match op with
  | .decode  => s.total - s.work.pix
  | .encode  => s.total - s.work.s
  | .scale   => (s.height.toNat - s.work.i) * (s.width.toNat + 1) + (s.width.toNat - s.work.c)
  | .illegal => 0

/-- From `s` to `t` the command has completed, or its body still runs with fewer rounds left. -/
def EndedOrNearer (op : Op) (s t : State) : Prop := Ended t ∨ (Running op t ∧ roundsLeft op t < roundsLeft op s)

theorem endedOrNearer_complete {op : Op} {s : State} (e : ErrorCode) (p : Progress) :
    EndedOrNearer op s (complete e p s) := .inl (ended_complete e p s)

/-- A packet executed stands for at least one pixel (R92). -/
theorem endedOrNearer_packetAt {s : State} (h : Running .decode s) (hd : Byte) :
    EndedOrNearer .decode s (packetAt hd s) := by
  have hnext := endedOrRunning_packetAt h hd
  rw [packetAt_eq] at hnext ⊢
  rcases decodePacket_cases (headerCount hd) (payloadLength s.bpp (decodeHeader hd)) (headerPixel hd s.bpp) s
    with ⟨-, q⟩ | ⟨-, -, q⟩ | ⟨hcount, -, q⟩ <;> rw [q] at hnext ⊢
  · exact endedOrNearer_complete _ _
  · exact endedOrNearer_complete _ _
  · have hpos := headerCount_pos hd
    refine .inr ⟨hnext.resolve_left fun ⟨hidle, _⟩ => (nomatch h.phase.symm.trans hidle), ?_⟩
    show s.total - (s.work.pix + headerCount hd) < s.total - s.work.pix
    omega

theorem endedOrNearer_decodeIter {s : State} (h : Running .decode s) : EndedOrNearer .decode s (decodeIter s) := by
  rcases decodeIter_cases s with ⟨-, q⟩ | ⟨-, -, q⟩ | ⟨-, -, q⟩ <;> rw [q]
  · exact endedOrNearer_complete _ _
  · exact endedOrNearer_complete _ _
  · exact endedOrNearer_packetAt h.fetchHeader _

/-- A packet written covers at least one pixel (R172, R173). -/
theorem endedOrNearer_encodeIter {s : State} (h : Running .encode s) : EndedOrNearer .encode s (encodeIter s) := by
  rcases encodeIter_cases s with ⟨-, q⟩ | ⟨-, -, q⟩ | ⟨hs, hfit, q⟩ <;> rw [q]
  · exact endedOrNearer_complete _ _
  · exact endedOrNearer_complete _ _
  · obtain ⟨hpos, -, -, -⟩ := packetExtent_bounds s hs
    refine .inr ⟨running_packetPacked h hs hfit, ?_⟩
    show s.total - (s.work.s + packetExtent s s.work.s) < s.total - s.work.s
    omega

theorem scaleRowEnd_width (s : State) : (scaleRowEnd s).width = s.width := by
  obtain ⟨m, w, q⟩ := scaleRowEnd_frame s
  rw [q]

/-- A column leaves one column fewer in its row, a row's end one row fewer (R201, R202). -/
theorem endedOrNearer_scaleIter {s : State} (h : Running .scale s) : EndedOrNearer .scale s (scaleIter s) := by
  rcases scaleIter_cases s with ⟨-, q⟩ | ⟨hi, hcol, q⟩ | ⟨hi, -, q⟩ <;> rw [q]
  · exact .inl (ended_scaleComplete s)
  · obtain ⟨hr, ei, ec, ew, eh⟩ := running_scaleColumn h hi hcol
    refine .inr ⟨hr, ?_⟩
    simp only [roundsLeft, ei, ec, ew, eh]
    omega
  · obtain ⟨hr, ei, ec, eh⟩ := running_scaleRowEnd h hi
    have hrows : s.height.toNat - s.work.i = s.height.toNat - (s.work.i + 1) + 1 := by omega
    refine .inr ⟨hr, ?_⟩
    simp only [roundsLeft, ei, ec, eh, scaleRowEnd_width]
    rw [hrows, Nat.succ_mul]
    omega

theorem endedOrNearer_bodyRound {op : Op} {s : State} (h : Running op s) :
    EndedOrNearer op s (bodyRound op s) := by
  cases op with
  | decode => exact endedOrNearer_decodeIter h
  | encode => exact endedOrNearer_encodeIter h
  | scale => exact endedOrNearer_scaleIter h
  | illegal => exact absurd rfl h.checked.legal

/-! ### Every started command completes -/

/-- Some number of steps leads to a completion. -/
def ReachesEnd (s : State) : Prop := ∃ k t, steps k s = .next t ∧ Ended t

theorem Ended.reachesEnd {s : State} (h : Ended s) : ReachesEnd s := ⟨0, s, rfl, h⟩

theorem ReachesEnd.of_step {s t : State} (hstep : step s = .next t) (h : ReachesEnd t) : ReachesEnd s := by
  obtain ⟨k, u, hk, hu⟩ := h
  refine ⟨k + 1, u, ?_, hu⟩
  rw [steps, hstep]
  exact hk

/-- With no event pending, a running body's steps are its rounds, of which finitely many are left. -/
theorem Running.reachesEnd {op : Op} {s : State} (h : Running op s) (hin : s.inputs = []) : ReachesEnd s := by
  induction hn : roundsLeft op s using Nat.strong_induction_on generalizing s with
  | _ n ih =>
    subst hn
    have hstep : step s = .next (bodyRound op s) := by
      rw [step_of_noInput hin, engineStep_of_body h.phase h.stage, h.bodyStep_eq]
    refine .of_step hstep ?_
    rcases endedOrNearer_bodyRound h with hend | ⟨hr, hlt⟩
    · exact hend.reachesEnd
    · exact ih _ hlt hr ((bodyRound_engineFrame op s).inputs.trans hin) rfl

/-- Settles O58: from its start a command runs whole in one step, and in its body each round brings the end nearer. -/
theorem everyStartedCommandCompletes : Obligations.EveryStartedCommandCompletes := by
  intro s op h hp hin
  show ReachesEnd s
  cases hs : s.work.stage with
  | checks =>
    obtain ⟨t, ht, hend⟩ := runCommand_ends h.1.1
    exact .of_step ((step_of_noInput hin).trans ((engineStep_of_checks hp hs).trans ht)) hend.reachesEnd
  | body => exact (h.running hp hs).reachesEnd hin

end Sys2Proof.Machine
end
